-- ==== Sys2Proof/Word.lean ====
section
/-! DEFINITION. The bit vectors of the block: a stream byte, a packet operand, the lrecord word
(00_scope R8; widths R6, R88). All values are unsigned. -/

namespace Sys2Proof

/-- One byte of a payload, a buffer or a stream. -/
abbrev Byte := BitVec 8

/-- A packet operand or result, and a register that must fit one: 64 bits (R88, R89). How many of them
a position or a count uses is LW or CW of the configuration (R7, log 3). -/
abbrev Word := BitVec 64

/-- WORD_BITS, the width of MAGIC and of the lrecord word (R6). -/
abbrev wordBits : Nat := 32

/-- FLAG_BITS, the width of cflag (R6). -/
abbrev flagBits : Nat := 2

/-- LEN_BITS, the width of length (R6). -/
abbrev lenBits : Nat := 30

/-- The magic field or an lrecord word (R6). -/
abbrev Word32 := BitVec wordBits

/-- A continuation flag (R6, R80). -/
abbrev CFlag := BitVec flagBits

/-- The length field of an lrecord word (R6, R80). -/
abbrev LenField := BitVec lenBits

end Sys2Proof
end

