-- ==== Sys2Proof/Config.lean ====
section
/-! DEFINITION. The constants of 00_scope R6, the parameters of R7, and the free values (U5, log 11;
R137, log 29). -/

namespace Sys2Proof

/-- MAGIC, the frame-start constant (R6, R23). -/
def magic : Word32 := 0x3ed7230a#32

/-- LEN_MAX = 2^LEN_BITS - 1, the largest length an lrecord word carries (R6). -/
def lenMax : Nat := 2 ^ lenBits - 1

/-- ALIGN_BYTES, the granule of a frame's size (R6). -/
def alignBytes : Nat := 4

/-- HDR_BYTES, magic field and lrecord word (R6). -/
def hdrBytes : Nat := 8

/-- BYTE_ORDER of the wire (R7, D1). -/
inductive ByteOrder where
  | little
  | big
  deriving DecidableEq, Repr

/-- The parameters of R7 that may differ between implementations. -/
structure Config where
  /-- BYTE_ORDER -/
  byteOrder : ByteOrder
  /-- CHUNK_LIMIT, the largest piece of a span -/
  chunkLimit : Nat
  /-- PBUF_CAP, the payload buffer's capacity in bytes -/
  pbufCap : Nat
  /-- RBUF_CAP, the reassembly buffer's capacity in bytes -/
  rbufCap : Nat
  /-- LW, the width in bits of payload lengths, offsets and positions -/
  lw : Nat
  /-- CW, the width in bits of EXCEPT_CNT -/
  cw : Nat
  deriving DecidableEq, Repr

/-- This hardware's values (R7). -/
def Config.standard : Config :=
  { byteOrder := .little, chunkLimit := 2 ^ 30 - 4, pbufCap := 2 ^ 64 - 1, rbufCap := 2 ^ 64 - 1
    lw := 64, cw := 64 }

/-- The largest value of an LW-bit quantity; an OSTREAM longer than this is outside the spec (R33). -/
def Config.lwMax (c : Config) : Nat := 2 ^ c.lw - 1

/-- The constraint R7 puts on CHUNK_LIMIT. -/
abbrev Config.ChunkLimitOk (c : Config) : Prop := 1 ≤ c.chunkLimit ∧ c.chunkLimit ≤ lenMax

/-- The constraints on the parameters: R7's on CHUNK_LIMIT; positions and counts that fit a packet's
64-bit result field (DEDUCED from R88 and R89, log 3); capacities that an LW-bit length can reach
(DEDUCED from R7's defaults 2^LW - 1, log 3). -/
abbrev Config.Wf (c : Config) : Prop :=
  c.ChunkLimitOk ∧ c.lw ≤ 64 ∧ c.cw ≤ 64 ∧ c.pbufCap ≤ c.lwMax ∧ c.rbufCap ≤ c.lwMax

/-- FREE VALUE: what RBUF holds after a fault, the `n`-th free value drawn (U5, R238, R268:
unspecified). It has no body, so nothing can be proved of a value of it (log 11). -/
opaque Config.freeRbuf : Nat → List Byte

/-- FREE VALUE: the offset MSCAN.PUSH reports for a hit that comes with SPOS below 4, the `n`-th free
value drawn: R137 gives SPOS - 4, which no unsigned number is (R8). It has no body (log 29). -/
opaque Config.freeOffset : Nat → Word

end Sys2Proof
end

