-- ==== Sys2Proof/Syntax.lean ====
section
/-! DEFINITION. The 15 operations of 30_encoding R90, one constructor per row of
spec/opcode_table.json. A constructor carries the operand fields its operation uses, `a0` before
`a1`, each a whole 64-bit field (R91); an unused field is no part of the operation (R88, log 24). -/

namespace Sys2Proof

inductive Instr where
  /-- LREC.ENC cflag, length (R110) -/
  | lrecEnc (cflag length : Word)
  /-- LREC.FLAG word (R111) -/
  | lrecFlag (word : Word)
  /-- LREC.LEN word (R112) -/
  | lrecLen (word : Word)
  /-- PAD.CALC length (R120) -/
  | padCalc (length : Word)
  /-- FRM.SIZE length (R121) -/
  | frmSize (length : Word)
  /-- MSCAN.CMP window word (R135) -/
  | mscanCmp (word : Word)
  /-- MSCAN.CLR (R136) -/
  | mscanClr
  /-- MSCAN.PUSH byte (R137) -/
  | mscanPush (byte : Word)
  /-- MSCAN.FIND start, L (R138) -/
  | mscanFind (start len : Word)
  /-- SPLIT.START L (R158) -/
  | splitStart (len : Word)
  /-- SPLIT.NEXT (R159) -/
  | splitNext
  /-- WRREC L (R175) -/
  | wrrec (len : Word)
  /-- RDREC (R198) -/
  | rdrec
  /-- CNT.GET (R220) -/
  | cntGet
  /-- STAT.GET (R221) -/
  | statGet
  deriving DecidableEq, Repr

end Sys2Proof
end

