-- ==== Sys2Proof/Decode.lean ====
section
/-! DEFINITION. The command packet of 30_encoding R88, the opcode map of R90, the decoder (total on
every packet, reserved opcodes rejected by name, R92) and the encoder. The block has no
instruction memory and no byte order for packets: the packet is the unit (R87, R94). -/

namespace Sys2Proof

/-- Packet format CMD, 136 bits (R88). -/
abbrev Packet := BitVec 136

/-- Field op, bits [135:128] (R88). -/
def Packet.op (p : Packet) : BitVec 8 := p.extractLsb' 128 8

/-- Field a1, bits [127:64] (R88). -/
def Packet.a1 (p : Packet) : Word := p.extractLsb' 64 64

/-- Field a0, bits [63:0] (R88). -/
def Packet.a0 (p : Packet) : Word := p.extractLsb' 0 64

/-- The packet `{op, a1, a0}` (R88). -/
def mkPacket (op : BitVec 8) (a1 a0 : Word) : Packet := op ++ a1 ++ a0

/-- Why a packet is no command. -/
inductive DecodeError where
  /-- R92: `op` is not in the opcode map. -/
  | reservedOpcode (op : BitVec 8)
  deriving DecidableEq, Repr

/-- The opcode map of R90 read from a packet. -/
def decode (p : Packet) : Except DecodeError Instr :=
  match p.op with
  | 0x10#8 => .ok (.lrecEnc p.a0 p.a1)
  | 0x11#8 => .ok (.lrecFlag p.a0)
  | 0x12#8 => .ok (.lrecLen p.a0)
  | 0x20#8 => .ok (.padCalc p.a0)
  | 0x21#8 => .ok (.frmSize p.a0)
  | 0x30#8 => .ok (.mscanCmp p.a0)
  | 0x31#8 => .ok .mscanClr
  | 0x32#8 => .ok (.mscanPush p.a0)
  | 0x33#8 => .ok (.mscanFind p.a0 p.a1)
  | 0x40#8 => .ok (.splitStart p.a0)
  | 0x41#8 => .ok .splitNext
  | 0x50#8 => .ok (.wrrec p.a0)
  | 0x60#8 => .ok .rdrec
  | 0x70#8 => .ok .cntGet
  | 0x71#8 => .ok .statGet
  | op => .error (.reservedOpcode op)

/-- The opcode of an operation (R90). -/
def Instr.opcode : Instr → BitVec 8
  | .lrecEnc _ _ => 0x10#8
  | .lrecFlag _ => 0x11#8
  | .lrecLen _ => 0x12#8
  | .padCalc _ => 0x20#8
  | .frmSize _ => 0x21#8
  | .mscanCmp _ => 0x30#8
  | .mscanClr => 0x31#8
  | .mscanPush _ => 0x32#8
  | .mscanFind _ _ => 0x33#8
  | .splitStart _ => 0x40#8
  | .splitNext => 0x41#8
  | .wrrec _ => 0x50#8
  | .rdrec => 0x60#8
  | .cntGet => 0x70#8
  | .statGet => 0x71#8

/-- The operand an operation carries in field a0, if it uses the field (R90). -/
def Instr.arg0 : Instr → Option Word
  | .lrecEnc cflag _ => some cflag
  | .lrecFlag word => some word
  | .lrecLen word => some word
  | .padCalc length => some length
  | .frmSize length => some length
  | .mscanCmp word => some word
  | .mscanClr => none
  | .mscanPush byte => some byte
  | .mscanFind start _ => some start
  | .splitStart len => some len
  | .splitNext => none
  | .wrrec len => some len
  | .rdrec => none
  | .cntGet => none
  | .statGet => none

/-- The operand an operation carries in field a1, if it uses the field (R90). -/
def Instr.arg1 : Instr → Option Word
  | .lrecEnc _ length => some length
  | .lrecFlag _ => none
  | .lrecLen _ => none
  | .padCalc _ => none
  | .frmSize _ => none
  | .mscanCmp _ => none
  | .mscanClr => none
  | .mscanPush _ => none
  | .mscanFind _ len => some len
  | .splitStart _ => none
  | .splitNext => none
  | .wrrec _ => none
  | .rdrec => none
  | .cntGet => none
  | .statGet => none

/-- The packet of an operation; an unused field is sent as zero (R88 ignores it; DESIGN CHOICE,
log 24). -/
def encode (i : Instr) : Packet := mkPacket i.opcode (i.arg1.getD 0) (i.arg0.getD 0)

/-- The packet whose low `nbits` bits are those of `w`, numbered as spec/opcode_table.json numbers
them (one number, bit 0 least significant), the rest zero. -/
def tablePacket (nbits w : Nat) : Packet := BitVec.ofNat 136 (w % 2 ^ nbits)

/-- The operation the decoder reads from an opcode-table word. -/
def decodeTableWord (nbits w : Nat) : Option Instr :=
  match decode (tablePacket nbits w) with
  | .ok i => some i
  | .error _ => none

end Sys2Proof
end

