-- ==== Sys2Proof/Machine/State.lean ====
section
/-! DEFINITION. Everything the spec gives the block (10_state), as plain data, with the host's pending
moves and the streams' coming answers beside it (20_memory R56 to R62), and the state after reset
(R41, R260). The word packet for 136 bits is 30_encoding's; INVENTORY.md lists every field with its
rule. -/

namespace Sys2Proof.Machine

/-- STATUS.FAULT (R25, R230). -/
inductive FaultKind where
  | none
  | argumentError
  | corruption
  | ioError
  deriving DecidableEq, Repr

/-- STATUS.CAUSE (R231). -/
inductive Cause where
  | none
  | lenRange
  | flagRange
  | badMagic
  | shortMagic
  | shortHeader
  | shortData
  | shortPad
  | contWithoutStart
  | startBeforeEnd
  | eosMidRecord
  | wrFail
  | rdFail
  deriving DecidableEq, Repr

/-- STATUS.RSTATE, the reader's state (R28). -/
inductive RState where
  | start
  | awaitingContinuation
  | done
  deriving DecidableEq, Repr

/-- The status of a response (R89); 4 to 14 do not exist. -/
inductive Status where
  | ok
  | argumentError
  | corruption
  | ioError
  | refused
  deriving DecidableEq, Repr

/-- A response packet's fields (R89). -/
structure Response where
  st : Status
  r1 : Word
  r0 : Word
  deriving DecidableEq, Repr

/-- One stream call with its answer, for the history of R40. -/
inductive StreamEvent where
  /-- `StreamWrite(bytes)`; `ok` is the answer (R56) -/
  | write (bytes : List Byte) (ok : Bool)
  /-- `StreamRead(n)`; `none` is the answer `fail` (R57) -/
  | read (n : Nat) (answer : Option (List Byte))
  deriving DecidableEq, Repr

/-- How OSTREAM will answer a coming `StreamWrite(s)`: the free input of R56 (log 7, 26). -/
inductive WriteAnswer where
  /-- all of `s` is appended -/
  | ok
  /-- `fail`; the first `k` bytes of `s` were appended, at most all but the last -/
  | fail (k : Nat)
  /-- the call never returns (U11, log 9) -/
  | never
  /-- reset is asserted during the call, which then has the outcome `fail k` (R261, log 10) -/
  | reset (k : Nat)
  deriving DecidableEq, Repr

/-- How ISTREAM will answer a coming `StreamRead(n)`: the free input of R57 (log 7, 8). -/
inductive ReadAnswer where
  /-- as many bytes as are there, at most `n` (the deterministic answer of R58) -/
  | full
  /-- at most `k + 1` bytes: a short answer is never empty before the end (R57) -/
  | short (k : Nat)
  /-- `fail`; the call consumes no byte (R57 is silent on RPOS here: DESIGN CHOICE, log 30) -/
  | fail
  /-- the call never returns (U11, log 9) -/
  | never
  /-- reset is asserted during the call; `k` bytes were consumed, if there (R261, log 10) -/
  | reset (k : Nat)
  deriving DecidableEq, Repr

/-- The environment's free choices, oldest first. An empty list is the deterministic stream model
of R58 and R59 from there on (log 7). -/
structure Oracle where
  writes : List WriteAnswer
  reads : List ReadAnswer
  /-- for each coming fault of RDREC, how far past the start of its frame RPOS is left (U6, log 12) -/
  rpos : List Nat
  deriving DecidableEq, Repr

/-- A move of the host: a command packet, or a directive of R96. -/
inductive HostAction where
  /-- a packet on the command port (R87) -/
  | command (p : Packet)
  /-- RESET: the reset signal (R260) -/
  | reset
  /-- PBUF.LOAD: the bytes to PBUF[0..n) (R96) -/
  | pbufLoad (bytes : List Byte)
  /-- a host write to PBUF at any offset while the block is idle (R50) -/
  | pbufWrite (offset : Nat) (bytes : List Byte)
  /-- ISTREAM.SET (R96) -/
  | istreamSet (bytes : List Byte)
  /-- the platform attaches an input stream that never ends: `bytes`, then `supply` for ever (R58's
  general form, R206; the model's own move, log 8) -/
  | istreamEndless (bytes supply : List Byte)
  /-- LOOPBACK (R68, R96) -/
  | loopback
  /-- SPLIT.ALL L (R96) -/
  | splitAll (len : Word)
  /-- the rest of a SPLIT.ALL: SPLIT.NEXT until the last response has `last` = 1 (R96, log 17) -/
  | splitRest
  deriving DecidableEq, Repr

/-- PBUF as (offset, byte) pairs, offsets strictly rising; an unlisted offset holds no value
(R31, U9, log 5). -/
abbrev Memory := List Host.Cell

/-- The machine. -/
structure State where
  /-- the parameters of R7 (log 3); no step changes them -/
  cfg : Config
  /-- EXCEPT_CNT (R24) -/
  exceptCnt : Word
  /-- STATUS.FAULT (R25, R26) -/
  fault : FaultKind
  /-- STATUS.CAUSE (R25, R26) -/
  cause : Cause
  /-- STATUS.EOS (R27) -/
  eos : Bool
  /-- STATUS.RSTATE (R28) -/
  rstate : RState
  /-- WIN[0], the oldest byte of the window (R29) -/
  win0 : Byte
  /-- WIN[1] (R29) -/
  win1 : Byte
  /-- WIN[2], the newest byte of the window (R29) -/
  win2 : Byte
  /-- STATUS.WCNT (R29) -/
  wcnt : BitVec 2
  /-- SPOS (R29) -/
  spos : Word
  /-- SP_LEN (R30) -/
  spLen : Word
  /-- SP_CUR (R30) -/
  spCur : Word
  /-- STATUS.SP_FIRST (R30) -/
  spFirst : Bool
  /-- STATUS.SP_ACTIVE (R30) -/
  spActive : Bool
  /-- PBUF (R31) -/
  pbuf : Memory
  /-- RBUF (R32) -/
  rbuf : List Byte
  /-- OSTREAM, first byte first (R33) -/
  ostream : List Byte
  /-- WPOS (R33) -/
  wpos : Nat
  /-- ISTREAM, the bytes its source has handed over so far, first byte first (R34); all of them, for
  a finite stream -/
  istream : List Byte
  /-- RPOS (R34) -/
  rpos : Nat
  /-- what ISTREAM's source hands over again and again, for ever, once `istream` is used up; empty for
  a finite stream, R58's deterministic form (R206, log 8) -/
  supply : List Byte
  /-- the stream calls so far, oldest first (R40) -/
  history : List StreamEvent
  /-- the response port: the last response since reset (R87, log 21) -/
  rsp : Option Response
  /-- the host's pending moves, oldest first (R62, R276, log 1) -/
  inbox : List HostAction
  /-- the environment's coming choices (R56 to R59, log 7) -/
  oracle : Oracle
  /-- how many free values have been drawn (the model's own counter, log 11) -/
  freeCtr : Nat
  deriving DecidableEq, Repr

/-- Why the machine stops without a next state. These are the model's stops; the block's own faults
are states (R236). -/
inductive Fault where
  /-- Raised by a PBUF read (MSCAN.FIND, SPLIT.NEXT, WRREC) whose range covers a cell nothing has
  written (R31, U9). Safe: the model stops where the spec says to stop. -/
  | pbufUnwritten
  /-- Raised by a host write to a PBUF offset at or above PBUF_CAP, a cell that does not exist
  (R31). Safe. -/
  | pbufNoSuchCell
  /-- Raised by a stream call that never returns (U11: stuck). Safe. -/
  | streamNeverReturns
  /-- Raised by SPLIT.NEXT and WRREC when CHUNK_LIMIT breaks R7's constraint, the only way a chunk
  could fail to fit its length field (U17). Safe: no configuration of R7 reaches it. -/
  | chunkLimitOutOfRange
  /-- Raised by RDREC when the input stream supplies frames for ever and the record never ends: the
  hang of R206 (U11: stuck, log 8, 20). Safe. -/
  | readerNeverEnds
  deriving DecidableEq, Repr

/-- Why the model gives a step no meaning. -/
inductive Refusal where
  /-- Raised by exec's arm of an operation that has no meaning yet. Safe. -/
  | notModelled (mnemonic : String)
  /-- Raised by a host write to PBUF[0..SP_LEN) while SP_ACTIVE = 1, a move the host does not have
  (R65, R267, U2). Safe: assumed of the host. -/
  | pbufWrittenWhileSplitOpen
  /-- Raised by RDREC when a record outgrows RBUF_CAP (R195, U7). Safe. -/
  | rbufCapacity
  /-- Raised by WRREC when OSTREAM outgrows 2^LW - 1 bytes, which is outside the spec (R33). Safe. -/
  | ostreamLength
  deriving DecidableEq, Repr

/-- How the body of an operation ends, inside one command. -/
inductive Res (α : Type) where
  /-- it goes on, or is done, with a result -/
  | ok (a : α) (s : State)
  /-- `refuse`: status REFUSED and no change of state (R12, R93) -/
  | refuse
  /-- `raise`: `s` keeps what the operation did before (R236) -/
  | raised (c : Cause) (s : State)
  /-- reset was asserted during a stream call (R261) -/
  | cut (s : State)
  /-- the machine stops -/
  | stuck (f : Fault)
  /-- the run is outside the model -/
  | outside (r : Refusal)
  deriving DecidableEq, Repr

/-- The machine right after reset (R41, R260), the streams freshly attached and empty, no host move
pending (values the spec does not give: log 4, 6, 25). -/
def State.reset : State :=
  { cfg := Config.standard
    exceptCnt := 0, fault := .none, cause := .none, eos := false, rstate := .start
    win0 := 0, win1 := 0, win2 := 0, wcnt := 0, spos := 0
    spLen := 0, spCur := 0, spFirst := false, spActive := false
    pbuf := [], rbuf := []
    ostream := [], wpos := 0, istream := [], rpos := 0, supply := []
    history := [], rsp := none, inbox := []
    oracle := { writes := [], reads := [], rpos := [] }, freeCtr := 0 }

end Sys2Proof.Machine
end

