-- ==== Sys2Proof/Machine/Flags.lean ====
section
/-! DEFINITION. The codes of the flags (10_state R25, R28, 60_exceptions R230, R231, 30_encoding R89),
the STATUS register as a view of them, and the response packet. -/

namespace Sys2Proof.Machine

/-- STATUS.FAULT codes (R25, R230). -/
def FaultKind.code : FaultKind → BitVec 2
  | .none => 0
  | .argumentError => 1
  | .corruption => 2
  | .ioError => 3

/-- STATUS.CAUSE codes (R231); 13 to 15 are never produced. -/
def Cause.code : Cause → BitVec 4
  | .none => 0
  | .lenRange => 1
  | .flagRange => 2
  | .badMagic => 3
  | .shortMagic => 4
  | .shortHeader => 5
  | .shortData => 6
  | .shortPad => 7
  | .contWithoutStart => 8
  | .startBeforeEnd => 9
  | .eosMidRecord => 10
  | .wrFail => 11
  | .rdFail => 12

/-- The kind every cause belongs to (R231). -/
def Cause.kind : Cause → FaultKind
  | .none => .none
  | .lenRange => .argumentError
  | .flagRange => .argumentError
  | .badMagic => .corruption
  | .shortMagic => .corruption
  | .shortHeader => .corruption
  | .shortData => .corruption
  | .shortPad => .corruption
  | .contWithoutStart => .corruption
  | .startBeforeEnd => .corruption
  | .eosMidRecord => .corruption
  | .wrFail => .ioError
  | .rdFail => .ioError

/-- STATUS.RSTATE codes; 3 never occurs (R25, R28). -/
def RState.code : RState → BitVec 2
  | .start => 0
  | .awaitingContinuation => 1
  | .done => 2

/-- Response status codes (R89). -/
def Status.code : Status → BitVec 4
  | .ok => 0
  | .argumentError => 1
  | .corruption => 2
  | .ioError => 3
  | .refused => 15

/-- The response status of a fault equals its FAULT code (R89, R236). -/
def FaultKind.status : FaultKind → Status
  | .none => .ok
  | .argumentError => .argumentError
  | .corruption => .corruption
  | .ioError => .ioError

/-- STATUS, assembled by R25's layout: WCNT [14:13], SP_FIRST [12], SP_ACTIVE [11], RSTATE [10:9],
EOS [8], CAUSE [7:4], reserved [3:2], FAULT [1:0], the rest reserved. -/
def State.status (s : State) : Word :=
  (s.wcnt ++ BitVec.ofBool s.spFirst ++ BitVec.ofBool s.spActive ++ s.rstate.code
    ++ BitVec.ofBool s.eos ++ s.cause.code ++ 0#2 ++ s.fault.code).setWidth 64

/-- Packet format RSP, 132 bits: st [131:128], r1 [127:64], r0 [63:0] (R89). -/
def Response.packet (r : Response) : BitVec 132 := r.st.code ++ r.r1 ++ r.r0

end Sys2Proof.Machine
end

