-- ==== Sys2Proof/Machine/Operands.lean ====
section
/-! DEFINITION. Operand checks (30_encoding R91), the byte order of wire fields (00_scope R9, 20_memory
R51), and the register enumeration (10_state R36). -/

namespace Sys2Proof.Machine

/-- A word operand (LREC.FLAG, LREC.LEN, MSCAN.CMP) is below 2^WORD_BITS, else refused (R91). -/
def fitsWord32 (a : Word) : Bool := decide (a.toNat < 2 ^ wordBits)

/-- A byte operand (MSCAN.PUSH) is below 256, else refused (R91). -/
def fitsByte (a : Word) : Bool := decide (a.toNat < 256)

/-- A length a frame can carry is below 2^30 (R91, R80). -/
def fitsLength (a : Word) : Bool := decide (a.toNat ≤ lenMax)

/-- A cflag is 0 to 3 (R91). -/
def fitsFlag (a : Word) : Bool := decide (a.toNat < 2 ^ flagBits)

/-- A payload length is at most PBUF_CAP, else refused (R91). -/
def fitsPbuf (c : Config) (a : Word) : Bool := decide (a.toNat ≤ c.pbufCap)

/-- `le32`: least significant byte first (R9). -/
def le32 (v : Word32) : List Byte :=
  [v.extractLsb' 0 8, v.extractLsb' 8 8, v.extractLsb' 16 8, v.extractLsb' 24 8]

/-- `u32le`, the inverse of `le32` on four bytes (R9). -/
def u32le (b0 b1 b2 b3 : Byte) : Word32 := b3 ++ b2 ++ b1 ++ b0

/-- `ser32`: every multi-byte field on the wire goes through it (R9). -/
def ser32 (o : ByteOrder) (v : Word32) : List Byte :=
  match o with
  | .little => le32 v
  | .big => (le32 v).reverse

/-- `deser32`, the inverse of `ser32` on four bytes (R9). -/
def deser32 (o : ByteOrder) (b0 b1 b2 b3 : Byte) : Word32 :=
  match o with
  | .little => u32le b0 b1 b2 b3
  | .big => u32le b3 b2 b1 b0

/-- A natural number in a register of `w` bits (LW or CW of R7): it counts modulo 2^w (R24, R29). -/
def wrapTo (w n : Nat) : Word := BitVec.ofNat 64 (n % 2 ^ w)

/-- `zeros(n)` (R8). -/
def zeros (n : Nat) : List Byte := List.replicate n 0

/-- The named registers (R36). -/
inductive Reg where
  | magic
  | exceptCnt
  | status
  | spos
  | win
  | spLen
  | spCur
  deriving DecidableEq, Repr

/-- The number R36 gives a register; no operation takes one. -/
def Reg.number : Reg → Nat
  | .magic => 0
  | .exceptCnt => 1
  | .status => 2
  | .spos => 3
  | .win => 4
  | .spLen => 5
  | .spCur => 6

/-- The value of a named register (R36), WIN as its three bytes with the oldest in the low byte. -/
def State.reg (s : State) : Reg → Word
  | .magic => magic.setWidth 64
  | .exceptCnt => s.exceptCnt
  | .status => s.status
  | .spos => s.spos
  | .win => (s.win2 ++ s.win1 ++ s.win0).setWidth 64
  | .spLen => s.spLen
  | .spCur => s.spCur

end Sys2Proof.Machine
end

