-- ==== Sys2Proof/Machine/Ops.lean ====
section
/-! DEFINITION. The named operations over memory and registers: PBUF reads and writes (20_memory R50),
the response port (30_encoding R89, R93), taking a fault (60_exceptions R236) and the one way back
from it, reset (R240, R260), and the frame every operation runs in. -/

namespace Sys2Proof.Machine

/-! ### PBUF -/

/-- The canonical form: offsets strictly rising. An unlisted cell holds no value, so no listed one
can equal it. -/
abbrev Memory.wf (m : Memory) : Prop := m.Pairwise (fun x y => x.1 < y.1)

/-- The byte at an offset, if something has written it (R31). -/
def Memory.read : Memory → Nat → Option Byte
  | [], _ => none
  | (k, v) :: m, a => if a = k then some v else Memory.read m a

/-- Write one byte, keeping the offsets rising. -/
def Memory.write : Memory → Nat → Byte → Memory
  | [], a, b => [(a, b)]
  | (k, v) :: m, a, b =>
    if a < k then (a, b) :: (k, v) :: m
    else if a = k then (a, b) :: m
    else (k, v) :: Memory.write m a b

/-- `MemRead(PBUF, a, n)` (R11); none if the range covers an unwritten cell (R31). -/
def Memory.readRange (m : Memory) : Nat → Nat → Option (List Byte)
  | _, 0 => some []
  | a, n + 1 =>
    match m.read a with
    | none => none
    | some b =>
      match Memory.readRange m (a + 1) n with
      | none => none
      | some bs => some (b :: bs)

/-- Write bytes from an offset upwards. -/
def Memory.writeRange : Memory → Nat → List Byte → Memory
  | m, _, [] => m
  | m, a, b :: bs => Memory.writeRange (m.write a b) (a + 1) bs

/-! ### Results of a body -/

/-- Go on with `k` when the part before it ended normally. -/
def Res.bind {α β : Type} (r : Res α) (k : α → State → Res β) : Res β :=
  match r with
  | .ok a s => k a s
  | .refuse => .refuse
  | .raised c s => .raised c s
  | .cut s => .cut s
  | .stuck f => .stuck f
  | .outside r => .outside r

/-- The payload PBUF[0..n), or the stop R31 asks for when a cell of it holds no value. -/
def readPayload (n : Nat) (s : State) : Res (List Byte) :=
  match s.pbuf.readRange 0 n with
  | some p => .ok p s
  | none => .stuck .pbufUnwritten

/-! ### The response port -/

/-- Present a response (R87, R89). -/
def State.respond (s : State) (st : Status) (r0 r1 : Word) : State :=
  { s with rsp := some { st := st, r1 := r1, r0 := r0 } }

/-- `refuse`: REFUSED 0 0 and nothing else changes (R93). -/
def State.refuse (s : State) : State := s.respond .refused 0 0

/-! ### Fault entry and reset -/

/-- Latch FAULT and CAUSE (R236); a latched fault stays (R26). -/
def State.latch (s : State) (c : Cause) : State :=
  if s.fault = .none then { s with fault := c.kind, cause := c } else s

/-- After a fault RBUF holds a free value (R238, R268, U5; log 11), of at most RBUF_CAP bytes (R32). -/
def State.loseRbuf (s : State) : State :=
  { s with
    rbuf := (Config.freeRbuf s.freeCtr).take s.cfg.rbufCap, freeCtr := s.freeCtr + 1 }

/-- `raise K(c)`: latch, and answer the code of K with r0 = r1 = 0 (R236). Everything the operation
did before stays, but for RBUF, whose contents no fault leaves specified (R238). -/
def State.raise (s : State) (c : Cause) : State :=
  (s.latch c).loseRbuf.respond c.kind.status 0 0

/-- The reset signal (R41, R260): the only way FAULT and CAUSE are cleared (R240). The streams
(R262), the host's and the environment's coming moves and the configuration are not the block's. WIN
is unspecified: 00 (log 4). -/
def State.hwReset (s : State) : State :=
  { s with
    exceptCnt := 0, fault := .none, cause := .none, eos := false, rstate := .start
    win0 := 0, win1 := 0, win2 := 0, wcnt := 0, spos := 0
    spLen := 0, spCur := 0, spFirst := false, spActive := false
    pbuf := [], rbuf := [], rsp := none }

/-! ### Running an operation -/

/-- What a body's end does at the interface. `s` is the state the command was accepted in. -/
def conclude (s : State) : Res (Word × Word) → Host.Outcome State Fault Refusal
  | .ok (r0, r1) t => .next (t.respond .ok r0 r1)
  | .refuse => .next s.refuse
  | .raised c t => .next (t.raise c)
  | .cut t => .next t.hwReset
  | .stuck f => .fault f
  | .outside r => .refused r

/-- Every operation but CNT.GET and STAT.GET: refused while a fault is latched (R237), which is
tested before anything else (R234). -/
def runOp (s : State) (body : State → Res (Word × Word)) : Host.Outcome State Fault Refusal :=
  if s.fault = .none then conclude s (body s) else conclude s .refuse

/-- CNT.GET and STAT.GET: accepted whatever FAULT is (R237). -/
def runAlways (s : State) (body : State → Res (Word × Word)) : Host.Outcome State Fault Refusal :=
  conclude s (body s)

/-- Add to EXCEPT_CNT, modulo 2^CW (R24). -/
def State.addExcept (s : State) (n : Nat) : State :=
  { s with exceptCnt := wrapTo s.cfg.cw (s.exceptCnt.toNat + n) }

/-- Take the head move off the host's list. -/
def State.withInbox (s : State) (rest : List HostAction) : State := { s with inbox := rest }

end Sys2Proof.Machine
end

