-- ==== Sys2Proof/Machine/Align.lean ====
section
/-! DEFINITION. ALIGN, the frame aligner (41_frame_aligner): the pure functions of R125 and the
operations PAD.CALC, FRM.SIZE. -/

namespace Sys2Proof.Machine

/-- `pad(n)` = (4 - n mod 4) mod 4 (R125). -/
def pad (n : Nat) : Nat := (alignBytes - n % alignBytes) % alignBytes

/-- `frame_size(n)` = 8 + n + pad(n) (R125). -/
def frameSize (n : Nat) : Nat := hdrBytes + n + pad n

/-- R120: total, any length. -/
def padCalcBody (length : Word) (s : State) : Res (Word × Word) :=
  .ok (BitVec.ofNat 64 (pad length.toNat), 0) s

/-- PAD.CALC (R120). -/
def execPadCalc (length : Word) (s : State) : Host.Outcome State Fault Refusal :=
  runOp s (padCalcBody length)

/-- R121. -/
def frmSizeBody (length : Word) (s : State) : Res (Word × Word) :=
  if fitsLength length then
    .ok (BitVec.ofNat 64 (frameSize length.toNat), BitVec.ofNat 64 (pad length.toNat)) s
  else .raised .lenRange s

/-- FRM.SIZE (R121). -/
def execFrmSize (length : Word) (s : State) : Host.Outcome State Fault Refusal :=
  runOp s (frmSizeBody length)

end Sys2Proof.Machine
end

