-- ==== Sys2Proof/Machine/Lrec.lean ====
section
/-! DEFINITION. LREC, the lrecord codec (40_lrecord_codec): the pure functions of R115 and the
operations LREC.ENC, LREC.FLAG, LREC.LEN. -/

namespace Sys2Proof.Machine

/-- `lrec_encode(c, n)` = {c[1:0], n[29:0]} (R115). -/
def lrecEncode (c : CFlag) (n : LenField) : Word32 := c ++ n

/-- `lrec_flag(w)` = w[31:30] (R115). -/
def lrecFlagOf (w : Word32) : CFlag := w.extractLsb' lenBits flagBits

/-- `lrec_len(w)` = w[29:0] (R115). -/
def lrecLenOf (w : Word32) : LenField := w.extractLsb' 0 lenBits

/-- R110: the length is tested first (R234). -/
def lrecEncBody (cflag length : Word) (s : State) : Res (Word × Word) :=
  if fitsLength length then
    if fitsFlag cflag then
      .ok ((lrecEncode (cflag.setWidth flagBits) (length.setWidth lenBits)).setWidth 64, 0) s
    else .raised .flagRange s
  else .raised .lenRange s

/-- LREC.ENC (R110). -/
def execLrecEnc (cflag length : Word) (s : State) : Host.Outcome State Fault Refusal :=
  runOp s (lrecEncBody cflag length)

/-- R111. -/
def lrecFlagBody (word : Word) (s : State) : Res (Word × Word) :=
  if fitsWord32 word then .ok ((lrecFlagOf (word.setWidth wordBits)).setWidth 64, 0) s else .refuse

/-- LREC.FLAG (R111). -/
def execLrecFlag (word : Word) (s : State) : Host.Outcome State Fault Refusal :=
  runOp s (lrecFlagBody word)

/-- R112. -/
def lrecLenBody (word : Word) (s : State) : Res (Word × Word) :=
  if fitsWord32 word then .ok ((lrecLenOf (word.setWidth wordBits)).setWidth 64, 0) s else .refuse

/-- LREC.LEN (R112). -/
def execLrecLen (word : Word) (s : State) : Host.Outcome State Fault Refusal :=
  runOp s (lrecLenBody word)

end Sys2Proof.Machine
end

