-- ==== Sys2Proof/Machine/Streams.lean ====
section
/-! DEFINITION. The two stream calls (20_memory R56, R57) under the coming answers State holds (log 7),
with their events (10_state R40). A call of width 0 is never issued (R60). -/

namespace Sys2Proof.Machine

/-- The answer OSTREAM gives to the next call, and the state with it used up; `ok` when none is
given (R59). -/
def State.nextWrite (s : State) : WriteAnswer × State :=
  match s.oracle.writes with
  | [] => (.ok, s)
  | a :: as => (a, { s with oracle := { s.oracle with writes := as } })

/-- The answer ISTREAM gives to the next call, and the state with it used up; all the bytes that are
there when none is given (R58). -/
def State.nextRead (s : State) : ReadAnswer × State :=
  match s.oracle.reads with
  | [] => (.full, s)
  | a :: as => (a, { s with oracle := { s.oracle with reads := as } })

/-- OSTREAM and WPOS grow by `t`, and the call is recorded (R40, R56). -/
def State.extendOut (s : State) (t : List Byte) (e : StreamEvent) : State :=
  { s with ostream := s.ostream ++ t, wpos := s.wpos + t.length, history := s.history ++ [e] }

/-- Append `t` and go on; a stream longer than 2^LW - 1 bytes is outside the spec (R33, log 14). -/
def appendOut (t : List Byte) (e : StreamEvent) (s : State) (k : State → Res Unit) : Res Unit :=
  if s.wpos + t.length ≤ s.cfg.lwMax then k (s.extendOut t e) else .outside .ostreamLength

/-- The first `k` bytes of `bs`, at most all but the last: what a failed call may have appended
(R56, U3). -/
def properFront (k : Nat) (bs : List Byte) : List Byte := bs.take (min k (bs.length - 1))

/-- `StreamWrite(bs)`, `|bs| ≥ 1`, with the raise every caller makes on `fail` (R56, R171). -/
def streamWrite (bs : List Byte) (s : State) : Res Unit :=
  match s.nextWrite with
  | (.ok, s1) => appendOut bs (.write bs true) s1 (.ok ())
  | (.fail k, s1) => appendOut (properFront k bs) (.write bs false) s1 (.raised .wrFail)
  | (.never, _) => .stuck .streamNeverReturns
  | (.reset k, s1) => appendOut (properFront k bs) (.write bs false) s1 .cut

/-- A write that is not issued when there is nothing to write (R60). -/
def streamWriteSome (bs : List Byte) (s : State) : Res Unit :=
  if bs.isEmpty then .ok () s else streamWrite bs s

/-- The next bytes of ISTREAM, at most `n` (R58). -/
def State.ahead (s : State) (n : Nat) : List Byte := (s.istream.drop s.rpos).take n

/-- What a source hands over that gives `supply` `m` times in a row. -/
def handed (supply : List Byte) (m : Nat) : List Byte := (List.replicate m supply).flatten

/-- A stream that never ends (State.supply) has its next `n` bytes ready before it is asked for
them: its source has handed over the supply as often as that takes. A finite stream stays as it is
(R206, log 8). -/
def State.refill (s : State) (n : Nat) : State :=
  { s with
    istream := s.istream ++ handed s.supply
      ((s.rpos + n - s.istream.length + s.supply.length - 1) / s.supply.length) }

/-- RPOS advances by `k`, and the call is recorded (R40, R57). RPOS is a natural number that nothing
stops or wraps (DESIGN CHOICE, log 14). -/
def State.consumeIn (s : State) (k : Nat) (e : StreamEvent) : State :=
  { s with rpos := s.rpos + k, history := s.history ++ [e] }

/-- `StreamRead(n)`, `n ≥ 1`, with the raise every caller makes on `fail` (R57, R191 to R196). A call
that answers `fail` consumes no byte: R57 is silent on RPOS there (DESIGN CHOICE, log 30). -/
def streamRead (n : Nat) (s : State) : Res (List Byte) :=
  match (s.refill n).nextRead with
  | (.full, s1) => .ok (s1.ahead n) (s1.consumeIn (s1.ahead n).length (.read n (some (s1.ahead n))))
  | (.short k, s1) =>
    let d := s1.ahead (min n (k + 1))
    .ok d (s1.consumeIn d.length (.read n (some d)))
  | (.fail, s1) => .raised .rdFail (s1.consumeIn 0 (.read n none))
  | (.never, _) => .stuck .streamNeverReturns
  | (.reset k, s1) => .cut (s1.consumeIn (s1.ahead (min n k)).length (.read n none))

end Sys2Proof.Machine
end

