-- ==== Sys2Proof/Machine/Deframe.lean ====
section
/-! DEFINITION. The deframer (45_deframer): the procedure read_frame (R190 to R196), the reader's state
machine (R199 to R202), and the operation RDREC (R198). -/

namespace Sys2Proof.Machine

/-- The magic field (R191, R192): false at a clean end of stream. -/
def readMagic (s : State) : Res Bool :=
  (streamRead 4 s).bind fun m s1 =>
    match m with
    | [] => if s1.rstate = .start then .ok false s1 else .raised .eosMidRecord s1
    | [b0, b1, b2, b3] =>
      if deser32 s1.cfg.byteOrder b0 b1 b2 b3 = magic then .ok true s1 else .raised .badMagic s1
    | _ => .raised .shortMagic s1

/-- The lrecord word (R193). -/
def readHeader (s : State) : Res Word32 :=
  (streamRead 4 s).bind fun h s1 =>
    match h with
    | [b0, b1, b2, b3] => .ok (deser32 s1.cfg.byteOrder b0 b1 b2 b3) s1
    | _ => .raised .shortHeader s1

/-- RBUF <- RBUF ++ d (R194), within RBUF_CAP (R195). -/
def appendRbuf (d : List Byte) (s : State) : Res Unit :=
  if s.rbuf.length + d.length ≤ s.cfg.rbufCap then .ok () { s with rbuf := s.rbuf ++ d }
  else .outside .rbufCapacity

/-- The data field (R194); nothing is read for length 0. -/
def readData (length : Nat) (s : State) : Res Unit :=
  if length = 0 then .ok () s
  else
    (streamRead length s).bind fun d s1 =>
      if d.length < length then .raised .shortData s1 else appendRbuf d s1

/-- The pad field (R196): its bytes are not looked at, and nothing is read for a pad of 0. -/
def readPad (p : Nat) (s : State) : Res Unit :=
  if p = 0 then .ok () s
  else
    (streamRead p s).bind fun z s1 => if z.length < p then .raised .shortPad s1 else .ok () s1

/-- `read_frame()` (R190): the frame's cflag, or none at a clean end of stream. -/
def readFrame (s : State) : Res (Option (CFlag)) :=
  (readMagic s).bind fun more s1 =>
    if more then
      (readHeader s1).bind fun w s2 =>
        (readData (lrecLenOf w).toNat s2).bind fun _ s3 =>
          (readPad (pad (lrecLenOf w).toNat) s3).bind fun _ s4 => .ok (some (lrecFlagOf w)) s4
    else .ok none s1

/-- What a frame's flag means to the reader. -/
inductive Verdict where
  /-- the record is complete -/
  | done
  /-- another frame follows -/
  | more
  /-- an illegal sequence -/
  | bad (c : Cause)
  deriving DecidableEq, Repr

/-- The transition table of R202 (R199 to R201). -/
def judge (r : RState) (flag : CFlag) : Verdict :=
  if r = .start then
    if flag = 0 then .done else if flag = 1 then .more else .bad .contWithoutStart
  else if flag = 2 then .more
  else if flag = 3 then .done
  else .bad .startBeforeEnd

/-- Where RPOS is left by a fault in a frame that began at `start`: anywhere from there to where
the pseudocode had reached (U6); what it reached when the environment names nothing (log 12). -/
def State.faultRpos (s : State) (start : Nat) : Nat :=
  match s.oracle.rpos with
  | [] => s.rpos
  | k :: _ => start + min k (s.rpos - start)

/-- What a fault of RDREC leaves open beside RBUF: RPOS (U6). -/
def State.afterReadFault (s : State) (start : Nat) : State :=
  { s with rpos := s.faultRpos start, oracle := { s.oracle with rpos := s.oracle.rpos.tail } }

/-- The loop of R198, at most as often as its bound says (log 20). -/
def rdrecLoop : Nat → State → Res (Word × Word)
  | 0, _ => .stuck .readerNeverEnds
  | n + 1, s =>
    match readFrame s with
    | .ok none s1 => .ok (0, 0) { s1 with eos := true }
    | .ok (some flag) s1 =>
      match judge s1.rstate flag with
      | .done => .ok (1, BitVec.ofNat 64 s1.rbuf.length) { s1 with rstate := .done }
      | .more => rdrecLoop n { s1 with rstate := .awaitingContinuation }
      | .bad c => .raised c (s1.afterReadFault s.rpos)
    | .refuse => .refuse
    | .raised c s1 => .raised c (s1.afterReadFault s.rpos)
    | .cut s1 => .cut s1
    | .stuck f => .stuck f
    | .outside r => .outside r

/-- RBUF <- empty, RSTATE <- START (R198). -/
def State.openRecord (s : State) : State := { s with rbuf := [], rstate := .start }

/-- How many frames RDREC can read and still end. Every frame takes bytes off the input and answers
off the environment's lists; after both are used up the frames come from the supply, over and over,
and of `supply.length + 1` frame starts in state AWAITING_CONTINUATION two stand at the same place of
it: from the second on everything repeats (R206, log 20). -/
def rdrecBound (s : State) : Nat :=
  s.istream.length + s.oracle.reads.length + s.supply.length + 1

/-- R198. -/
def rdrecBody (s : State) : Res (Word × Word) :=
  if s.eos then .ok (0, 0) s else rdrecLoop (rdrecBound s) s.openRecord

/-- RDREC (R198). -/
def execRdrec (s : State) : Host.Outcome State Fault Refusal := runOp s rdrecBody

end Sys2Proof.Machine
end

