-- ==== Sys2Proof/Machine/Mscan.lean ====
section
/-! DEFINITION. MSCAN, the byte-parallel matcher and scanner (42_magic_scanner): the lanes (R130, R131),
the occurrences of a payload (R132), and the operations MSCAN.CMP, MSCAN.CLR, MSCAN.PUSH,
MSCAN.FIND. -/

namespace Sys2Proof.Machine

/-- MAGIC_BYTES[k] (R7, R130): on this hardware `MAGIC[8k+7 : 8k]`; the bytes in the other order
under BYTE_ORDER = big (log 23). -/
def magicByte (o : ByteOrder) (k : Fin 4) : Byte :=
  match o with
  | .little => magic.extractLsb' (8 * k.val) 8
  | .big => magic.extractLsb' (24 - 8 * k.val) 8

/-- Lane `k`'s comparator (R130, R131). -/
def lane (o : ByteOrder) (k : Fin 4) (b : Byte) : Bool := b == magicByte o k

/-- `is_magic` on four bytes in stream order: four lanes and an AND (R130). -/
def isMagic (o : ByteOrder) (b0 b1 b2 b3 : Byte) : Bool :=
  lane o 0 b0 && lane o 1 b1 && lane o 2 b2 && lane o 3 b3

/-- The pattern stands at the front of the bytes: four bytes are there and they match (R132). -/
def startsMagic (o : ByteOrder) : List Byte → Bool
  | b0 :: b1 :: b2 :: b3 :: _ => isMagic o b0 b1 b2 b3
  | _ => false

/-- The offsets of the occurrences in bytes whose first one is at offset `i`, increasing (R132,
R134). -/
def occFrom (o : ByteOrder) (i : Nat) : List Byte → List Nat
  | [] => []
  | b :: bs =>
    if startsMagic o (b :: bs) then i :: occFrom o (i + 1) bs else occFrom o (i + 1) bs

/-- `occ(P)` (R132). -/
def occ (o : ByteOrder) (p : List Byte) : List Nat := occFrom o 0 p

/-- R135: lane 0 reads the first byte in stream order, a0[7:0]. -/
def mscanCmpBody (word : Word) (s : State) : Res (Word × Word) :=
  if fitsWord32 word then
    let o := s.cfg.byteOrder
    let eq0 := lane o 0 (word.extractLsb' 0 8)
    let eq1 := lane o 1 (word.extractLsb' 8 8)
    let eq2 := lane o 2 (word.extractLsb' 16 8)
    let eq3 := lane o 3 (word.extractLsb' 24 8)
    .ok ((BitVec.ofBool (eq0 && eq1 && eq2 && eq3)).setWidth 64,
      (BitVec.ofBool eq3 ++ BitVec.ofBool eq2 ++ BitVec.ofBool eq1 ++ BitVec.ofBool eq0).setWidth 64)
      s
  else .refuse

/-- MSCAN.CMP (R135). -/
def execMscanCmp (word : Word) (s : State) : Host.Outcome State Fault Refusal :=
  runOp s (mscanCmpBody word)

/-- Empty the window; WIN keeps its bytes, which hold no value (R136). -/
def State.clearWindow (s : State) : State := { s with wcnt := 0, spos := 0 }

/-- R136. -/
def mscanClrBody (s : State) : Res (Word × Word) := .ok (0, 0) s.clearWindow

/-- MSCAN.CLR (R136). -/
def execMscanClr (s : State) : Host.Outcome State Fault Refusal := runOp s mscanClrBody

/-- Shift a byte into the window (R137): WCNT saturates at 3, SPOS counts modulo 2^LW. -/
def State.pushWindow (s : State) (b : Byte) : State :=
  { s with
    win0 := s.win1, win1 := s.win2, win2 := b
    wcnt := if s.wcnt = 3 then 3 else s.wcnt + 1
    spos := wrapTo s.cfg.lw (s.spos.toNat + 1) }

/-- The byte completes an occurrence: a full window before it, and a match (R137). -/
def State.pushHits (s : State) (b : Byte) : Bool :=
  decide (s.wcnt = 3) && isMagic s.cfg.byteOrder s.win0 s.win1 s.win2 b

/-- Use up a free value. -/
def State.drawFree (s : State) : State := { s with freeCtr := s.freeCtr + 1 }

/-- What a hit reports (R137): SPOS after the increment less 4, the offset of the occurrence's first
byte. Where SPOS has wrapped to less than 4 there is no such unsigned number: a free value (log 29). -/
def hitOffset (t : State) : Res (Word × Word) :=
  if 4 ≤ t.spos.toNat then .ok (1, t.spos - 4) t
  else .ok (1, Config.freeOffset t.freeCtr) t.drawFree

/-- R137. -/
def mscanPushBody (byte : Word) (s : State) : Res (Word × Word) :=
  if fitsByte byte then
    let b : Byte := byte.setWidth 8
    let t := s.pushWindow b
    if s.pushHits b then hitOffset t else .ok (0, 0) t
  else .refuse

/-- MSCAN.PUSH (R137). -/
def execMscanPush (byte : Word) (s : State) : Host.Outcome State Fault Refusal :=
  runOp s (mscanPushBody byte)

/-- R138. -/
def mscanFindBody (start len : Word) (s : State) : Res (Word × Word) :=
  if fitsPbuf s.cfg len && decide (start.toNat ≤ len.toNat) then
    (readPayload len.toNat s).bind fun p s1 =>
      match (occ s1.cfg.byteOrder p).find? (fun i => decide (start.toNat ≤ i)) with
      | some i => .ok (1, BitVec.ofNat 64 i) s1
      | none => .ok (0, len) s1
  else .refuse

/-- MSCAN.FIND (R138). -/
def execMscanFind (start len : Word) (s : State) : Host.Outcome State Fault Refusal :=
  runOp s (mscanFindBody start len)

end Sys2Proof.Machine
end

