-- ==== Sys2Proof/Machine/Split.lean ====
section
/-! DEFINITION. SPLIT, the frame splitter (43_frame_splitter): spans (R151), pieces (R152), the function
`split` (R153) with its flags (R154), and the operations SPLIT.START, SPLIT.NEXT that walk it. -/

namespace Sys2Proof.Machine

/-- `cflag_of(first, last)` (R154): cflag[1] = not first, cflag[0] = first xor last. -/
def cflagOf (first last : Bool) : CFlag := BitVec.ofBool (!first) ++ BitVec.ofBool (xor first last)

/-- The spans of a payload of length `len` from `start` on, split at the given points (R151). -/
def spans (start : Nat) : List Nat → Nat → List (Nat × Nat)
  | [], len => [(start, len)]
  | i :: is, len => (start, i) :: spans i is len

/-- R152's recursion with a bound on its depth. -/
def piecesUpTo (limit : Nat) : Nat → Nat → Nat → List (Nat × Nat)
  | 0, b, e => [(b, e - b)]
  | n + 1, b, e =>
    if e - b ≤ limit then [(b, e - b)] else (b, limit) :: piecesUpTo limit n (b + limit) e

/-- `pieces(b, e)`: a span as (offset, length) chunks of at most `limit` bytes (R152). -/
def pieces (limit b e : Nat) : List (Nat × Nat) := piecesUpTo limit ((e - b) / limit) b e

/-- A chunk: the bytes `P[off .. off + len)` and the flag of its frame (R150, R154). -/
structure Chunk where
  off : Nat
  len : Nat
  cflag : CFlag
  deriving DecidableEq, Repr

/-- Flags by position in the final list (R154). -/
def withFlags (first : Bool) : List (Nat × Nat) → List Chunk
  | [] => []
  | [c] => [{ off := c.1, len := c.2, cflag := cflagOf first true }]
  | c :: d :: cs =>
    { off := c.1, len := c.2, cflag := cflagOf first false } :: withFlags false (d :: cs)

/-- `split(P)` (R153): the pieces of every span, in order, with their flags. -/
def split (c : Config) (p : List Byte) : List Chunk :=
  withFlags true ((spans 0 (occ c.byteOrder p) p.length).flatMap fun x => pieces c.chunkLimit x.1 x.2)

/-- Open an iteration (R158). -/
def State.openSplit (s : State) (len : Word) : State :=
  { s with spLen := len, spCur := 0, spFirst := true, spActive := true }

/-- R158. PBUF is not read here: whether PBUF[0..L) was written is found out by SPLIT.NEXT (DESIGN
CHOICE, log 28). -/
def splitStartBody (len : Word) (s : State) : Res (Word × Word) :=
  if fitsPbuf s.cfg len then .ok (0, 0) (s.openSplit len) else .refuse

/-- SPLIT.START (R158). -/
def execSplitStart (len : Word) (s : State) : Host.Outcome State Fault Refusal :=
  runOp s (splitStartBody len)

/-- The next split point of an iteration: the least occurrence, at or after 0 for the first chunk and
after the cursor for a later one (R159). -/
def nextOcc (o : ByteOrder) (first : Bool) (cur : Nat) (p : List Byte) : Option Nat :=
  (occ o p).find? (fun i => first || decide (cur < i))

/-- Where the next chunk ends (R159), in exact arithmetic. -/
def chunkEnd (limit cur len : Nat) (q : Option Nat) : Nat :=
  match q with
  | some i => min i (min (cur + limit) len)
  | none => min (cur + limit) len

/-- The chunk descriptor (R159): last [36], at_occ [35], valid [34], pad [33:32], word [31:0]. -/
def descriptor (last atOcc : Bool) (cflag : CFlag) (len : Nat) : Word :=
  (BitVec.ofBool last ++ BitVec.ofBool atOcc ++ 1#1 ++ BitVec.ofNat 2 (pad len)
    ++ lrecEncode cflag (BitVec.ofNat lenBits len)).setWidth 64

/-- Deliver the chunk that ends at `e` (R159). -/
def State.advanceSplit (s : State) (e : Nat) (last : Bool) : State :=
  { s with spCur := BitVec.ofNat 64 e, spFirst := false, spActive := s.spActive && !last }

/-- R159, with the stop of U17 for a CHUNK_LIMIT outside R7 (log 18). -/
def splitNextBody (s : State) : Res (Word × Word) :=
  if s.spActive then
    if s.cfg.ChunkLimitOk then
      (readPayload s.spLen.toNat s).bind fun p s1 =>
        let cur := s1.spCur.toNat
        let q := nextOcc s1.cfg.byteOrder s1.spFirst cur p
        let e := chunkEnd s1.cfg.chunkLimit cur s1.spLen.toNat q
        let atOcc := decide (q = some e)
        let last := decide (e = s1.spLen.toNat)
        .ok (descriptor last atOcc (cflagOf s1.spFirst last) (e - cur), s1.spCur)
          ((if atOcc then s1.addExcept 1 else s1).advanceSplit e last)
    else .stuck .chunkLimitOutOfRange
  else .ok (0, 0) s

/-- SPLIT.NEXT (R159). -/
def execSplitNext (s : State) : Host.Outcome State Fault Refusal := runOp s splitNextBody

end Sys2Proof.Machine
end

