-- ==== Sys2Proof/Machine/Emit.lean ====
section
/-! DEFINITION. The frame emitter (44_frame_emitter): the functions of R170, the procedure emit_frame
(R171), and the operation WRREC (R175). -/

namespace Sys2Proof.Machine

/-- The data of a chunk, `P[off .. off + len)` (R150). -/
def Chunk.slice (c : Chunk) (p : List Byte) : List Byte := (p.drop c.off).take c.len

/-- The lrecord word of a frame (R80). -/
def headerWord (flag : CFlag) (n : Nat) : Word32 := lrecEncode flag (BitVec.ofNat lenBits n)

/-- `frame_bytes(cflag, d)` (R82, R170). -/
def frameBytes (o : ByteOrder) (flag : CFlag) (d : List Byte) : List Byte :=
  ser32 o magic ++ ser32 o (headerWord flag d.length) ++ d ++ zeros (pad d.length)

/-- The bytes of the frames of the given chunks of `p`, in order (R170). -/
def framesOf (o : ByteOrder) (p : List Byte) (cs : List Chunk) : List Byte :=
  cs.flatMap fun c => frameBytes o c.cflag (c.slice p)

/-- `encode_record(P)` (R170). -/
def encodeRecord (c : Config) (p : List Byte) : List Byte := framesOf c.byteOrder p (split c p)

/-- `emit_frame` (R171): four stream writes in a fixed order, empty ones left out (R60). `d` is the
chunk's data, which the block has read from PBUF. -/
def emitFrame (flag : CFlag) (d : List Byte) (s : State) : Res Unit :=
  (streamWrite (ser32 s.cfg.byteOrder magic) s).bind fun _ s1 =>
    (streamWrite (ser32 s1.cfg.byteOrder (headerWord flag d.length)) s1).bind fun _ s2 =>
      (streamWriteSome d s2).bind fun _ s3 => streamWriteSome (zeros (pad d.length)) s3

/-- The loop of R175: the frames in order, adding up their sizes. -/
def emitAll (p : List Byte) : List Chunk → Nat → State → Res Nat
  | [], total, s => .ok total s
  | c :: cs, total, s =>
    (emitFrame c.cflag (c.slice p) s).bind fun _ s1 => emitAll p cs (total + frameSize c.len) s1

/-- R175: EXCEPT_CNT is complete before any write. -/
def wrrecBody (len : Word) (s : State) : Res (Word × Word) :=
  if fitsPbuf s.cfg len then
    if s.cfg.ChunkLimitOk then
      (readPayload len.toNat s).bind fun p s1 =>
        let cs := split s1.cfg p
        (emitAll p cs 0 (s1.addExcept (occ s1.cfg.byteOrder p).length)).bind fun total s2 =>
          .ok (BitVec.ofNat 64 cs.length, BitVec.ofNat 64 total) s2
    else .stuck .chunkLimitOutOfRange
  else .refuse

/-- WRREC (R175). -/
def execWrrec (len : Word) (s : State) : Host.Outcome State Fault Refusal :=
  runOp s (wrrecBody len)

end Sys2Proof.Machine
end

