-- ==== Sys2Proof/Machine/System.lean ====
section
/-! DEFINITION. The system operations CNT.GET and STAT.GET (46_system_ops). -/

namespace Sys2Proof.Machine

/-- CNT.GET (R220). -/
def execCntGet (s : State) : Host.Outcome State Fault Refusal :=
  runAlways s fun s => .ok (s.exceptCnt, 0) s

/-- STAT.GET (R221). -/
def execStatGet (s : State) : Host.Outcome State Fault Refusal :=
  runAlways s fun s => .ok (s.status, 0) s

end Sys2Proof.Machine
end

