-- ==== Sys2Proof/Machine/Dispatch.lean ====
section
/-! DEFINITION. One arm per operation of 30_encoding R90. -/

namespace Sys2Proof.Machine

def exec (i : Instr) (s : State) : Host.Outcome State Fault Refusal :=
  match i with
  | .lrecEnc cflag length => Sys2Proof.Machine.execLrecEnc cflag length s
  | .lrecFlag word => Sys2Proof.Machine.execLrecFlag word s
  | .lrecLen word => Sys2Proof.Machine.execLrecLen word s
  | .padCalc length => Sys2Proof.Machine.execPadCalc length s
  | .frmSize length => Sys2Proof.Machine.execFrmSize length s
  | .mscanCmp word => Sys2Proof.Machine.execMscanCmp word s
  | .mscanClr => Sys2Proof.Machine.execMscanClr s
  | .mscanPush byte => Sys2Proof.Machine.execMscanPush byte s
  | .mscanFind start len => Sys2Proof.Machine.execMscanFind start len s
  | .splitStart len => Sys2Proof.Machine.execSplitStart len s
  | .splitNext => Sys2Proof.Machine.execSplitNext s
  | .wrrec len => Sys2Proof.Machine.execWrrec len s
  | .rdrec => Sys2Proof.Machine.execRdrec s
  | .cntGet => Sys2Proof.Machine.execCntGet s
  | .statGet => Sys2Proof.Machine.execStatGet s

end Sys2Proof.Machine
end

