-- ==== Sys2Proof/Machine/Directives.lean ====
section
/-! DEFINITION. The host's moves: a command packet on the port (30_encoding R87, R92) and the
directives of R96. Each takes the state with the move already off the host's list. -/

namespace Sys2Proof.Machine

/-- Accept a packet: run the operation it encodes, or refuse a reserved opcode (R87, R92). -/
def runPacket (p : Packet) (s : State) : Host.Outcome State Fault Refusal :=
  match decode p with
  | .ok i => exec i s
  | .error _ => .next s.refuse

/-- The host writes bytes to PBUF while the block is idle (R50). It has no such move on
PBUF[0..SP_LEN) while an iteration is open (R267, U2, log 16), and cells end at PBUF_CAP (R31). -/
def hostWrite (offset : Nat) (bytes : List Byte) (s : State) : Host.Outcome State Fault Refusal :=
  if bytes = [] then .next s
  else if s.cfg.pbufCap < offset + bytes.length then .fault .pbufNoSuchCell
  else if s.spActive ∧ offset < s.spLen.toNat then .refused .pbufWrittenWhileSplitOpen
  else .next { s with pbuf := s.pbuf.writeRange offset bytes }

/-- The platform makes ISTREAM a byte sequence and RPOS 0 (R96), with what follows it for ever, if
anything (log 8). -/
def State.setIn (s : State) (bytes supply : List Byte) : State :=
  { s with istream := bytes, rpos := 0, supply := supply }

/-- The last response was the final chunk of an iteration: descriptor bit `last` = 1 (R96, R159). -/
def State.lastSeen (s : State) : Bool :=
  match s.rsp with
  | some r => decide (r.st = .ok) && r.r0.getLsbD 36
  | none => false

/-- Put moves in front of the host's list. -/
def State.queue (s : State) (as : List HostAction) : State := { s with inbox := as ++ s.inbox }

/-- One move of the host (R96, R276). -/
def runAction (a : HostAction) (s : State) : Host.Outcome State Fault Refusal :=
  match a with
  | .command p => runPacket p s
  | .reset => .next s.hwReset
  | .pbufLoad bytes => hostWrite 0 bytes s
  | .pbufWrite offset bytes => hostWrite offset bytes s
  | .istreamSet bytes => .next (s.setIn bytes [])
  | .istreamEndless bytes supply => .next (s.setIn bytes supply)
  | .loopback => .next (s.setIn s.ostream [])
  | .splitAll len => .next (s.queue [.command (encode (.splitStart len)), .splitRest])
  | .splitRest =>
    .next (if s.lastSeen then s else s.queue [.command (encode .splitNext), .splitRest])

end Sys2Proof.Machine
end

