-- ==== Sys2Proof/Machine/Step.lean ====
section
/-! DEFINITION. One step: the host's oldest pending move, or idling when there is none (20_memory R62,
70_reset_and_hazards R276; log 1). -/

namespace Sys2Proof.Machine

def step (s : State) : Host.Outcome State Fault Refusal :=
  match s.inbox with
  | [] => .next s
  | a :: rest => runAction a (s.withInbox rest)

/-- `s` with a command packet as the host's next move: the command port is where the block takes its
next operation from (R87, log 2). -/
def State.withFetchWord (s : State) (nbits w : Nat) : State :=
  s.queue [.command (tablePacket nbits w)]

end Sys2Proof.Machine
end

