-- ==== Sys2Proof/Safety.lean ====
section
/-! DEFINITION. The terms claims are made in: the invariant of the machine, when RBUF is valid
(70_reset_and_hazards R268), where the pattern stands in a payload, legal flag sequences and frames on
the wire (30_encoding R82, R84), the stream calls an operation makes (20_memory R55), and repeated
operations. Nothing here is used by the machine. -/

namespace Sys2Proof.Machine

/-! ### The machine -/

/-- What every run keeps true between steps. -/
structure State.Inv (s : State) : Prop where
  /-- R7 -/
  cfgWf : s.cfg.Wf
  /-- PBUF's canonical form -/
  pbufWf : s.pbuf.wf
  /-- R31: offsets 0 to PBUF_CAP - 1 -/
  pbufCap : ∀ x ∈ s.pbuf, x.1 < s.cfg.pbufCap
  /-- R231: every cause belongs to one kind -/
  faultKind : s.fault = s.cause.kind
  /-- R30: 0 ≤ SP_CUR ≤ SP_LEN -/
  cursor : s.spCur.toNat ≤ s.spLen.toNat
  /-- R91: a payload fits PBUF -/
  splitCap : s.spLen.toNat ≤ s.cfg.pbufCap
  /-- R30: SP_FIRST only in an open iteration that has delivered nothing -/
  splitFirst : s.spFirst = true → s.spActive = true ∧ s.spCur = 0
  /-- R30: an open iteration has a chunk left -/
  splitLeft : s.spActive = true → s.spFirst = false → s.spCur.toNat < s.spLen.toNat
  /-- R24: EXCEPT_CNT counts modulo 2^CW -/
  exceptCnt : s.exceptCnt.toNat < 2 ^ s.cfg.cw
  /-- R29: SPOS counts modulo 2^LW -/
  spos : s.spos.toNat < 2 ^ s.cfg.lw
  /-- R29: SPOS and WCNT count the same pushes until WCNT saturates -/
  window : s.wcnt ≠ 3 → s.spos.toNat = s.wcnt.toNat % 2 ^ s.cfg.lw
  /-- R32 -/
  rbufCap : s.rbuf.length ≤ s.cfg.rbufCap
  /-- R28: between operations the reader awaits a continuation only after a fault -/
  awaiting : s.rstate = .awaitingContinuation → s.fault ≠ .none
  /-- R198: a clean end of stream leaves RSTATE at START, and RBUF empty until a fault (R268) -/
  ended : s.eos = true → s.rstate = .start ∧ (s.fault = .none → s.rbuf = [])
  /-- R33 -/
  wpos : s.wpos ≤ s.ostream.length
  /-- R33: a longer stream is outside the spec -/
  wposMax : s.wpos ≤ s.cfg.lwMax
  /-- R34 -/
  rpos : s.rpos ≤ s.istream.length

/-- RBUF holds the record of the last RDREC (R268): it answered found = 1, and no fault since. -/
abbrev State.RecordReady (s : State) : Prop := s.rstate = .done ∧ s.fault = .none

/-- Every coming `StreamWrite` answers `ok` (R59). -/
abbrev State.WritesOk (s : State) : Prop := ∀ a ∈ s.oracle.writes, a = .ok

/-- Every coming `StreamRead` delivers all it can (R58). -/
abbrev State.ReadsFull (s : State) : Prop := ∀ a ∈ s.oracle.reads, a = .full

/-- No coming stream call is one during which reset is asserted (R261 leaves the move to the
environment). -/
abbrev State.NoResetInCalls (s : State) : Prop :=
  (∀ k, WriteAnswer.reset k ∉ s.oracle.writes) ∧ (∀ k, ReadAnswer.reset k ∉ s.oracle.reads)

/-- PBUF[0..|p|) = p (R31). -/
abbrev State.PayloadIs (s : State) (p : List Byte) : Prop :=
  ∀ (k : Nat) (h : k < p.length), s.pbuf.read k = some p[k]

/-- The opcodes of R90. -/
def opcodes : List (BitVec 8) :=
  [0x10, 0x11, 0x12, 0x20, 0x21, 0x30, 0x31, 0x32, 0x33, 0x40, 0x41, 0x50, 0x60, 0x70, 0x71]

/-! ### The pattern in a payload -/

/-- The four bytes of the magic field stand at offset `i` of `p` (R52, R132). -/
abbrev MagicAt (o : ByteOrder) (p : List Byte) (i : Nat) : Prop :=
  (p.drop i).take 4 = ser32 o magic

/-- `q` is the least occurrence the splitter may cut at: any for the first chunk, one after the
cursor for a later chunk (R159). -/
def IsNextCut (o : ByteOrder) (p : List Byte) (first : Bool) (cur : Nat) : Option Nat → Prop
  | some i => MagicAt o p i ∧ (first = false → cur < i) ∧
      ∀ j, MagicAt o p j → (first = false → cur < j) → i ≤ j
  | none => ∀ j, MagicAt o p j → ¬ (first = false → cur < j)

/-! ### Flag sequences and frames -/

/-- `2* 3` (R84). -/
def closesRecord : List (CFlag) → Bool
  | [] => false
  | [f] => decide (f = 3)
  | f :: g :: fs => decide (f = 2) && closesRecord (g :: fs)

/-- `0 | 1 2* 3`, the flags of one record (R84). -/
def legalRecord : List (CFlag) → Bool
  | [] => false
  | [f] => decide (f = 0)
  | f :: g :: fs => decide (f = 1) && closesRecord (g :: fs)

/-- `1 2*`, the flags of a record that is still open, or none at all. -/
def openRecordFlags : List (CFlag) → Bool
  | [] => true
  | f :: fs => decide (f = 1) && fs.all fun g => decide (g = 2)

/-- A frame as it stands on the wire (R82); on input the pad bytes may be anything (R83). -/
structure WireFrame where
  flag : CFlag
  data : List Byte
  padding : List Byte
  deriving DecidableEq, Repr

/-- The frame's length field can carry its data, and its pad has the right length (R80, R83). -/
abbrev WireFrame.Wf (f : WireFrame) : Prop :=
  f.data.length ≤ lenMax ∧ f.padding.length = pad f.data.length

/-- The frame's bytes (R82). -/
def WireFrame.bytes (o : ByteOrder) (f : WireFrame) : List Byte :=
  ser32 o magic ++ ser32 o (headerWord f.flag f.data.length) ++ f.data ++ f.padding

/-- The bytes of frames back to back (R84). -/
def wireBytes (o : ByteOrder) (fs : List WireFrame) : List Byte := fs.flatMap (WireFrame.bytes o)

/-- The payload of frames: their data in order (R84). -/
def wireData (fs : List WireFrame) : List Byte := fs.flatMap (·.data)

/-- What a stream that delivers all it has and stands at `bytes`, where a frame should start, makes the
reader raise in state `r`; `k` is how many bytes it takes before that (R191 to R196, R200, R202, R203,
R231). -/
def FrameFault (o : ByteOrder) (r : RState) (bytes : List Byte) (k : Nat) : Cause → Prop
  | .eosMidRecord => r = .awaitingContinuation ∧ bytes = [] ∧ k = 0
  | .shortMagic => 0 < bytes.length ∧ bytes.length < 4 ∧ k = bytes.length
  | .badMagic => 4 ≤ bytes.length ∧ bytes.take 4 ≠ ser32 o magic ∧ k = 4
  | .shortHeader => ∃ h, bytes = ser32 o magic ++ h ∧ h.length < 4 ∧ k = bytes.length
  | .shortData => ∃ flag n d, n ≤ lenMax ∧ d.length < n ∧
      bytes = ser32 o magic ++ ser32 o (headerWord flag n) ++ d ∧ k = bytes.length
  | .shortPad => ∃ flag d z, d.length ≤ lenMax ∧ z.length < pad d.length ∧
      bytes = ser32 o magic ++ ser32 o (headerWord flag d.length) ++ d ++ z ∧ k = bytes.length
  | .contWithoutStart => r = .start ∧ ∃ f : WireFrame, f.Wf ∧ (f.flag = 2 ∨ f.flag = 3) ∧
      f.bytes o <+: bytes ∧ k = (f.bytes o).length
  | .startBeforeEnd => r = .awaitingContinuation ∧ ∃ f : WireFrame, f.Wf ∧
      (f.flag = 0 ∨ f.flag = 1) ∧ f.bytes o <+: bytes ∧ k = (f.bytes o).length
  | _ => False

/-! ### Stream calls of an operation -/

/-- The writes of one frame, in order (R55, R60, R171). -/
def frameWrites (o : ByteOrder) (flag : CFlag) (d : List Byte) : List (List Byte) :=
  [ser32 o magic, ser32 o (headerWord flag d.length)] ++ (if d = [] then [] else [d])
    ++ (if pad d.length = 0 then [] else [zeros (pad d.length)])

/-- The writes of WRREC for payload `p` (R175). -/
def recordWrites (c : Config) (p : List Byte) : List (List Byte) :=
  (split c p).flatMap fun x => frameWrites c.byteOrder x.cflag (x.slice p)

/-- The reads of a sound magic field and lrecord word (R191 to R193). -/
def headReads (o : ByteOrder) (flag : CFlag) (n : Nat) : List StreamEvent :=
  [.read 4 (some (ser32 o magic)), .read 4 (some (ser32 o (headerWord flag n)))]

/-- The read of a field of data or pad that is answered in full; none for an empty field (R60). -/
def fieldReads (b : List Byte) : List StreamEvent :=
  if b = [] then [] else [.read b.length (some b)]

/-- The reads of one frame, in order (R55, R60, R191 to R196). -/
def WireFrame.reads (o : ByteOrder) (f : WireFrame) : List StreamEvent :=
  headReads o f.flag f.data.length ++ fieldReads f.data ++ fieldReads f.padding

/-- The reads of frames, in order. -/
def wireReads (o : ByteOrder) (fs : List WireFrame) : List StreamEvent := fs.flatMap (·.reads o)

/-- The bytes a call brought in. -/
def StreamEvent.bytes : StreamEvent → List Byte
  | .read _ (some d) => d
  | _ => []

/-- The reads of a frame, with the answers they got, at which the reader raises `c` in state `r`; `d` is
the data it has appended to RBUF by then. Every answer R57 allows is some instance: a short one in
mid-stream, and a `fail`, at each of the four fields (R191 to R196, R200, R202, R203, R231). -/
def BadFrame (o : ByteOrder) (r : RState) (d : List Byte) (es : List StreamEvent) : Cause → Prop
  | .eosMidRecord => d = [] ∧ r = .awaitingContinuation ∧ es = [.read 4 (some [])]
  | .shortMagic => d = [] ∧ ∃ m : List Byte, 0 < m.length ∧ m.length < 4 ∧ es = [.read 4 (some m)]
  | .badMagic => d = [] ∧ ∃ m : List Byte, m.length = 4 ∧ m ≠ ser32 o magic ∧
      es = [.read 4 (some m)]
  | .shortHeader => d = [] ∧ ∃ h : List Byte, h.length < 4 ∧
      es = [.read 4 (some (ser32 o magic)), .read 4 (some h)]
  | .shortData => d = [] ∧ ∃ flag n, ∃ x : List Byte, n ≤ lenMax ∧ x.length < n ∧
      es = headReads o flag n ++ [.read n (some x)]
  | .shortPad => ∃ flag, ∃ z : List Byte, d.length ≤ lenMax ∧ z.length < pad d.length ∧
      es = headReads o flag d.length ++ fieldReads d ++ [.read (pad d.length) (some z)]
  | .contWithoutStart => r = .start ∧ ∃ f : WireFrame, f.Wf ∧ (f.flag = 2 ∨ f.flag = 3) ∧
      d = f.data ∧ es = f.reads o
  | .startBeforeEnd => r = .awaitingContinuation ∧ ∃ f : WireFrame, f.Wf ∧
      (f.flag = 0 ∨ f.flag = 1) ∧ d = f.data ∧ es = f.reads o
  | .rdFail =>
      (d = [] ∧ es = [.read 4 none]) ∨
      (d = [] ∧ es = [.read 4 (some (ser32 o magic)), .read 4 none]) ∨
      (d = [] ∧ ∃ flag n, 0 < n ∧ n ≤ lenMax ∧ es = headReads o flag n ++ [.read n none]) ∨
      (∃ flag, d.length ≤ lenMax ∧ 0 < pad d.length ∧
        es = headReads o flag d.length ++ fieldReads d ++ [.read (pad d.length) none])
  | _ => False

/-- The stream answers the reads `es`, in order, as `es` says: the state they lead to; none when it
answers otherwise. -/
def State.answering : List StreamEvent → State → Option State
  | [], s => some s
  | .read n a :: es, s =>
    match streamRead n s with
    | .ok d t => if a = some d then State.answering es t else none
    | .raised _ t => if a = none then State.answering es t else none
    | _ => none
  | .write _ _ :: _, _ => none

/-- The causes an operation can raise (R232). -/
def mayRaise : Instr → List Cause
  | .lrecEnc _ _ => [.lenRange, .flagRange]
  | .frmSize _ => [.lenRange]
  | .wrrec _ => [.wrFail]
  | .rdrec => [.badMagic, .shortMagic, .shortHeader, .shortData, .shortPad, .contWithoutStart,
      .startBeforeEnd, .eosMidRecord, .rdFail]
  | _ => []

/-! ### Repeated operations -/

/-- Run operations in order, each to a next state, collecting the responses. -/
def runAll : List Instr → State → Option (List (Option Response) × State)
  | [], s => some ([], s)
  | i :: is, s =>
    match exec i s with
    | .next t =>
      match runAll is t with
      | some (rs, u) => some (t.rsp :: rs, u)
      | none => none
    | _ => none

/-- The response SPLIT.NEXT owes for each chunk in order, given the offsets where chunks end
because an occurrence begins there (R159). -/
def chunkAnswers (occs : List Nat) : List Chunk → List (Option Response)
  | [] => []
  | c :: cs =>
    let atOcc := decide (c.off + c.len ∈ occs)
    some { st := .ok, r1 := BitVec.ofNat 64 c.off, r0 := descriptor cs.isEmpty atOcc c.cflag c.len }
      :: chunkAnswers occs cs

/-- The host loads a payload and writes it as a record, for each payload in order; every WRREC must
answer OK (R178). -/
def writeAll : List (List Byte) → State → Option State
  | [], s => some s
  | p :: ps, s =>
    match hostWrite 0 p s with
    | .next s1 =>
      match exec (.wrrec (BitVec.ofNat 64 p.length)) s1 with
      | .next s2 => if s2.rsp.map (·.st) = some .ok then writeAll ps s2 else none
      | _ => none
    | _ => none

/-- `n` RDREC operations, each answering found = 1 with the length of RBUF; the records they left in
RBUF (R178). -/
def readAll : Nat → State → Option (List (List Byte) × State)
  | 0, s => some ([], s)
  | n + 1, s =>
    match exec .rdrec s with
    | .next t =>
      if t.rsp = some { st := .ok, r1 := BitVec.ofNat 64 t.rbuf.length, r0 := 1 } then
        match readAll n t with
        | some (rs, u) => some (t.rbuf :: rs, u)
        | none => none
      else none
    | _ => none

end Sys2Proof.Machine
end

