-- ==== Sys2Proof/WellFormed.lean ====
section
/-! DEFINITION. The legal operand ranges of 30_encoding R91. Every `Instr` has an encoding; a
well-formed one has its operands in the ranges of R91's table, so that the block neither refuses it
for an operand nor raises ArgumentError for one. What the block does outside the ranges is part of
each meaning. -/

namespace Sys2Proof

/-- R91's table of legal operand ranges under a configuration, as a check. -/
def Instr.wellFormed (c : Config) : Instr → Bool
  | .lrecEnc cflag length => decide (cflag.toNat < 2 ^ flagBits) && decide (length.toNat ≤ lenMax)
  | .lrecFlag word => decide (word.toNat < 2 ^ wordBits)
  | .lrecLen word => decide (word.toNat < 2 ^ wordBits)
  | .padCalc _ => true
  | .frmSize length => decide (length.toNat ≤ lenMax)
  | .mscanCmp word => decide (word.toNat < 2 ^ wordBits)
  | .mscanClr => true
  | .mscanPush byte => decide (byte.toNat ≤ 255)
  | .mscanFind start len => decide (len.toNat ≤ c.pbufCap) && decide (start.toNat ≤ len.toNat)
  | .splitStart len => decide (len.toNat ≤ c.pbufCap)
  | .splitNext => true
  | .wrrec len => decide (len.toNat ≤ c.pbufCap)
  | .rdrec => true
  | .cntGet => true
  | .statGet => true

end Sys2Proof
end

