-- ==== Sys2Proof/Certificates/Slice0/Obligations.lean ====
section
/-! DEFINITION. What is claimed of the model, for the provers. Each statement's docstring cites the rule
of spec/ it comes from. Where a statement mentions `Config.freeRbuf` it holds for every value of it. -/

open Sys2Proof Sys2Proof.Machine

/-! ### Encoding -/

/-- Packets written out in 95_test_vectors (Programs 1 to 3) and built from R88 and R90 decode to
the operations they stand for, one or more of every unit; `op` = 0x13 is reserved (R92). -/
def Obligations.SpecPacketsDecode : Prop :=
  decode 0x1000000000000000020000000000000001#136 = .ok (.lrecEnc 1 2) ∧
  decode 0x1100000000000000000000000040000002#136 = .ok (.lrecFlag 0x40000002) ∧
  decode 0x2100000000000000000000000000000002#136 = .ok (.frmSize 2) ∧
  decode 0x300000000000000000000000003ed7230a#136 = .ok (.mscanCmp 0x3ed7230a) ∧
  decode 0x330000000000000012000000000000000f#136 = .ok (.mscanFind 15 18) ∧
  decode 0x4000000000000000000000000000000012#136 = .ok (.splitStart 18) ∧
  decode 0x5000000000000000000000000000000009#136 = .ok (.wrrec 9) ∧
  decode 0x6000000000000000000000000000000000#136 = .ok .rdrec ∧
  decode 0x7100000000000000000000000000000000#136 = .ok .statGet ∧
  decode 0x1300000000000000000000000000000000#136 = .error (.reservedOpcode 0x13)

/-- R90: the opcode map, for every value of both operand fields; every other `op` is reserved
(R92). -/
def Obligations.OpcodeMapDecodes : Prop :=
  ∀ a0 a1 : Word,
    decode (mkPacket 0x10 a1 a0) = .ok (.lrecEnc a0 a1) ∧
    decode (mkPacket 0x11 a1 a0) = .ok (.lrecFlag a0) ∧
    decode (mkPacket 0x12 a1 a0) = .ok (.lrecLen a0) ∧
    decode (mkPacket 0x20 a1 a0) = .ok (.padCalc a0) ∧
    decode (mkPacket 0x21 a1 a0) = .ok (.frmSize a0) ∧
    decode (mkPacket 0x30 a1 a0) = .ok (.mscanCmp a0) ∧
    decode (mkPacket 0x31 a1 a0) = .ok .mscanClr ∧
    decode (mkPacket 0x32 a1 a0) = .ok (.mscanPush a0) ∧
    decode (mkPacket 0x33 a1 a0) = .ok (.mscanFind a0 a1) ∧
    decode (mkPacket 0x40 a1 a0) = .ok (.splitStart a0) ∧
    decode (mkPacket 0x41 a1 a0) = .ok .splitNext ∧
    decode (mkPacket 0x50 a1 a0) = .ok (.wrrec a0) ∧
    decode (mkPacket 0x60 a1 a0) = .ok .rdrec ∧
    decode (mkPacket 0x70 a1 a0) = .ok .cntGet ∧
    decode (mkPacket 0x71 a1 a0) = .ok .statGet ∧
    ∀ op, op ∉ opcodes → decode (mkPacket op a1 a0) = .error (.reservedOpcode op)

/-- Decoding an encoded operation gives it back, every operand at every value (R88, R90). -/
def Obligations.DecodeEncodeRoundTrip : Prop := ∀ i : Instr, decode (encode i) = .ok i

/-- R88: op in [135:128], a1 in [127:64], a0 in [63:0]; an operand field an operation does not use
is ignored, whatever it holds. -/
def Obligations.PacketLayoutAndIgnoredFields : Prop :=
  (∀ p : Packet, p.toNat = p.op.toNat * 2 ^ 128 + p.a1.toNat * 2 ^ 64 + p.a0.toNat) ∧
  ∀ (p q : Packet) (i : Instr), decode p = .ok i → q.op = p.op →
    (i.arg0 ≠ none → q.a0 = p.a0) → (i.arg1 ≠ none → q.a1 = p.a1) → decode q = .ok i

/-- R89: st in [131:128], r1 in [127:64], r0 in [63:0]; the status codes are 0, 1, 2, 3 and 15. -/
def Obligations.ResponsePacketLayout : Prop :=
  ∀ r : Response,
    r.packet.toNat = (match r.st with
      | .ok => 0 | .argumentError => 1 | .corruption => 2 | .ioError => 3 | .refused => 15)
      * 2 ^ 128 + r.r1.toNat * 2 ^ 64 + r.r0.toNat

/-! ### The command port -/

/-- A step runs the decoded operation: the host's oldest move is taken off its list and exec runs
(R62, R87). -/
def Obligations.StepRunsDecodedCommand : Prop :=
  ∀ (s : State) (p : Packet) (rest : List HostAction) (i : Instr),
    s.inbox = .command p :: rest → decode p = .ok i → step s = exec i (s.withInbox rest)

/-- With no pending move the block idles (R62; the model's host interface, log 1). -/
def Obligations.IdleBlockWaits : Prop := ∀ s : State, s.inbox = [] → step s = .next s

/-- R92: a reserved opcode is refused; no state changes but the port's. -/
def Obligations.ReservedOpcodeRefused : Prop :=
  ∀ (s : State) (p : Packet) (rest : List HostAction),
    s.inbox = .command p :: rest → p.op ∉ opcodes →
      step s = .next { s with inbox := rest, rsp := some { st := .refused, r1 := 0, r0 := 0 } }

/-- R237: while FAULT is set every operation except CNT.GET and STAT.GET is refused with no state
change. -/
def Obligations.FaultedBlockRefuses : Prop :=
  ∀ (i : Instr) (s : State), s.fault ≠ .none → i ≠ .cntGet → i ≠ .statGet →
    exec i s = .next { s with rsp := some { st := .refused, r1 := 0, r0 := 0 } }

/-! ### LREC -/

/-- R110. After a fault RBUF holds anything (R238). -/
def Obligations.LrecEncPacks : Prop :=
  ∀ (s : State) (cflag length : Word), s.fault = .none → ∃ b : List Byte,
    exec (.lrecEnc cflag length) s =
      if 2 ^ 30 ≤ length.toNat then
        .next ({ s with
          fault := .argumentError, cause := .lenRange
          rbuf := b, freeCtr := s.freeCtr + 1 }.respond .argumentError 0 0)
      else if 4 ≤ cflag.toNat then
        .next ({ s with
          fault := .argumentError, cause := .flagRange
          rbuf := b, freeCtr := s.freeCtr + 1 }.respond .argumentError 0 0)
      else .next (s.respond .ok (BitVec.ofNat 64 (cflag.toNat * 2 ^ 30 + length.toNat)) 0)

/-- R111. -/
def Obligations.LrecFlagExtracts : Prop :=
  ∀ (s : State) (word : Word), s.fault = .none →
    exec (.lrecFlag word) s =
      if word.toNat < 2 ^ 32 then .next (s.respond .ok (BitVec.ofNat 64 (word.toNat / 2 ^ 30)) 0)
      else .next (s.respond .refused 0 0)

/-- R112. -/
def Obligations.LrecLenExtracts : Prop :=
  ∀ (s : State) (word : Word), s.fault = .none →
    exec (.lrecLen word) s =
      if word.toNat < 2 ^ 32 then .next (s.respond .ok (BitVec.ofNat 64 (word.toNat % 2 ^ 30)) 0)
      else .next (s.respond .refused 0 0)

/-- R113, with the value of R115. -/
def Obligations.LrecordCodecBijection : Prop :=
  (∀ (c : CFlag) (n : LenField), (lrecEncode c n).toNat = c.toNat * 2 ^ 30 + n.toNat ∧
    lrecFlagOf (lrecEncode c n) = c ∧ lrecLenOf (lrecEncode c n) = n) ∧
  ∀ w : Word32, lrecEncode (lrecFlagOf w) (lrecLenOf w) = w

/-! ### ALIGN -/

/-- R120. -/
def Obligations.PadCalcAnswers : Prop :=
  ∀ (s : State) (length : Word), s.fault = .none →
    exec (.padCalc length) s =
      .next (s.respond .ok (BitVec.ofNat 64 ((4 - length.toNat % 4) % 4)) 0)

/-- R121. After a fault RBUF holds anything (R238). -/
def Obligations.FrmSizeAnswers : Prop :=
  ∀ (s : State) (length : Word), s.fault = .none → ∃ b : List Byte,
    exec (.frmSize length) s =
      if length.toNat < 2 ^ 30 then
        .next (s.respond .ok (BitVec.ofNat 64 (8 + length.toNat + (4 - length.toNat % 4) % 4))
          (BitVec.ofNat 64 ((4 - length.toNat % 4) % 4)))
      else
        .next ({ s with
          fault := .argumentError, cause := .lenRange
          rbuf := b, freeCtr := s.freeCtr + 1 }.respond .argumentError 0 0)

/-- R122. -/
def Obligations.PadIsLeastFiller : Prop :=
  ∀ n : Nat, pad n ≤ 3 ∧ (n + pad n) % 4 = 0 ∧ (∀ k, (n + k) % 4 = 0 → pad n ≤ k) ∧
    frameSize n % 4 = 0 ∧ frameSize n = 8 + 4 * ((n + 3) / 4) ∧
    BitVec.ofNat 2 (pad n) = ~~~ (BitVec.ofNat 2 n) + 1

/-! ### MSCAN -/

/-- R135, on this little-endian hardware: hit when the window word is MAGIC; one mask bit per lane. -/
def Obligations.MscanCmpMatchesLanes : Prop :=
  ∀ (s : State) (word : Word), s.fault = .none → s.cfg.byteOrder = .little →
    exec (.mscanCmp word) s =
      if word.toNat < 2 ^ 32 then
        .next (s.respond .ok (if word = 0x3ed7230a then 1 else 0)
          ((if word.extractLsb' 0 8 = 0x0a#8 then 1 else 0)
            + (if word.extractLsb' 8 8 = 0x23#8 then 2 else 0)
            + (if word.extractLsb' 16 8 = 0xd7#8 then 4 else 0)
            + (if word.extractLsb' 24 8 = 0x3e#8 then 8 else 0)))
      else .next (s.respond .refused 0 0)

/-- R136. -/
def Obligations.MscanClrEmptiesWindow : Prop :=
  ∀ s : State, s.fault = .none →
    exec .mscanClr s = .next ({ s with wcnt := 0, spos := 0 }.respond .ok 0 0)

/-- R137: the hit is judged on the window before the byte; the offset `off` is SPOS after the increment
less 4, and anything where that is below 0 (then a free value is drawn; log 29). -/
def Obligations.MscanPushShiftsWindow : Prop :=
  ∀ (s : State) (byte : Word), s.fault = .none →
    (256 ≤ byte.toNat → exec (.mscanPush byte) s = .next (s.respond .refused 0 0)) ∧
    (byte.toNat < 256 → ∀ (spos : Word) (hit : Bool),
      spos = BitVec.ofNat 64 ((s.spos.toNat + 1) % 2 ^ s.cfg.lw) →
      (hit = true ↔ s.wcnt = 3 ∧ [s.win0, s.win1, s.win2, BitVec.ofNat 8 byte.toNat]
        = ser32 s.cfg.byteOrder magic) →
      ∃ off : Word, (4 ≤ spos.toNat → off = spos - 4) ∧
        exec (.mscanPush byte) s = .next
          ({ s with
              win0 := s.win1, win1 := s.win2, win2 := BitVec.ofNat 8 byte.toNat
              wcnt := BitVec.ofNat 2 (min 3 (s.wcnt.toNat + 1)), spos := spos
              freeCtr := if hit = true ∧ spos.toNat < 4 then s.freeCtr + 1 else s.freeCtr }.respond .ok
            (if hit then 1 else 0) (if hit then off else 0)))

/-- R138: refused for an L above PBUF_CAP or a start above L; else the least occurrence at or after
`start`, or L when there is none. -/
def Obligations.MscanFindFirstOccurrence : Prop :=
  ∀ (s : State) (start len : Word), s.fault = .none →
    (s.cfg.pbufCap < len.toNat ∨ len.toNat < start.toNat →
      exec (.mscanFind start len) s = .next (s.respond .refused 0 0)) ∧
    ∀ p : List Byte, len.toNat ≤ s.cfg.pbufCap → start.toNat ≤ len.toNat →
      p.length = len.toNat → s.PayloadIs p →
      (∀ i, start.toNat ≤ i → MagicAt s.cfg.byteOrder p i →
        (∀ j, start.toNat ≤ j → MagicAt s.cfg.byteOrder p j → i ≤ j) →
        exec (.mscanFind start len) s = .next (s.respond .ok 1 (BitVec.ofNat 64 i))) ∧
      ((∀ i, start.toNat ≤ i → ¬ MagicAt s.cfg.byteOrder p i) →
        exec (.mscanFind start len) s = .next (s.respond .ok 0 len))

/-- R132: occ lists every occurrence, each once, in increasing order (R134). -/
def Obligations.OccListsEveryOccurrence : Prop :=
  ∀ (o : ByteOrder) (p : List Byte), (occ o p).Pairwise (· < ·) ∧
    ∀ i, i ∈ occ o p ↔ i + 4 ≤ p.length ∧ MagicAt o p i

/-- R133: occurrences never overlap, and there are at most L / 4 of them. -/
def Obligations.OccurrencesNeverOverlap : Prop :=
  ∀ (o : ByteOrder) (p : List Byte), (occ o p).Pairwise (fun i j => i + 4 ≤ j) ∧
    (occ o p).length ≤ p.length / 4

/-- R139: after MSCAN.CLR, pushing the bytes of `p` hits exactly where an occurrence is completed,
and each hit reports its offset. A payload length has LW bits (R7). -/
def Obligations.StreamingScanAgreesWithOcc : Prop :=
  ∀ (s : State) (p : List Byte), s.fault = .none → s.cfg.lw ≤ 64 → p.length ≤ s.cfg.lwMax →
    ∃ t, runAll (.mscanClr :: p.map fun b => .mscanPush (b.setWidth 64)) s =
      some (some { st := .ok, r1 := 0, r0 := 0 } ::
        (List.range p.length).map (fun k =>
          if 3 ≤ k ∧ MagicAt s.cfg.byteOrder p (k - 3) then
            some { st := .ok, r1 := BitVec.ofNat 64 (k - 3), r0 := 1 }
          else some { st := .ok, r1 := 0, r0 := 0 }), t)

/-! ### SPLIT -/

/-- R158. R31 names SPLIT.START among the operations before which PBUF[0..L) must have been written, and
puts a range with an unwritten cell outside the spec; that SPLIT.START completes there too, and only
SPLIT.NEXT stops, is the model's choice (DESIGN CHOICE, log 28). -/
def Obligations.SplitStartOpens : Prop :=
  ∀ (s : State) (len : Word), s.fault = .none →
    exec (.splitStart len) s =
      if len.toNat ≤ s.cfg.pbufCap then
        .next ({ s with spLen := len, spCur := 0, spFirst := true, spActive := true }.respond .ok 0 0)
      else .next (s.respond .refused 0 0)

/-- R159: with no open iteration valid = 0, status OK and nothing changes; in an open iteration over
`p`, `q` is where the next occurrence begins and `e` where the chunk ends. -/
def Obligations.SplitNextDeliversChunk : Prop :=
  ∀ s : State, s.fault = .none →
    (s.spActive = false → exec .splitNext s = .next (s.respond .ok 0 0)) ∧
    ∀ (p : List Byte) (q : Option Nat) (e : Nat),
      s.spActive = true → s.cfg.ChunkLimitOk →
      p.length = s.spLen.toNat → s.PayloadIs p → s.spCur.toNat ≤ s.spLen.toNat →
      IsNextCut s.cfg.byteOrder p s.spFirst s.spCur.toNat q →
      e = (q.getD s.spLen.toNat ⊓ (s.spCur.toNat + s.cfg.chunkLimit)) ⊓ s.spLen.toNat →
      exec .splitNext s = .next
        ({ s with
            exceptCnt := if q = some e then BitVec.ofNat 64 ((s.exceptCnt.toNat + 1) % 2 ^ s.cfg.cw)
              else s.exceptCnt
            spCur := BitVec.ofNat 64 e, spFirst := false
            spActive := decide (e ≠ s.spLen.toNat) }.respond .ok
          (BitVec.ofNat 64
            ((if s.spFirst then (if e = s.spLen.toNat then 0 else 1)
                else (if e = s.spLen.toNat then 3 else 2)) * 2 ^ 30 + (e - s.spCur.toNat)
              + 2 ^ 32 * pad (e - s.spCur.toNat) + 2 ^ 34
              + (if q = some e then 2 ^ 35 else 0) + (if e = s.spLen.toNat then 2 ^ 36 else 0)))
          s.spCur)

/-- R150, R152, R153: the chunks partition the payload, in order; none is longer than CHUNK_LIMIT, none
but the first is empty; there are at least m + 1 of them, and m + 1 exactly when no span is too
long. -/
def Obligations.SplitPartitionsPayload : Prop :=
  ∀ (c : Config) (p : List Byte), c.ChunkLimitOk →
    (split c p).flatMap (fun x => x.slice p) = p ∧
    (split c p).head?.map (·.off) = some 0 ∧
    (split c p).IsChain (fun x y => y.off = x.off + x.len) ∧
    (split c p).getLast?.map (fun x => x.off + x.len) = some p.length ∧
    (∀ x ∈ split c p, x.len ≤ c.chunkLimit) ∧ (∀ x ∈ (split c p).tail, 0 < x.len) ∧
    (occ c.byteOrder p).length + 1 ≤ (split c p).length ∧
    ((split c p).length = (occ c.byteOrder p).length + 1 ↔
      ∀ x ∈ spans 0 (occ c.byteOrder p) p.length, x.2 - x.1 ≤ c.chunkLimit)

/-- R154: the flags of one record spell `0` or `1 2* 3` (R84), by position; `cflag_of` as a function
of two bits. -/
def Obligations.SplitFlagsSpellOneRecord : Prop :=
  (∀ (c : Config) (p : List Byte), legalRecord ((split c p).map (·.cflag)) = true) ∧
  ∀ first last : Bool, (cflagOf first last).getLsbD 1 = !first ∧
    (cflagOf first last).getLsbD 0 = xor first last

/-- R156: where the pattern can stand inside a chunk. -/
def Obligations.PatternOnlyAtChunkStart : Prop :=
  ∀ (c : Config) (p : List Byte), c.ChunkLimitOk →
    (∀ x ∈ split c p, ∀ d,
      MagicAt c.byteOrder (x.slice p) d ↔ d = 0 ∧ x.off ∈ occ c.byteOrder p ∧ 4 ≤ x.len) ∧
    (4 ≤ c.chunkLimit → ∀ i ∈ occ c.byteOrder p,
      ∃ x ∈ split c p, x.off = i ∧ 4 ≤ x.len ∧ (x.cflag = 2 ∨ x.cflag = 3))

/-- R160: SPLIT.START and then SPLIT.NEXT as often as there are chunks deliver the chunks of
`split`, add m to EXCEPT_CNT (a CW-bit count, R24), and close the iteration. -/
def Obligations.IterationEqualsSplit : Prop :=
  ∀ (s : State) (len : Word) (p : List Byte), s.fault = .none → s.cfg.ChunkLimitOk →
    s.exceptCnt.toNat < 2 ^ s.cfg.cw →
    len.toNat ≤ s.cfg.pbufCap → p.length = len.toNat → s.PayloadIs p →
    ∃ t, runAll (.splitStart len :: List.replicate (split s.cfg p).length .splitNext) s =
        some (some { st := .ok, r1 := 0, r0 := 0 } ::
          chunkAnswers (occ s.cfg.byteOrder p) (split s.cfg p), t) ∧
      t.spActive = false ∧ t.fault = .none ∧
      t.exceptCnt = BitVec.ofNat 64
        ((s.exceptCnt.toNat + (occ s.cfg.byteOrder p).length) % 2 ^ s.cfg.cw)

/-! ### The emitter -/

/-- R175, R176: with every write answering ok, WRREC appends `encode_record(P)`, one stream write
per field, and counts the occurrences; nothing else changes. -/
def Obligations.WrrecWritesRecord : Prop :=
  ∀ (s : State) (len : Word) (p : List Byte), s.fault = .none → s.cfg.ChunkLimitOk →
    len.toNat ≤ s.cfg.pbufCap → p.length = len.toNat → s.PayloadIs p → s.WritesOk →
    s.wpos + (encodeRecord s.cfg p).length ≤ s.cfg.lwMax →
    exec (.wrrec len) s = .next
      ({ s with
          exceptCnt := BitVec.ofNat 64
            ((s.exceptCnt.toNat + (occ s.cfg.byteOrder p).length) % 2 ^ s.cfg.cw)
          ostream := s.ostream ++ encodeRecord s.cfg p
          wpos := s.wpos + (encodeRecord s.cfg p).length
          history := s.history ++ (recordWrites s.cfg p).map (fun b => StreamEvent.write b true)
          oracle := { s.oracle with
            writes := s.oracle.writes.drop (recordWrites s.cfg p).length } }.respond .ok
        (BitVec.ofNat 64 (split s.cfg p).length) (BitVec.ofNat 64 (encodeRecord s.cfg p).length))

/-- R56, R175, R236: the first failing write ends WRREC with IOError(WR_FAIL); what the earlier
writes appended stays, of the failing one some proper prefix, and EXCEPT_CNT keeps m. RBUF then holds
anything (R238). -/
def Obligations.WrrecStopsAtFailedWrite : Prop :=
  ∀ (s : State) (len : Word) (p : List Byte) (n k : Nat) (as : List WriteAnswer) (b : List Byte),
    s.fault = .none → s.cfg.ChunkLimitOk → len.toNat ≤ s.cfg.pbufCap → p.length = len.toNat →
    s.PayloadIs p → s.wpos + (encodeRecord s.cfg p).length ≤ s.cfg.lwMax →
    s.oracle.writes = List.replicate n .ok ++ .fail k :: as → (recordWrites s.cfg p)[n]? = some b →
    ∃ left : List Byte, exec (.wrrec len) s = .next
      ({ s with
          fault := .ioError, cause := .wrFail
          exceptCnt := BitVec.ofNat 64
            ((s.exceptCnt.toNat + (occ s.cfg.byteOrder p).length) % 2 ^ s.cfg.cw)
          ostream := s.ostream ++ ((recordWrites s.cfg p).take n).flatten ++ b.take (k ⊓ (b.length - 1))
          wpos := s.wpos + ((recordWrites s.cfg p).take n).flatten.length + k ⊓ (b.length - 1)
          history := s.history ++ ((recordWrites s.cfg p).take n).map (fun b => StreamEvent.write b true)
            ++ [StreamEvent.write b false]
          oracle := { s.oracle with writes := as }
          rbuf := left, freeCtr := s.freeCtr + 1 }.respond .ioError 0 0)

/-- R161, R176: the size of a written record. -/
def Obligations.RecordSize : Prop :=
  ∀ (c : Config) (p : List Byte), c.ChunkLimitOk →
    (encodeRecord c p).length = ((split c p).map fun x => frameSize x.len).sum ∧
    (encodeRecord c p).length % 4 = 0 ∧
    (occ c.byteOrder p = [] → p.length ≤ c.chunkLimit →
      (encodeRecord c p).length = 8 + p.length + (4 - p.length % 4) % 4)

/-- R31, U9: MSCAN.FIND, SPLIT.NEXT and WRREC stop when the payload's range covers a cell nothing
has written. -/
def Obligations.UnwrittenPayloadStops : Prop :=
  ∀ (s : State) (start len : Word) (k : Nat), s.fault = .none → s.cfg.ChunkLimitOk →
    s.pbuf.read k = none →
    (k < len.toNat → len.toNat ≤ s.cfg.pbufCap → start.toNat ≤ len.toNat →
      exec (.mscanFind start len) s = .fault .pbufUnwritten) ∧
    (k < len.toNat → len.toNat ≤ s.cfg.pbufCap → exec (.wrrec len) s = .fault .pbufUnwritten) ∧
    (k < s.spLen.toNat → s.spActive = true → exec .splitNext s = .fault .pbufUnwritten)

/-- R91, R93, R234: an operand outside its range is answered with ArgumentError (LREC.ENC, the length
judged first, and FRM.SIZE) or refused (the others); inside its range with neither. After an
ArgumentError RBUF holds anything (R238). -/
def Obligations.OperandRanges : Prop :=
  ∀ (i : Instr) (s : State), s.fault = .none →
    (i.wellFormed s.cfg = false → ∃ b : List Byte, exec i s = .next (match i with
      | .lrecEnc _ length =>
        State.respond { s with
          fault := .argumentError
          cause := if length.toNat < 2 ^ 30 then .flagRange else .lenRange
          rbuf := b, freeCtr := s.freeCtr + 1 } .argumentError 0 0
      | .frmSize _ =>
        State.respond { s with
          fault := .argumentError, cause := .lenRange
          rbuf := b, freeCtr := s.freeCtr + 1 } .argumentError 0 0
      | _ => s.respond .refused 0 0)) ∧
    (i.wellFormed s.cfg = true → ∀ (t : State) (r : Response), exec i s = .next t → t.rsp = some r →
      r.st ≠ .refused ∧ r.st ≠ .argumentError)

/-! ### The deframer -/

/-- R198 to R201, R82 to R85, R196: a legal run of frames is read as one record whose payload is the
data of the frames; the pad bytes may be anything. Four reads per frame, empty ones left out. -/
def Obligations.RdrecReadsLegalFrames : Prop :=
  ∀ (s : State) (fs : List WireFrame) (rest : List Byte), s.fault = .none → s.eos = false →
    s.ReadsFull → (∀ f ∈ fs, f.Wf) → legalRecord (fs.map (·.flag)) = true →
    s.istream.drop s.rpos = wireBytes s.cfg.byteOrder fs ++ rest →
    (wireData fs).length ≤ s.cfg.rbufCap →
    exec .rdrec s = .next
      ({ s with
          rstate := .done, rbuf := wireData fs
          rpos := s.rpos + (wireBytes s.cfg.byteOrder fs).length
          history := s.history ++ wireReads s.cfg.byteOrder fs
          oracle := { s.oracle with
            reads := s.oracle.reads.drop (wireReads s.cfg.byteOrder fs).length } }.respond .ok 1
        (BitVec.ofNat 64 (wireData fs).length))

/-- R191, R233: no byte at the magic field of a record's first frame is a clean end of stream. -/
def Obligations.RdrecCleanEnd : Prop :=
  ∀ s : State, s.fault = .none → s.eos = false → s.ReadsFull → s.supply = [] →
    s.istream.length ≤ s.rpos →
    exec .rdrec s = .next
      ({ s with
          eos := true, rstate := .start, rbuf := []
          history := s.history ++ [StreamEvent.read 4 (some [])]
          oracle := { s.oracle with reads := s.oracle.reads.tail } }.respond .ok 0 0)

/-- R205: once EOS = 1 every RDREC answers found = 0 without a read. -/
def Obligations.RdrecAfterEndIsIdempotent : Prop :=
  ∀ s : State, s.fault = .none → s.eos = true → exec .rdrec s = .next (s.respond .ok 0 0)

/-- R191 to R196, R200, R202, R203, R231, R236: after the frames `1 2*` of an open record, or none, what
stands at the next frame's place is answered with Corruption and its cause. The reader takes `k` bytes
of it, in the reads `es`, and makes no other. RBUF holds anything (U5), RPOS is left anywhere from the
start of the frame at fault to where it was reached (U6). A stream can end short only if it ends. -/
def Obligations.RdrecRaisesCorruption : Prop :=
  ∀ (s : State) (fs : List WireFrame) (rest : List Byte) (c : Cause) (k : Nat), s.fault = .none →
    s.eos = false → s.ReadsFull → (∀ f ∈ fs, f.Wf) → openRecordFlags (fs.map (·.flag)) = true →
    s.istream.drop s.rpos = wireBytes s.cfg.byteOrder fs ++ rest →
    (s.supply ≠ [] → c = .badMagic ∨ c = .contWithoutStart ∨ c = .startBeforeEnd) →
    (wireData fs).length + (k - 8) ≤ s.cfg.rbufCap →
    FrameFault s.cfg.byteOrder (if fs = [] then .start else .awaitingContinuation) rest k c →
    ∃ (b d : List Byte) (n : Nat) (es : List StreamEvent),
      s.rpos + (wireBytes s.cfg.byteOrder fs).length ≤ n ∧
      n ≤ s.rpos + (wireBytes s.cfg.byteOrder fs).length + k ∧
      BadFrame s.cfg.byteOrder (if fs = [] then .start else .awaitingContinuation) d es c ∧
      es.flatMap (·.bytes) = rest.take k ∧
      exec .rdrec s = .next
        ({ s with
            fault := .corruption, cause := c
            rstate := if fs = [] then .start else .awaitingContinuation
            rbuf := b, rpos := n, history := s.history ++ (wireReads s.cfg.byteOrder fs ++ es)
            oracle := { s.oracle with
              reads := s.oracle.reads.drop (wireReads s.cfg.byteOrder fs ++ es).length
              rpos := s.oracle.rpos.tail }
            freeCtr := s.freeCtr + 1 }.respond .corruption 0 0)

/-- R57, R58, R191 to R196, R200, R202, R231, R236, under every answer of the stream: after the frames
`1 2*` of an open record, or none, a frame whose reads `es` are answered as `BadFrame` says (a short
answer at any of the four fields, wherever the stream stands, among them) is answered with Corruption and
its cause, and never read on. RBUF and RPOS are left open as in RdrecRaisesCorruption. -/
def Obligations.RdrecRaisesUnderAnyAnswers : Prop :=
  ∀ (s u : State) (fs : List WireFrame) (d : List Byte) (es : List StreamEvent) (c : Cause),
    s.fault = .none → s.eos = false → (∀ f ∈ fs, f.Wf) →
    openRecordFlags (fs.map (·.flag)) = true → c.kind = .corruption →
    BadFrame s.cfg.byteOrder (if fs = [] then .start else .awaitingContinuation) d es c →
    s.answering (wireReads s.cfg.byteOrder fs ++ es) = some u →
    (wireData fs ++ d).length ≤ s.cfg.rbufCap →
    ∃ (b : List Byte) (n : Nat),
      s.rpos + (wireBytes s.cfg.byteOrder fs).length ≤ n ∧ n ≤ u.rpos ∧
      exec .rdrec s = .next
        ({ s with
            fault := .corruption, cause := c
            rstate := if fs = [] then .start else .awaitingContinuation
            istream := u.istream, rbuf := b, rpos := n
            history := s.history ++ (wireReads s.cfg.byteOrder fs ++ es)
            oracle := { s.oracle with
              reads := s.oracle.reads.drop (wireReads s.cfg.byteOrder fs ++ es).length
              rpos := s.oracle.rpos.tail }
            freeCtr := s.freeCtr + 1 }.respond .corruption 0 0)

/-- R57, R191, R193, R194, R196, R236: a `StreamRead` that answers `fail` at the magic field, the lrecord
word, the data or the pad of a frame, the first or a later one of its record, ends RDREC with
IOError(RD_FAIL). RBUF and RPOS are left open as in RdrecRaisesCorruption; that RPOS lies at most where
the failing call began, which consumes nothing, is the model's choice (DESIGN CHOICE, log 30). -/
def Obligations.RdrecReadFailure : Prop :=
  ∀ (s u : State) (fs : List WireFrame) (d : List Byte) (es : List StreamEvent),
    s.fault = .none → s.eos = false → (∀ f ∈ fs, f.Wf) →
    openRecordFlags (fs.map (·.flag)) = true →
    BadFrame s.cfg.byteOrder (if fs = [] then .start else .awaitingContinuation) d es .rdFail →
    s.answering (wireReads s.cfg.byteOrder fs ++ es) = some u →
    (wireData fs ++ d).length ≤ s.cfg.rbufCap →
    ∃ (b : List Byte) (n : Nat),
      s.rpos + (wireBytes s.cfg.byteOrder fs).length ≤ n ∧ n ≤ u.rpos ∧
      exec .rdrec s = .next
        ({ s with
            fault := .ioError, cause := .rdFail
            rstate := if fs = [] then .start else .awaitingContinuation
            istream := u.istream, rbuf := b, rpos := n
            history := s.history ++ (wireReads s.cfg.byteOrder fs ++ es)
            oracle := { s.oracle with
              reads := s.oracle.reads.drop (wireReads s.cfg.byteOrder fs ++ es).length
              rpos := s.oracle.rpos.tail }
            freeCtr := s.freeCtr + 1 }.respond .ioError 0 0)

/-- R204, under every answer the input stream may give: a record RDREC delivers is the data of a
legal run of frames that stood at RPOS, never a part of one. -/
def Obligations.RdrecNeverDeliversPartialRecord : Prop :=
  ∀ (s t : State) (n : Word), s.fault = .none → exec .rdrec s = .next t →
    t.rsp = some { st := .ok, r1 := n, r0 := 1 } →
    ∃ fs : List WireFrame, (∀ f ∈ fs, f.Wf) ∧ legalRecord (fs.map (·.flag)) = true ∧
      (∃ m, t.istream = s.istream ++ handed s.supply m) ∧
      t.rpos = s.rpos + (wireBytes s.cfg.byteOrder fs).length ∧
      t.istream.drop s.rpos = wireBytes s.cfg.byteOrder fs ++ t.istream.drop t.rpos ∧
      t.rbuf = wireData fs ∧ n = BitVec.ofNat 64 t.rbuf.length ∧ t.rstate = .done

/-- R206: on a finite input stream (R58's deterministic form; that the model's streams are finite or
periodic is its own choice, log 8) RDREC ends, whatever the input holds, when every stream call returns.
A stream that never ends is RdrecRunsForEver's. -/
def Obligations.RdrecTerminates : Prop :=
  ∀ s : State, s.supply = [] → ReadAnswer.never ∉ s.oracle.reads →
    s.istream.length ≤ s.cfg.rbufCap → ∃ t, exec .rdrec s = .next t

/-- R206: on a stream that goes on for ever with frames of cflag 2 after the frames `1 2*` of an open
record, RDREC never answers; with no data in them it is the hang, with data it may outgrow RBUF first.
That such a stream repeats itself is the model's form of it (log 8). -/
def Obligations.RdrecRunsForEver : Prop :=
  ∀ (s : State) (fs gs : List WireFrame), s.fault = .none → s.eos = false → s.ReadsFull →
    fs ≠ [] → (∀ f ∈ fs, f.Wf) → openRecordFlags (fs.map (·.flag)) = true →
    gs ≠ [] → (∀ g ∈ gs, g.Wf ∧ g.flag = 2) →
    s.istream.drop s.rpos = wireBytes s.cfg.byteOrder fs →
    s.supply = wireBytes s.cfg.byteOrder gs →
    (∀ t, exec .rdrec s ≠ .next t) ∧
    ((wireData fs).length ≤ s.cfg.rbufCap → wireData gs = [] →
      exec .rdrec s = .fault .readerNeverEnds)

/-- R178: payloads written as records are read back unchanged, in order, and then the stream is at
its end. In force (R277): the deterministic input stream (R58), parameters as R7 constrains them, RBUF
with room for each payload. -/
def Obligations.WrittenRecordsReadBack : Prop :=
  ∀ (s t : State) (ps : List (List Byte)), s.cfg.Wf → s.ostream = [] → s.eos = false →
    s.fault = .none → s.ReadsFull → (∀ p ∈ ps, p.length ≤ s.cfg.rbufCap) →
    writeAll ps s = some t →
    ∃ u v, readAll ps.length (t.setIn t.ostream []) = some (ps, u) ∧ exec .rdrec u = .next v ∧
      v.rsp = some { st := .ok, r1 := 0, r0 := 0 } ∧ v.rbuf = [] ∧ v.eos = true

/-! ### System operations, status, faults -/

/-- R220, R237: CNT.GET answers EXCEPT_CNT in every state. -/
def Obligations.CntGetAnswers : Prop :=
  ∀ s : State, exec .cntGet s = .next (s.respond .ok s.exceptCnt 0)

/-- R221, R237: STAT.GET answers STATUS in every state; its fields and reserved bits are R25's. -/
def Obligations.StatGetAnswersStatus : Prop :=
  ∀ s : State, ∃ w : Word, exec .statGet s = .next (s.respond .ok w 0) ∧
    w.extractLsb' 0 2 = s.fault.code ∧ w.extractLsb' 2 2 = 0 ∧ w.extractLsb' 4 4 = s.cause.code ∧
    w.getLsbD 8 = s.eos ∧ w.extractLsb' 9 2 = s.rstate.code ∧ w.getLsbD 11 = s.spActive ∧
    w.getLsbD 12 = s.spFirst ∧ w.extractLsb' 13 2 = s.wcnt ∧ w.extractLsb' 15 49 = 0

/-- R25, R28, R230, R231: the codes of the STATUS fields; every cause belongs to one kind. -/
def Obligations.StatusCodes : Prop :=
  ([FaultKind.none, .argumentError, .corruption, .ioError].map (·.code.toNat) = [0, 1, 2, 3]) ∧
  ([Cause.none, .lenRange, .flagRange, .badMagic, .shortMagic, .shortHeader, .shortData, .shortPad,
      .contWithoutStart, .startBeforeEnd, .eosMidRecord, .wrFail, .rdFail].map
      (fun c => (c.code.toNat, c.kind.code.toNat)) =
    [(0, 0), (1, 1), (2, 1), (3, 2), (4, 2), (5, 2), (6, 2), (7, 2), (8, 2), (9, 2), (10, 2),
      (11, 3), (12, 3)]) ∧
  ([RState.start, .awaitingContinuation, .done].map (·.code.toNat) = [0, 1, 2])

/-- R26, R240: once FAULT is set nothing but the reset signal changes FAULT or CAUSE. -/
def Obligations.FaultIsSticky : Prop :=
  ∀ (s t : State), s.fault ≠ .none → s.inbox.head? ≠ some .reset → step s = .next t →
    t.fault = s.fault ∧ t.cause = s.cause

/-- R232: which operation can raise what. -/
def Obligations.OnlyListedFaultsRaised : Prop :=
  ∀ (i : Instr) (s t : State), s.fault = .none → exec i s = .next t → t.fault ≠ .none →
    t.cause ∈ mayRaise i ∧
    t.fault = t.cause.kind ∧ t.rsp = some { st := t.fault.status, r1 := 0, r0 := 0 }

/-! ### Reset and the host's directives -/

/-- R41: what reset leaves, as far as the spec gives a value (WIN, PBUF and the streams have none). -/
def Obligations.ResetValues : Prop :=
  State.reset.exceptCnt = 0 ∧ State.reset.status = 0 ∧ State.reset.spos = 0 ∧
    State.reset.spLen = 0 ∧ State.reset.spCur = 0 ∧ State.reset.rbuf = [] ∧
    State.reset.cfg.byteOrder = .little ∧ State.reset.cfg.chunkLimit = 1073741820 ∧
    State.reset.cfg.pbufCap = 18446744073709551615 ∧
    State.reset.cfg.rbufCap = 18446744073709551615 ∧
    State.reset.cfg.lw = 64 ∧ State.reset.cfg.cw = 64 ∧ State.reset.reg .magic = 0x3ed7230a

/-- R41, R260, R262: the reset signal, a fault latched or not: the registers to their reset values,
the streams untouched. -/
def Obligations.ResetSignalClearsBlock : Prop :=
  ∀ (s : State) (rest : List HostAction), s.inbox = .reset :: rest →
    ∃ t, step s = .next t ∧ t.exceptCnt = 0 ∧ t.status = 0 ∧ t.spos = 0 ∧ t.spLen = 0 ∧
      t.spCur = 0 ∧ t.rbuf = [] ∧ t.ostream = s.ostream ∧ t.istream = s.istream ∧
      t.wpos = s.wpos ∧ t.rpos = s.rpos ∧ t.supply = s.supply ∧ t.reg .magic = 0x3ed7230a ∧
      t.inbox = rest ∧ t.cfg = s.cfg

/-- R261 (the model's form of it: log 10): reset asserted during a stream call abandons the operation
with no response; the registers are reset, and what the call appended or consumed stays. -/
def Obligations.ResetInCallAbandonsOperation : Prop :=
  (∀ (s : State) (len : Word) (p : List Byte) (n k : Nat) (as : List WriteAnswer) (b : List Byte),
    s.fault = .none → s.cfg.ChunkLimitOk → len.toNat ≤ s.cfg.pbufCap → p.length = len.toNat →
    s.PayloadIs p → s.wpos + (encodeRecord s.cfg p).length ≤ s.cfg.lwMax →
    s.oracle.writes = List.replicate n .ok ++ .reset k :: as → (recordWrites s.cfg p)[n]? = some b →
    ∃ t, exec (.wrrec len) s = .next t ∧ t.rsp = none ∧ t.exceptCnt = 0 ∧ t.status = 0 ∧
      t.spos = 0 ∧ t.spLen = 0 ∧ t.spCur = 0 ∧ t.rbuf = [] ∧
      t.ostream = s.ostream ++ ((recordWrites s.cfg p).take n).flatten ++ b.take (k ⊓ (b.length - 1)) ∧
      t.istream = s.istream ∧ t.rpos = s.rpos ∧ t.oracle.writes = as) ∧
  (∀ (s : State) (k : Nat) (as : List ReadAnswer), s.fault = .none → s.eos = false →
    s.oracle.reads = .reset k :: as →
    ∃ t, exec .rdrec s = .next t ∧ t.rsp = none ∧ t.exceptCnt = 0 ∧ t.status = 0 ∧
      t.spos = 0 ∧ t.spLen = 0 ∧ t.spCur = 0 ∧ t.rbuf = [] ∧ t.ostream = s.ostream ∧
      t.supply = s.supply ∧ (∃ m, t.istream = s.istream ++ handed s.supply m) ∧ s.rpos ≤ t.rpos ∧
      t.rpos ≤ s.rpos + 4 ∧ t.oracle.reads = as)

/-- R68, R96: LOOPBACK and ISTREAM.SET give the input stream its bytes, with nothing to follow, and RPOS
0; nothing else changes. An endless stream is attached the same way (the model's own move, log 8).
SPLIT.ALL is SPLIT.START and then SPLIT.NEXT until a response has the descriptor bit `last` (the model's
unrolling of it on the host's list: log 17). -/
def Obligations.HostDirectives : Prop :=
  ∀ (s : State) (rest : List HostAction) (bytes supply : List Byte) (len : Word),
    (s.inbox = .loopback :: rest →
      step s = .next { s with inbox := rest, istream := s.ostream, rpos := 0, supply := [] }) ∧
    (s.inbox = .istreamSet bytes :: rest →
      step s = .next { s with inbox := rest, istream := bytes, rpos := 0, supply := [] }) ∧
    (s.inbox = .istreamEndless bytes supply :: rest →
      step s = .next { s with inbox := rest, istream := bytes, rpos := 0, supply := supply }) ∧
    (s.inbox = .splitAll len :: rest →
      step s = .next { s with
        inbox := .command (mkPacket 0x40 0 len) :: .splitRest :: rest }) ∧
    (s.inbox = .splitRest :: rest →
      step s = .next { s with
        inbox := if s.lastSeen then rest else .command (mkPacket 0x41 0 0) :: .splitRest :: rest }) ∧
    (s.lastSeen = true ↔ ∃ r, s.rsp = some r ∧ r.st = .ok ∧ r.r0.getLsbD 36 = true)

/-- R50, R96: PBUF.LOAD puts the bytes into PBUF[0..n), a host write into PBUF[offset..offset + n);
every other cell and everything else stays. R31, R267, U2: the host has no move that writes
PBUF[0..SP_LEN) while an iteration is open, and no cell at or above PBUF_CAP; the model stops there
(log 16). -/
def Obligations.HostWritesPbuf : Prop :=
  ∀ (s : State) (rest : List HostAction) (offset : Nat) (bytes : List Byte),
    s.inbox = .pbufWrite offset bytes :: rest ∨ s.inbox = .pbufLoad bytes :: rest ∧ offset = 0 →
    (s.spActive = false ∨ s.spLen.toNat ≤ offset → offset + bytes.length ≤ s.cfg.pbufCap →
      ∃ m, step s = .next { s with inbox := rest, pbuf := m } ∧
        ∀ a, m.read a =
          if h : offset ≤ a ∧ a < offset + bytes.length then some (bytes[a - offset]'(by omega))
          else s.pbuf.read a) ∧
    (bytes ≠ [] →
      step s = if s.cfg.pbufCap < offset + bytes.length then .fault .pbufNoSuchCell
        else if s.spActive = true ∧ offset < s.spLen.toNat then .refused .pbufWrittenWhileSplitOpen
        else .next { s with inbox := rest, pbuf := s.pbuf.writeRange offset bytes })

/-! ### The whole machine -/

/-- The invariant holds after reset. -/
def Obligations.ResetMeetsInvariant : Prop := State.reset.Inv

/-- Every step keeps the invariant. -/
def Obligations.StepKeepsInvariant : Prop :=
  ∀ s t : State, s.Inv → step s = .next t → t.Inv

/-- R24, R141: EXCEPT_CNT is changed by SPLIT.NEXT and WRREC only. -/
def Obligations.CounterWrittenBySplitNextAndWrrec : Prop :=
  ∀ (i : Instr) (s t : State), exec i s = .next t → s.NoResetInCalls → i ≠ .splitNext →
    (∀ len, i ≠ .wrrec len) → t.exceptCnt = s.exceptCnt

/-- R50: no operation writes PBUF or the configuration; OSTREAM and WPOS are extended by WRREC only,
RBUF and RPOS changed by RDREC only, but for RBUF when a fault is raised (R238); what ISTREAM holds is
its source's (a finite stream stays as it is). That faults of other operations leave RPOS, EOS and
RSTATE is the model's reading (DEDUCED, log 13). -/
def Obligations.MemoriesTouchedByTheirOwnersOnly : Prop :=
  ∀ (i : Instr) (s t : State), exec i s = .next t → s.NoResetInCalls →
    t.pbuf = s.pbuf ∧ t.cfg = s.cfg ∧ t.inbox = s.inbox ∧ t.supply = s.supply ∧
    (∃ m, t.istream = s.istream ++ handed s.supply m) ∧
    ((∀ len, i ≠ .wrrec len) → t.ostream = s.ostream ∧ t.wpos = s.wpos) ∧
    (i ≠ .rdrec → t.istream = s.istream ∧ t.rpos = s.rpos ∧ t.eos = s.eos ∧ t.rstate = s.rstate ∧
      (t.fault = s.fault → t.rbuf = s.rbuf))

/-- R29, R30, R222: the scanner window is written by MSCAN.CLR and MSCAN.PUSH only, the iterator by
SPLIT.START and SPLIT.NEXT only. -/
def Obligations.ScannerAndIteratorFrames : Prop :=
  ∀ (i : Instr) (s t : State), exec i s = .next t → s.NoResetInCalls →
    (i ≠ .mscanClr → (∀ b, i ≠ .mscanPush b) →
      t.win0 = s.win0 ∧ t.win1 = s.win1 ∧ t.win2 = s.win2 ∧ t.wcnt = s.wcnt ∧ t.spos = s.spos) ∧
    ((∀ len, i ≠ .splitStart len) → i ≠ .splitNext →
      t.spLen = s.spLen ∧ t.spCur = s.spCur ∧ t.spFirst = s.spFirst ∧ t.spActive = s.spActive)

/-- R56, R61, R63: OSTREAM is append-only under every step of the machine, resets and cut calls
included, and WPOS grows by as much. -/
def Obligations.OutputIsAppendOnly : Prop :=
  ∀ s t : State, step s = .next t →
    ∃ bs, t.ostream = s.ostream ++ bs ∧ t.wpos = s.wpos + bs.length
end

