-- ==== Sys2Proof/Laws/State.lean ====
section
/-! SUPPORT. What each named update of State does to each field, one lemma per field per update; the
updates with a case in them (latch, nextWrite, nextRead) stand at the end, with when a refill does
nothing. -/

namespace Sys2Proof.Machine

variable (s : State)

/-! ### respond -/

@[simp] theorem State.respond_cfg (st : Status) (r0 r1 : Word) :
    (s.respond st r0 r1).cfg = s.cfg := rfl
@[simp] theorem State.respond_exceptCnt (st : Status) (r0 r1 : Word) :
    (s.respond st r0 r1).exceptCnt = s.exceptCnt := rfl
@[simp] theorem State.respond_fault (st : Status) (r0 r1 : Word) :
    (s.respond st r0 r1).fault = s.fault := rfl
@[simp] theorem State.respond_cause (st : Status) (r0 r1 : Word) :
    (s.respond st r0 r1).cause = s.cause := rfl
@[simp] theorem State.respond_eos (st : Status) (r0 r1 : Word) :
    (s.respond st r0 r1).eos = s.eos := rfl
@[simp] theorem State.respond_rstate (st : Status) (r0 r1 : Word) :
    (s.respond st r0 r1).rstate = s.rstate := rfl
@[simp] theorem State.respond_win0 (st : Status) (r0 r1 : Word) :
    (s.respond st r0 r1).win0 = s.win0 := rfl
@[simp] theorem State.respond_win1 (st : Status) (r0 r1 : Word) :
    (s.respond st r0 r1).win1 = s.win1 := rfl
@[simp] theorem State.respond_win2 (st : Status) (r0 r1 : Word) :
    (s.respond st r0 r1).win2 = s.win2 := rfl
@[simp] theorem State.respond_wcnt (st : Status) (r0 r1 : Word) :
    (s.respond st r0 r1).wcnt = s.wcnt := rfl
@[simp] theorem State.respond_spos (st : Status) (r0 r1 : Word) :
    (s.respond st r0 r1).spos = s.spos := rfl
@[simp] theorem State.respond_spLen (st : Status) (r0 r1 : Word) :
    (s.respond st r0 r1).spLen = s.spLen := rfl
@[simp] theorem State.respond_spCur (st : Status) (r0 r1 : Word) :
    (s.respond st r0 r1).spCur = s.spCur := rfl
@[simp] theorem State.respond_spFirst (st : Status) (r0 r1 : Word) :
    (s.respond st r0 r1).spFirst = s.spFirst := rfl
@[simp] theorem State.respond_spActive (st : Status) (r0 r1 : Word) :
    (s.respond st r0 r1).spActive = s.spActive := rfl
@[simp] theorem State.respond_pbuf (st : Status) (r0 r1 : Word) :
    (s.respond st r0 r1).pbuf = s.pbuf := rfl
@[simp] theorem State.respond_rbuf (st : Status) (r0 r1 : Word) :
    (s.respond st r0 r1).rbuf = s.rbuf := rfl
@[simp] theorem State.respond_ostream (st : Status) (r0 r1 : Word) :
    (s.respond st r0 r1).ostream = s.ostream := rfl
@[simp] theorem State.respond_wpos (st : Status) (r0 r1 : Word) :
    (s.respond st r0 r1).wpos = s.wpos := rfl
@[simp] theorem State.respond_istream (st : Status) (r0 r1 : Word) :
    (s.respond st r0 r1).istream = s.istream := rfl
@[simp] theorem State.respond_rpos (st : Status) (r0 r1 : Word) :
    (s.respond st r0 r1).rpos = s.rpos := rfl
@[simp] theorem State.respond_supply (st : Status) (r0 r1 : Word) :
    (s.respond st r0 r1).supply = s.supply := rfl
@[simp] theorem State.respond_history (st : Status) (r0 r1 : Word) :
    (s.respond st r0 r1).history = s.history := rfl
@[simp] theorem State.respond_rsp (st : Status) (r0 r1 : Word) :
    (s.respond st r0 r1).rsp = some { st := st, r1 := r1, r0 := r0 } := rfl
@[simp] theorem State.respond_inbox (st : Status) (r0 r1 : Word) :
    (s.respond st r0 r1).inbox = s.inbox := rfl
@[simp] theorem State.respond_oracle (st : Status) (r0 r1 : Word) :
    (s.respond st r0 r1).oracle = s.oracle := rfl
@[simp] theorem State.respond_freeCtr (st : Status) (r0 r1 : Word) :
    (s.respond st r0 r1).freeCtr = s.freeCtr := rfl

/-! ### hwReset -/

@[simp] theorem State.hwReset_cfg : (s.hwReset).cfg = s.cfg := rfl
@[simp] theorem State.hwReset_exceptCnt : (s.hwReset).exceptCnt = 0 := rfl
@[simp] theorem State.hwReset_fault : (s.hwReset).fault = .none := rfl
@[simp] theorem State.hwReset_cause : (s.hwReset).cause = .none := rfl
@[simp] theorem State.hwReset_eos : (s.hwReset).eos = false := rfl
@[simp] theorem State.hwReset_rstate : (s.hwReset).rstate = .start := rfl
@[simp] theorem State.hwReset_win0 : (s.hwReset).win0 = 0 := rfl
@[simp] theorem State.hwReset_win1 : (s.hwReset).win1 = 0 := rfl
@[simp] theorem State.hwReset_win2 : (s.hwReset).win2 = 0 := rfl
@[simp] theorem State.hwReset_wcnt : (s.hwReset).wcnt = 0 := rfl
@[simp] theorem State.hwReset_spos : (s.hwReset).spos = 0 := rfl
@[simp] theorem State.hwReset_spLen : (s.hwReset).spLen = 0 := rfl
@[simp] theorem State.hwReset_spCur : (s.hwReset).spCur = 0 := rfl
@[simp] theorem State.hwReset_spFirst : (s.hwReset).spFirst = false := rfl
@[simp] theorem State.hwReset_spActive : (s.hwReset).spActive = false := rfl
@[simp] theorem State.hwReset_pbuf : (s.hwReset).pbuf = [] := rfl
@[simp] theorem State.hwReset_rbuf : (s.hwReset).rbuf = [] := rfl
@[simp] theorem State.hwReset_ostream : (s.hwReset).ostream = s.ostream := rfl
@[simp] theorem State.hwReset_wpos : (s.hwReset).wpos = s.wpos := rfl
@[simp] theorem State.hwReset_istream : (s.hwReset).istream = s.istream := rfl
@[simp] theorem State.hwReset_rpos : (s.hwReset).rpos = s.rpos := rfl
@[simp] theorem State.hwReset_supply : (s.hwReset).supply = s.supply := rfl
@[simp] theorem State.hwReset_history : (s.hwReset).history = s.history := rfl
@[simp] theorem State.hwReset_rsp : (s.hwReset).rsp = none := rfl
@[simp] theorem State.hwReset_inbox : (s.hwReset).inbox = s.inbox := rfl
@[simp] theorem State.hwReset_oracle : (s.hwReset).oracle = s.oracle := rfl
@[simp] theorem State.hwReset_freeCtr : (s.hwReset).freeCtr = s.freeCtr := rfl

/-! ### addExcept -/

@[simp] theorem State.addExcept_cfg (n : Nat) : (s.addExcept n).cfg = s.cfg := rfl
@[simp] theorem State.addExcept_exceptCnt (n : Nat) :
    (s.addExcept n).exceptCnt = wrapTo s.cfg.cw (s.exceptCnt.toNat + n) := rfl
@[simp] theorem State.addExcept_fault (n : Nat) : (s.addExcept n).fault = s.fault := rfl
@[simp] theorem State.addExcept_cause (n : Nat) : (s.addExcept n).cause = s.cause := rfl
@[simp] theorem State.addExcept_eos (n : Nat) : (s.addExcept n).eos = s.eos := rfl
@[simp] theorem State.addExcept_rstate (n : Nat) : (s.addExcept n).rstate = s.rstate := rfl
@[simp] theorem State.addExcept_win0 (n : Nat) : (s.addExcept n).win0 = s.win0 := rfl
@[simp] theorem State.addExcept_win1 (n : Nat) : (s.addExcept n).win1 = s.win1 := rfl
@[simp] theorem State.addExcept_win2 (n : Nat) : (s.addExcept n).win2 = s.win2 := rfl
@[simp] theorem State.addExcept_wcnt (n : Nat) : (s.addExcept n).wcnt = s.wcnt := rfl
@[simp] theorem State.addExcept_spos (n : Nat) : (s.addExcept n).spos = s.spos := rfl
@[simp] theorem State.addExcept_spLen (n : Nat) : (s.addExcept n).spLen = s.spLen := rfl
@[simp] theorem State.addExcept_spCur (n : Nat) : (s.addExcept n).spCur = s.spCur := rfl
@[simp] theorem State.addExcept_spFirst (n : Nat) : (s.addExcept n).spFirst = s.spFirst := rfl
@[simp] theorem State.addExcept_spActive (n : Nat) : (s.addExcept n).spActive = s.spActive := rfl
@[simp] theorem State.addExcept_pbuf (n : Nat) : (s.addExcept n).pbuf = s.pbuf := rfl
@[simp] theorem State.addExcept_rbuf (n : Nat) : (s.addExcept n).rbuf = s.rbuf := rfl
@[simp] theorem State.addExcept_ostream (n : Nat) : (s.addExcept n).ostream = s.ostream := rfl
@[simp] theorem State.addExcept_wpos (n : Nat) : (s.addExcept n).wpos = s.wpos := rfl
@[simp] theorem State.addExcept_istream (n : Nat) : (s.addExcept n).istream = s.istream := rfl
@[simp] theorem State.addExcept_rpos (n : Nat) : (s.addExcept n).rpos = s.rpos := rfl
@[simp] theorem State.addExcept_supply (n : Nat) : (s.addExcept n).supply = s.supply := rfl
@[simp] theorem State.addExcept_history (n : Nat) : (s.addExcept n).history = s.history := rfl
@[simp] theorem State.addExcept_rsp (n : Nat) : (s.addExcept n).rsp = s.rsp := rfl
@[simp] theorem State.addExcept_inbox (n : Nat) : (s.addExcept n).inbox = s.inbox := rfl
@[simp] theorem State.addExcept_oracle (n : Nat) : (s.addExcept n).oracle = s.oracle := rfl
@[simp] theorem State.addExcept_freeCtr (n : Nat) : (s.addExcept n).freeCtr = s.freeCtr := rfl

/-! ### withInbox -/

@[simp] theorem State.withInbox_cfg (rest : List HostAction) : (s.withInbox rest).cfg = s.cfg := rfl
@[simp] theorem State.withInbox_exceptCnt (rest : List HostAction) :
    (s.withInbox rest).exceptCnt = s.exceptCnt := rfl
@[simp] theorem State.withInbox_fault (rest : List HostAction) :
    (s.withInbox rest).fault = s.fault := rfl
@[simp] theorem State.withInbox_cause (rest : List HostAction) :
    (s.withInbox rest).cause = s.cause := rfl
@[simp] theorem State.withInbox_eos (rest : List HostAction) : (s.withInbox rest).eos = s.eos := rfl
@[simp] theorem State.withInbox_rstate (rest : List HostAction) :
    (s.withInbox rest).rstate = s.rstate := rfl
@[simp] theorem State.withInbox_win0 (rest : List HostAction) :
    (s.withInbox rest).win0 = s.win0 := rfl
@[simp] theorem State.withInbox_win1 (rest : List HostAction) :
    (s.withInbox rest).win1 = s.win1 := rfl
@[simp] theorem State.withInbox_win2 (rest : List HostAction) :
    (s.withInbox rest).win2 = s.win2 := rfl
@[simp] theorem State.withInbox_wcnt (rest : List HostAction) :
    (s.withInbox rest).wcnt = s.wcnt := rfl
@[simp] theorem State.withInbox_spos (rest : List HostAction) :
    (s.withInbox rest).spos = s.spos := rfl
@[simp] theorem State.withInbox_spLen (rest : List HostAction) :
    (s.withInbox rest).spLen = s.spLen := rfl
@[simp] theorem State.withInbox_spCur (rest : List HostAction) :
    (s.withInbox rest).spCur = s.spCur := rfl
@[simp] theorem State.withInbox_spFirst (rest : List HostAction) :
    (s.withInbox rest).spFirst = s.spFirst := rfl
@[simp] theorem State.withInbox_spActive (rest : List HostAction) :
    (s.withInbox rest).spActive = s.spActive := rfl
@[simp] theorem State.withInbox_pbuf (rest : List HostAction) :
    (s.withInbox rest).pbuf = s.pbuf := rfl
@[simp] theorem State.withInbox_rbuf (rest : List HostAction) :
    (s.withInbox rest).rbuf = s.rbuf := rfl
@[simp] theorem State.withInbox_ostream (rest : List HostAction) :
    (s.withInbox rest).ostream = s.ostream := rfl
@[simp] theorem State.withInbox_wpos (rest : List HostAction) :
    (s.withInbox rest).wpos = s.wpos := rfl
@[simp] theorem State.withInbox_istream (rest : List HostAction) :
    (s.withInbox rest).istream = s.istream := rfl
@[simp] theorem State.withInbox_rpos (rest : List HostAction) :
    (s.withInbox rest).rpos = s.rpos := rfl
@[simp] theorem State.withInbox_supply (rest : List HostAction) :
    (s.withInbox rest).supply = s.supply := rfl
@[simp] theorem State.withInbox_history (rest : List HostAction) :
    (s.withInbox rest).history = s.history := rfl
@[simp] theorem State.withInbox_rsp (rest : List HostAction) : (s.withInbox rest).rsp = s.rsp := rfl
@[simp] theorem State.withInbox_inbox (rest : List HostAction) :
    (s.withInbox rest).inbox = rest := rfl
@[simp] theorem State.withInbox_oracle (rest : List HostAction) :
    (s.withInbox rest).oracle = s.oracle := rfl
@[simp] theorem State.withInbox_freeCtr (rest : List HostAction) :
    (s.withInbox rest).freeCtr = s.freeCtr := rfl

/-! ### clearWindow -/

@[simp] theorem State.clearWindow_cfg : (s.clearWindow).cfg = s.cfg := rfl
@[simp] theorem State.clearWindow_exceptCnt : (s.clearWindow).exceptCnt = s.exceptCnt := rfl
@[simp] theorem State.clearWindow_fault : (s.clearWindow).fault = s.fault := rfl
@[simp] theorem State.clearWindow_cause : (s.clearWindow).cause = s.cause := rfl
@[simp] theorem State.clearWindow_eos : (s.clearWindow).eos = s.eos := rfl
@[simp] theorem State.clearWindow_rstate : (s.clearWindow).rstate = s.rstate := rfl
@[simp] theorem State.clearWindow_win0 : (s.clearWindow).win0 = s.win0 := rfl
@[simp] theorem State.clearWindow_win1 : (s.clearWindow).win1 = s.win1 := rfl
@[simp] theorem State.clearWindow_win2 : (s.clearWindow).win2 = s.win2 := rfl
@[simp] theorem State.clearWindow_wcnt : (s.clearWindow).wcnt = 0 := rfl
@[simp] theorem State.clearWindow_spos : (s.clearWindow).spos = 0 := rfl
@[simp] theorem State.clearWindow_spLen : (s.clearWindow).spLen = s.spLen := rfl
@[simp] theorem State.clearWindow_spCur : (s.clearWindow).spCur = s.spCur := rfl
@[simp] theorem State.clearWindow_spFirst : (s.clearWindow).spFirst = s.spFirst := rfl
@[simp] theorem State.clearWindow_spActive : (s.clearWindow).spActive = s.spActive := rfl
@[simp] theorem State.clearWindow_pbuf : (s.clearWindow).pbuf = s.pbuf := rfl
@[simp] theorem State.clearWindow_rbuf : (s.clearWindow).rbuf = s.rbuf := rfl
@[simp] theorem State.clearWindow_ostream : (s.clearWindow).ostream = s.ostream := rfl
@[simp] theorem State.clearWindow_wpos : (s.clearWindow).wpos = s.wpos := rfl
@[simp] theorem State.clearWindow_istream : (s.clearWindow).istream = s.istream := rfl
@[simp] theorem State.clearWindow_rpos : (s.clearWindow).rpos = s.rpos := rfl
@[simp] theorem State.clearWindow_supply : (s.clearWindow).supply = s.supply := rfl
@[simp] theorem State.clearWindow_history : (s.clearWindow).history = s.history := rfl
@[simp] theorem State.clearWindow_rsp : (s.clearWindow).rsp = s.rsp := rfl
@[simp] theorem State.clearWindow_inbox : (s.clearWindow).inbox = s.inbox := rfl
@[simp] theorem State.clearWindow_oracle : (s.clearWindow).oracle = s.oracle := rfl
@[simp] theorem State.clearWindow_freeCtr : (s.clearWindow).freeCtr = s.freeCtr := rfl

/-! ### pushWindow -/

@[simp] theorem State.pushWindow_cfg (b : Byte) : (s.pushWindow b).cfg = s.cfg := rfl
@[simp] theorem State.pushWindow_exceptCnt (b : Byte) :
    (s.pushWindow b).exceptCnt = s.exceptCnt := rfl
@[simp] theorem State.pushWindow_fault (b : Byte) : (s.pushWindow b).fault = s.fault := rfl
@[simp] theorem State.pushWindow_cause (b : Byte) : (s.pushWindow b).cause = s.cause := rfl
@[simp] theorem State.pushWindow_eos (b : Byte) : (s.pushWindow b).eos = s.eos := rfl
@[simp] theorem State.pushWindow_rstate (b : Byte) : (s.pushWindow b).rstate = s.rstate := rfl
@[simp] theorem State.pushWindow_win0 (b : Byte) : (s.pushWindow b).win0 = s.win1 := rfl
@[simp] theorem State.pushWindow_win1 (b : Byte) : (s.pushWindow b).win1 = s.win2 := rfl
@[simp] theorem State.pushWindow_win2 (b : Byte) : (s.pushWindow b).win2 = b := rfl
@[simp] theorem State.pushWindow_wcnt (b : Byte) :
    (s.pushWindow b).wcnt = if s.wcnt = 3 then 3 else s.wcnt + 1 := rfl
@[simp] theorem State.pushWindow_spos (b : Byte) :
    (s.pushWindow b).spos = wrapTo s.cfg.lw (s.spos.toNat + 1) := rfl
@[simp] theorem State.pushWindow_spLen (b : Byte) : (s.pushWindow b).spLen = s.spLen := rfl
@[simp] theorem State.pushWindow_spCur (b : Byte) : (s.pushWindow b).spCur = s.spCur := rfl
@[simp] theorem State.pushWindow_spFirst (b : Byte) : (s.pushWindow b).spFirst = s.spFirst := rfl
@[simp] theorem State.pushWindow_spActive (b : Byte) : (s.pushWindow b).spActive = s.spActive := rfl
@[simp] theorem State.pushWindow_pbuf (b : Byte) : (s.pushWindow b).pbuf = s.pbuf := rfl
@[simp] theorem State.pushWindow_rbuf (b : Byte) : (s.pushWindow b).rbuf = s.rbuf := rfl
@[simp] theorem State.pushWindow_ostream (b : Byte) : (s.pushWindow b).ostream = s.ostream := rfl
@[simp] theorem State.pushWindow_wpos (b : Byte) : (s.pushWindow b).wpos = s.wpos := rfl
@[simp] theorem State.pushWindow_istream (b : Byte) : (s.pushWindow b).istream = s.istream := rfl
@[simp] theorem State.pushWindow_rpos (b : Byte) : (s.pushWindow b).rpos = s.rpos := rfl
@[simp] theorem State.pushWindow_supply (b : Byte) : (s.pushWindow b).supply = s.supply := rfl
@[simp] theorem State.pushWindow_history (b : Byte) : (s.pushWindow b).history = s.history := rfl
@[simp] theorem State.pushWindow_rsp (b : Byte) : (s.pushWindow b).rsp = s.rsp := rfl
@[simp] theorem State.pushWindow_inbox (b : Byte) : (s.pushWindow b).inbox = s.inbox := rfl
@[simp] theorem State.pushWindow_oracle (b : Byte) : (s.pushWindow b).oracle = s.oracle := rfl
@[simp] theorem State.pushWindow_freeCtr (b : Byte) : (s.pushWindow b).freeCtr = s.freeCtr := rfl

/-! ### openSplit -/

@[simp] theorem State.openSplit_cfg (len : Word) : (s.openSplit len).cfg = s.cfg := rfl
@[simp] theorem State.openSplit_exceptCnt (len : Word) :
    (s.openSplit len).exceptCnt = s.exceptCnt := rfl
@[simp] theorem State.openSplit_fault (len : Word) : (s.openSplit len).fault = s.fault := rfl
@[simp] theorem State.openSplit_cause (len : Word) : (s.openSplit len).cause = s.cause := rfl
@[simp] theorem State.openSplit_eos (len : Word) : (s.openSplit len).eos = s.eos := rfl
@[simp] theorem State.openSplit_rstate (len : Word) : (s.openSplit len).rstate = s.rstate := rfl
@[simp] theorem State.openSplit_win0 (len : Word) : (s.openSplit len).win0 = s.win0 := rfl
@[simp] theorem State.openSplit_win1 (len : Word) : (s.openSplit len).win1 = s.win1 := rfl
@[simp] theorem State.openSplit_win2 (len : Word) : (s.openSplit len).win2 = s.win2 := rfl
@[simp] theorem State.openSplit_wcnt (len : Word) : (s.openSplit len).wcnt = s.wcnt := rfl
@[simp] theorem State.openSplit_spos (len : Word) : (s.openSplit len).spos = s.spos := rfl
@[simp] theorem State.openSplit_spLen (len : Word) : (s.openSplit len).spLen = len := rfl
@[simp] theorem State.openSplit_spCur (len : Word) : (s.openSplit len).spCur = 0 := rfl
@[simp] theorem State.openSplit_spFirst (len : Word) : (s.openSplit len).spFirst = true := rfl
@[simp] theorem State.openSplit_spActive (len : Word) : (s.openSplit len).spActive = true := rfl
@[simp] theorem State.openSplit_pbuf (len : Word) : (s.openSplit len).pbuf = s.pbuf := rfl
@[simp] theorem State.openSplit_rbuf (len : Word) : (s.openSplit len).rbuf = s.rbuf := rfl
@[simp] theorem State.openSplit_ostream (len : Word) : (s.openSplit len).ostream = s.ostream := rfl
@[simp] theorem State.openSplit_wpos (len : Word) : (s.openSplit len).wpos = s.wpos := rfl
@[simp] theorem State.openSplit_istream (len : Word) : (s.openSplit len).istream = s.istream := rfl
@[simp] theorem State.openSplit_rpos (len : Word) : (s.openSplit len).rpos = s.rpos := rfl
@[simp] theorem State.openSplit_supply (len : Word) : (s.openSplit len).supply = s.supply := rfl
@[simp] theorem State.openSplit_history (len : Word) : (s.openSplit len).history = s.history := rfl
@[simp] theorem State.openSplit_rsp (len : Word) : (s.openSplit len).rsp = s.rsp := rfl
@[simp] theorem State.openSplit_inbox (len : Word) : (s.openSplit len).inbox = s.inbox := rfl
@[simp] theorem State.openSplit_oracle (len : Word) : (s.openSplit len).oracle = s.oracle := rfl
@[simp] theorem State.openSplit_freeCtr (len : Word) : (s.openSplit len).freeCtr = s.freeCtr := rfl

/-! ### advanceSplit -/

@[simp] theorem State.advanceSplit_cfg (e : Nat) (last : Bool) :
    (s.advanceSplit e last).cfg = s.cfg := rfl
@[simp] theorem State.advanceSplit_exceptCnt (e : Nat) (last : Bool) :
    (s.advanceSplit e last).exceptCnt = s.exceptCnt := rfl
@[simp] theorem State.advanceSplit_fault (e : Nat) (last : Bool) :
    (s.advanceSplit e last).fault = s.fault := rfl
@[simp] theorem State.advanceSplit_cause (e : Nat) (last : Bool) :
    (s.advanceSplit e last).cause = s.cause := rfl
@[simp] theorem State.advanceSplit_eos (e : Nat) (last : Bool) :
    (s.advanceSplit e last).eos = s.eos := rfl
@[simp] theorem State.advanceSplit_rstate (e : Nat) (last : Bool) :
    (s.advanceSplit e last).rstate = s.rstate := rfl
@[simp] theorem State.advanceSplit_win0 (e : Nat) (last : Bool) :
    (s.advanceSplit e last).win0 = s.win0 := rfl
@[simp] theorem State.advanceSplit_win1 (e : Nat) (last : Bool) :
    (s.advanceSplit e last).win1 = s.win1 := rfl
@[simp] theorem State.advanceSplit_win2 (e : Nat) (last : Bool) :
    (s.advanceSplit e last).win2 = s.win2 := rfl
@[simp] theorem State.advanceSplit_wcnt (e : Nat) (last : Bool) :
    (s.advanceSplit e last).wcnt = s.wcnt := rfl
@[simp] theorem State.advanceSplit_spos (e : Nat) (last : Bool) :
    (s.advanceSplit e last).spos = s.spos := rfl
@[simp] theorem State.advanceSplit_spLen (e : Nat) (last : Bool) :
    (s.advanceSplit e last).spLen = s.spLen := rfl
@[simp] theorem State.advanceSplit_spCur (e : Nat) (last : Bool) :
    (s.advanceSplit e last).spCur = BitVec.ofNat 64 e := rfl
@[simp] theorem State.advanceSplit_spFirst (e : Nat) (last : Bool) :
    (s.advanceSplit e last).spFirst = false := rfl
@[simp] theorem State.advanceSplit_spActive (e : Nat) (last : Bool) :
    (s.advanceSplit e last).spActive = (s.spActive && !last) := rfl
@[simp] theorem State.advanceSplit_pbuf (e : Nat) (last : Bool) :
    (s.advanceSplit e last).pbuf = s.pbuf := rfl
@[simp] theorem State.advanceSplit_rbuf (e : Nat) (last : Bool) :
    (s.advanceSplit e last).rbuf = s.rbuf := rfl
@[simp] theorem State.advanceSplit_ostream (e : Nat) (last : Bool) :
    (s.advanceSplit e last).ostream = s.ostream := rfl
@[simp] theorem State.advanceSplit_wpos (e : Nat) (last : Bool) :
    (s.advanceSplit e last).wpos = s.wpos := rfl
@[simp] theorem State.advanceSplit_istream (e : Nat) (last : Bool) :
    (s.advanceSplit e last).istream = s.istream := rfl
@[simp] theorem State.advanceSplit_rpos (e : Nat) (last : Bool) :
    (s.advanceSplit e last).rpos = s.rpos := rfl
@[simp] theorem State.advanceSplit_supply (e : Nat) (last : Bool) :
    (s.advanceSplit e last).supply = s.supply := rfl
@[simp] theorem State.advanceSplit_history (e : Nat) (last : Bool) :
    (s.advanceSplit e last).history = s.history := rfl
@[simp] theorem State.advanceSplit_rsp (e : Nat) (last : Bool) :
    (s.advanceSplit e last).rsp = s.rsp := rfl
@[simp] theorem State.advanceSplit_inbox (e : Nat) (last : Bool) :
    (s.advanceSplit e last).inbox = s.inbox := rfl
@[simp] theorem State.advanceSplit_oracle (e : Nat) (last : Bool) :
    (s.advanceSplit e last).oracle = s.oracle := rfl
@[simp] theorem State.advanceSplit_freeCtr (e : Nat) (last : Bool) :
    (s.advanceSplit e last).freeCtr = s.freeCtr := rfl

/-! ### extendOut -/

@[simp] theorem State.extendOut_cfg (t : List Byte) (e : StreamEvent) :
    (s.extendOut t e).cfg = s.cfg := rfl
@[simp] theorem State.extendOut_exceptCnt (t : List Byte) (e : StreamEvent) :
    (s.extendOut t e).exceptCnt = s.exceptCnt := rfl
@[simp] theorem State.extendOut_fault (t : List Byte) (e : StreamEvent) :
    (s.extendOut t e).fault = s.fault := rfl
@[simp] theorem State.extendOut_cause (t : List Byte) (e : StreamEvent) :
    (s.extendOut t e).cause = s.cause := rfl
@[simp] theorem State.extendOut_eos (t : List Byte) (e : StreamEvent) :
    (s.extendOut t e).eos = s.eos := rfl
@[simp] theorem State.extendOut_rstate (t : List Byte) (e : StreamEvent) :
    (s.extendOut t e).rstate = s.rstate := rfl
@[simp] theorem State.extendOut_win0 (t : List Byte) (e : StreamEvent) :
    (s.extendOut t e).win0 = s.win0 := rfl
@[simp] theorem State.extendOut_win1 (t : List Byte) (e : StreamEvent) :
    (s.extendOut t e).win1 = s.win1 := rfl
@[simp] theorem State.extendOut_win2 (t : List Byte) (e : StreamEvent) :
    (s.extendOut t e).win2 = s.win2 := rfl
@[simp] theorem State.extendOut_wcnt (t : List Byte) (e : StreamEvent) :
    (s.extendOut t e).wcnt = s.wcnt := rfl
@[simp] theorem State.extendOut_spos (t : List Byte) (e : StreamEvent) :
    (s.extendOut t e).spos = s.spos := rfl
@[simp] theorem State.extendOut_spLen (t : List Byte) (e : StreamEvent) :
    (s.extendOut t e).spLen = s.spLen := rfl
@[simp] theorem State.extendOut_spCur (t : List Byte) (e : StreamEvent) :
    (s.extendOut t e).spCur = s.spCur := rfl
@[simp] theorem State.extendOut_spFirst (t : List Byte) (e : StreamEvent) :
    (s.extendOut t e).spFirst = s.spFirst := rfl
@[simp] theorem State.extendOut_spActive (t : List Byte) (e : StreamEvent) :
    (s.extendOut t e).spActive = s.spActive := rfl
@[simp] theorem State.extendOut_pbuf (t : List Byte) (e : StreamEvent) :
    (s.extendOut t e).pbuf = s.pbuf := rfl
@[simp] theorem State.extendOut_rbuf (t : List Byte) (e : StreamEvent) :
    (s.extendOut t e).rbuf = s.rbuf := rfl
@[simp] theorem State.extendOut_ostream (t : List Byte) (e : StreamEvent) :
    (s.extendOut t e).ostream = s.ostream ++ t := rfl
@[simp] theorem State.extendOut_wpos (t : List Byte) (e : StreamEvent) :
    (s.extendOut t e).wpos = s.wpos + t.length := rfl
@[simp] theorem State.extendOut_istream (t : List Byte) (e : StreamEvent) :
    (s.extendOut t e).istream = s.istream := rfl
@[simp] theorem State.extendOut_rpos (t : List Byte) (e : StreamEvent) :
    (s.extendOut t e).rpos = s.rpos := rfl
@[simp] theorem State.extendOut_supply (t : List Byte) (e : StreamEvent) :
    (s.extendOut t e).supply = s.supply := rfl
@[simp] theorem State.extendOut_history (t : List Byte) (e : StreamEvent) :
    (s.extendOut t e).history = s.history ++ [e] := rfl
@[simp] theorem State.extendOut_rsp (t : List Byte) (e : StreamEvent) :
    (s.extendOut t e).rsp = s.rsp := rfl
@[simp] theorem State.extendOut_inbox (t : List Byte) (e : StreamEvent) :
    (s.extendOut t e).inbox = s.inbox := rfl
@[simp] theorem State.extendOut_oracle (t : List Byte) (e : StreamEvent) :
    (s.extendOut t e).oracle = s.oracle := rfl
@[simp] theorem State.extendOut_freeCtr (t : List Byte) (e : StreamEvent) :
    (s.extendOut t e).freeCtr = s.freeCtr := rfl

/-! ### consumeIn -/

@[simp] theorem State.consumeIn_cfg (k : Nat) (e : StreamEvent) :
    (s.consumeIn k e).cfg = s.cfg := rfl
@[simp] theorem State.consumeIn_exceptCnt (k : Nat) (e : StreamEvent) :
    (s.consumeIn k e).exceptCnt = s.exceptCnt := rfl
@[simp] theorem State.consumeIn_fault (k : Nat) (e : StreamEvent) :
    (s.consumeIn k e).fault = s.fault := rfl
@[simp] theorem State.consumeIn_cause (k : Nat) (e : StreamEvent) :
    (s.consumeIn k e).cause = s.cause := rfl
@[simp] theorem State.consumeIn_eos (k : Nat) (e : StreamEvent) :
    (s.consumeIn k e).eos = s.eos := rfl
@[simp] theorem State.consumeIn_rstate (k : Nat) (e : StreamEvent) :
    (s.consumeIn k e).rstate = s.rstate := rfl
@[simp] theorem State.consumeIn_win0 (k : Nat) (e : StreamEvent) :
    (s.consumeIn k e).win0 = s.win0 := rfl
@[simp] theorem State.consumeIn_win1 (k : Nat) (e : StreamEvent) :
    (s.consumeIn k e).win1 = s.win1 := rfl
@[simp] theorem State.consumeIn_win2 (k : Nat) (e : StreamEvent) :
    (s.consumeIn k e).win2 = s.win2 := rfl
@[simp] theorem State.consumeIn_wcnt (k : Nat) (e : StreamEvent) :
    (s.consumeIn k e).wcnt = s.wcnt := rfl
@[simp] theorem State.consumeIn_spos (k : Nat) (e : StreamEvent) :
    (s.consumeIn k e).spos = s.spos := rfl
@[simp] theorem State.consumeIn_spLen (k : Nat) (e : StreamEvent) :
    (s.consumeIn k e).spLen = s.spLen := rfl
@[simp] theorem State.consumeIn_spCur (k : Nat) (e : StreamEvent) :
    (s.consumeIn k e).spCur = s.spCur := rfl
@[simp] theorem State.consumeIn_spFirst (k : Nat) (e : StreamEvent) :
    (s.consumeIn k e).spFirst = s.spFirst := rfl
@[simp] theorem State.consumeIn_spActive (k : Nat) (e : StreamEvent) :
    (s.consumeIn k e).spActive = s.spActive := rfl
@[simp] theorem State.consumeIn_pbuf (k : Nat) (e : StreamEvent) :
    (s.consumeIn k e).pbuf = s.pbuf := rfl
@[simp] theorem State.consumeIn_rbuf (k : Nat) (e : StreamEvent) :
    (s.consumeIn k e).rbuf = s.rbuf := rfl
@[simp] theorem State.consumeIn_ostream (k : Nat) (e : StreamEvent) :
    (s.consumeIn k e).ostream = s.ostream := rfl
@[simp] theorem State.consumeIn_wpos (k : Nat) (e : StreamEvent) :
    (s.consumeIn k e).wpos = s.wpos := rfl
@[simp] theorem State.consumeIn_istream (k : Nat) (e : StreamEvent) :
    (s.consumeIn k e).istream = s.istream := rfl
@[simp] theorem State.consumeIn_rpos (k : Nat) (e : StreamEvent) :
    (s.consumeIn k e).rpos = s.rpos + k := rfl
@[simp] theorem State.consumeIn_supply (k : Nat) (e : StreamEvent) :
    (s.consumeIn k e).supply = s.supply := rfl
@[simp] theorem State.consumeIn_history (k : Nat) (e : StreamEvent) :
    (s.consumeIn k e).history = s.history ++ [e] := rfl
@[simp] theorem State.consumeIn_rsp (k : Nat) (e : StreamEvent) :
    (s.consumeIn k e).rsp = s.rsp := rfl
@[simp] theorem State.consumeIn_inbox (k : Nat) (e : StreamEvent) :
    (s.consumeIn k e).inbox = s.inbox := rfl
@[simp] theorem State.consumeIn_oracle (k : Nat) (e : StreamEvent) :
    (s.consumeIn k e).oracle = s.oracle := rfl
@[simp] theorem State.consumeIn_freeCtr (k : Nat) (e : StreamEvent) :
    (s.consumeIn k e).freeCtr = s.freeCtr := rfl

/-! ### openRecord -/

@[simp] theorem State.openRecord_cfg : (s.openRecord).cfg = s.cfg := rfl
@[simp] theorem State.openRecord_exceptCnt : (s.openRecord).exceptCnt = s.exceptCnt := rfl
@[simp] theorem State.openRecord_fault : (s.openRecord).fault = s.fault := rfl
@[simp] theorem State.openRecord_cause : (s.openRecord).cause = s.cause := rfl
@[simp] theorem State.openRecord_eos : (s.openRecord).eos = s.eos := rfl
@[simp] theorem State.openRecord_rstate : (s.openRecord).rstate = .start := rfl
@[simp] theorem State.openRecord_win0 : (s.openRecord).win0 = s.win0 := rfl
@[simp] theorem State.openRecord_win1 : (s.openRecord).win1 = s.win1 := rfl
@[simp] theorem State.openRecord_win2 : (s.openRecord).win2 = s.win2 := rfl
@[simp] theorem State.openRecord_wcnt : (s.openRecord).wcnt = s.wcnt := rfl
@[simp] theorem State.openRecord_spos : (s.openRecord).spos = s.spos := rfl
@[simp] theorem State.openRecord_spLen : (s.openRecord).spLen = s.spLen := rfl
@[simp] theorem State.openRecord_spCur : (s.openRecord).spCur = s.spCur := rfl
@[simp] theorem State.openRecord_spFirst : (s.openRecord).spFirst = s.spFirst := rfl
@[simp] theorem State.openRecord_spActive : (s.openRecord).spActive = s.spActive := rfl
@[simp] theorem State.openRecord_pbuf : (s.openRecord).pbuf = s.pbuf := rfl
@[simp] theorem State.openRecord_rbuf : (s.openRecord).rbuf = [] := rfl
@[simp] theorem State.openRecord_ostream : (s.openRecord).ostream = s.ostream := rfl
@[simp] theorem State.openRecord_wpos : (s.openRecord).wpos = s.wpos := rfl
@[simp] theorem State.openRecord_istream : (s.openRecord).istream = s.istream := rfl
@[simp] theorem State.openRecord_rpos : (s.openRecord).rpos = s.rpos := rfl
@[simp] theorem State.openRecord_supply : (s.openRecord).supply = s.supply := rfl
@[simp] theorem State.openRecord_history : (s.openRecord).history = s.history := rfl
@[simp] theorem State.openRecord_rsp : (s.openRecord).rsp = s.rsp := rfl
@[simp] theorem State.openRecord_inbox : (s.openRecord).inbox = s.inbox := rfl
@[simp] theorem State.openRecord_oracle : (s.openRecord).oracle = s.oracle := rfl
@[simp] theorem State.openRecord_freeCtr : (s.openRecord).freeCtr = s.freeCtr := rfl

/-! ### afterReadFault -/

@[simp] theorem State.afterReadFault_cfg (start : Nat) : (s.afterReadFault start).cfg = s.cfg := rfl
@[simp] theorem State.afterReadFault_exceptCnt (start : Nat) :
    (s.afterReadFault start).exceptCnt = s.exceptCnt := rfl
@[simp] theorem State.afterReadFault_fault (start : Nat) :
    (s.afterReadFault start).fault = s.fault := rfl
@[simp] theorem State.afterReadFault_cause (start : Nat) :
    (s.afterReadFault start).cause = s.cause := rfl
@[simp] theorem State.afterReadFault_eos (start : Nat) : (s.afterReadFault start).eos = s.eos := rfl
@[simp] theorem State.afterReadFault_rstate (start : Nat) :
    (s.afterReadFault start).rstate = s.rstate := rfl
@[simp] theorem State.afterReadFault_win0 (start : Nat) :
    (s.afterReadFault start).win0 = s.win0 := rfl
@[simp] theorem State.afterReadFault_win1 (start : Nat) :
    (s.afterReadFault start).win1 = s.win1 := rfl
@[simp] theorem State.afterReadFault_win2 (start : Nat) :
    (s.afterReadFault start).win2 = s.win2 := rfl
@[simp] theorem State.afterReadFault_wcnt (start : Nat) :
    (s.afterReadFault start).wcnt = s.wcnt := rfl
@[simp] theorem State.afterReadFault_spos (start : Nat) :
    (s.afterReadFault start).spos = s.spos := rfl
@[simp] theorem State.afterReadFault_spLen (start : Nat) :
    (s.afterReadFault start).spLen = s.spLen := rfl
@[simp] theorem State.afterReadFault_spCur (start : Nat) :
    (s.afterReadFault start).spCur = s.spCur := rfl
@[simp] theorem State.afterReadFault_spFirst (start : Nat) :
    (s.afterReadFault start).spFirst = s.spFirst := rfl
@[simp] theorem State.afterReadFault_spActive (start : Nat) :
    (s.afterReadFault start).spActive = s.spActive := rfl
@[simp] theorem State.afterReadFault_pbuf (start : Nat) :
    (s.afterReadFault start).pbuf = s.pbuf := rfl
@[simp] theorem State.afterReadFault_rbuf (start : Nat) :
    (s.afterReadFault start).rbuf = s.rbuf := rfl
@[simp] theorem State.afterReadFault_ostream (start : Nat) :
    (s.afterReadFault start).ostream = s.ostream := rfl
@[simp] theorem State.afterReadFault_wpos (start : Nat) :
    (s.afterReadFault start).wpos = s.wpos := rfl
@[simp] theorem State.afterReadFault_istream (start : Nat) :
    (s.afterReadFault start).istream = s.istream := rfl
@[simp] theorem State.afterReadFault_rpos (start : Nat) :
    (s.afterReadFault start).rpos = s.faultRpos start := rfl
@[simp] theorem State.afterReadFault_supply (start : Nat) :
    (s.afterReadFault start).supply = s.supply := rfl
@[simp] theorem State.afterReadFault_history (start : Nat) :
    (s.afterReadFault start).history = s.history := rfl
@[simp] theorem State.afterReadFault_rsp (start : Nat) : (s.afterReadFault start).rsp = s.rsp := rfl
@[simp] theorem State.afterReadFault_inbox (start : Nat) :
    (s.afterReadFault start).inbox = s.inbox := rfl
@[simp] theorem State.afterReadFault_oracle (start : Nat) :
    (s.afterReadFault start).oracle = { s.oracle with rpos := s.oracle.rpos.tail } := rfl
@[simp] theorem State.afterReadFault_freeCtr (start : Nat) :
    (s.afterReadFault start).freeCtr = s.freeCtr := rfl

/-! ### setIn -/

@[simp] theorem State.setIn_cfg (bytes supply : List Byte) :
    (s.setIn bytes supply).cfg = s.cfg := rfl
@[simp] theorem State.setIn_exceptCnt (bytes supply : List Byte) :
    (s.setIn bytes supply).exceptCnt = s.exceptCnt := rfl
@[simp] theorem State.setIn_fault (bytes supply : List Byte) :
    (s.setIn bytes supply).fault = s.fault := rfl
@[simp] theorem State.setIn_cause (bytes supply : List Byte) :
    (s.setIn bytes supply).cause = s.cause := rfl
@[simp] theorem State.setIn_eos (bytes supply : List Byte) :
    (s.setIn bytes supply).eos = s.eos := rfl
@[simp] theorem State.setIn_rstate (bytes supply : List Byte) :
    (s.setIn bytes supply).rstate = s.rstate := rfl
@[simp] theorem State.setIn_win0 (bytes supply : List Byte) :
    (s.setIn bytes supply).win0 = s.win0 := rfl
@[simp] theorem State.setIn_win1 (bytes supply : List Byte) :
    (s.setIn bytes supply).win1 = s.win1 := rfl
@[simp] theorem State.setIn_win2 (bytes supply : List Byte) :
    (s.setIn bytes supply).win2 = s.win2 := rfl
@[simp] theorem State.setIn_wcnt (bytes supply : List Byte) :
    (s.setIn bytes supply).wcnt = s.wcnt := rfl
@[simp] theorem State.setIn_spos (bytes supply : List Byte) :
    (s.setIn bytes supply).spos = s.spos := rfl
@[simp] theorem State.setIn_spLen (bytes supply : List Byte) :
    (s.setIn bytes supply).spLen = s.spLen := rfl
@[simp] theorem State.setIn_spCur (bytes supply : List Byte) :
    (s.setIn bytes supply).spCur = s.spCur := rfl
@[simp] theorem State.setIn_spFirst (bytes supply : List Byte) :
    (s.setIn bytes supply).spFirst = s.spFirst := rfl
@[simp] theorem State.setIn_spActive (bytes supply : List Byte) :
    (s.setIn bytes supply).spActive = s.spActive := rfl
@[simp] theorem State.setIn_pbuf (bytes supply : List Byte) :
    (s.setIn bytes supply).pbuf = s.pbuf := rfl
@[simp] theorem State.setIn_rbuf (bytes supply : List Byte) :
    (s.setIn bytes supply).rbuf = s.rbuf := rfl
@[simp] theorem State.setIn_ostream (bytes supply : List Byte) :
    (s.setIn bytes supply).ostream = s.ostream := rfl
@[simp] theorem State.setIn_wpos (bytes supply : List Byte) :
    (s.setIn bytes supply).wpos = s.wpos := rfl
@[simp] theorem State.setIn_istream (bytes supply : List Byte) :
    (s.setIn bytes supply).istream = bytes := rfl
@[simp] theorem State.setIn_rpos (bytes supply : List Byte) : (s.setIn bytes supply).rpos = 0 := rfl
@[simp] theorem State.setIn_supply (bytes supply : List Byte) :
    (s.setIn bytes supply).supply = supply := rfl
@[simp] theorem State.setIn_history (bytes supply : List Byte) :
    (s.setIn bytes supply).history = s.history := rfl
@[simp] theorem State.setIn_rsp (bytes supply : List Byte) :
    (s.setIn bytes supply).rsp = s.rsp := rfl
@[simp] theorem State.setIn_inbox (bytes supply : List Byte) :
    (s.setIn bytes supply).inbox = s.inbox := rfl
@[simp] theorem State.setIn_oracle (bytes supply : List Byte) :
    (s.setIn bytes supply).oracle = s.oracle := rfl
@[simp] theorem State.setIn_freeCtr (bytes supply : List Byte) :
    (s.setIn bytes supply).freeCtr = s.freeCtr := rfl

/-! ### queue -/

@[simp] theorem State.queue_cfg (as : List HostAction) : (s.queue as).cfg = s.cfg := rfl
@[simp] theorem State.queue_exceptCnt (as : List HostAction) :
    (s.queue as).exceptCnt = s.exceptCnt := rfl
@[simp] theorem State.queue_fault (as : List HostAction) : (s.queue as).fault = s.fault := rfl
@[simp] theorem State.queue_cause (as : List HostAction) : (s.queue as).cause = s.cause := rfl
@[simp] theorem State.queue_eos (as : List HostAction) : (s.queue as).eos = s.eos := rfl
@[simp] theorem State.queue_rstate (as : List HostAction) : (s.queue as).rstate = s.rstate := rfl
@[simp] theorem State.queue_win0 (as : List HostAction) : (s.queue as).win0 = s.win0 := rfl
@[simp] theorem State.queue_win1 (as : List HostAction) : (s.queue as).win1 = s.win1 := rfl
@[simp] theorem State.queue_win2 (as : List HostAction) : (s.queue as).win2 = s.win2 := rfl
@[simp] theorem State.queue_wcnt (as : List HostAction) : (s.queue as).wcnt = s.wcnt := rfl
@[simp] theorem State.queue_spos (as : List HostAction) : (s.queue as).spos = s.spos := rfl
@[simp] theorem State.queue_spLen (as : List HostAction) : (s.queue as).spLen = s.spLen := rfl
@[simp] theorem State.queue_spCur (as : List HostAction) : (s.queue as).spCur = s.spCur := rfl
@[simp] theorem State.queue_spFirst (as : List HostAction) : (s.queue as).spFirst = s.spFirst := rfl
@[simp] theorem State.queue_spActive (as : List HostAction) :
    (s.queue as).spActive = s.spActive := rfl
@[simp] theorem State.queue_pbuf (as : List HostAction) : (s.queue as).pbuf = s.pbuf := rfl
@[simp] theorem State.queue_rbuf (as : List HostAction) : (s.queue as).rbuf = s.rbuf := rfl
@[simp] theorem State.queue_ostream (as : List HostAction) : (s.queue as).ostream = s.ostream := rfl
@[simp] theorem State.queue_wpos (as : List HostAction) : (s.queue as).wpos = s.wpos := rfl
@[simp] theorem State.queue_istream (as : List HostAction) : (s.queue as).istream = s.istream := rfl
@[simp] theorem State.queue_rpos (as : List HostAction) : (s.queue as).rpos = s.rpos := rfl
@[simp] theorem State.queue_supply (as : List HostAction) : (s.queue as).supply = s.supply := rfl
@[simp] theorem State.queue_history (as : List HostAction) : (s.queue as).history = s.history := rfl
@[simp] theorem State.queue_rsp (as : List HostAction) : (s.queue as).rsp = s.rsp := rfl
@[simp] theorem State.queue_inbox (as : List HostAction) : (s.queue as).inbox = as ++ s.inbox := rfl
@[simp] theorem State.queue_oracle (as : List HostAction) : (s.queue as).oracle = s.oracle := rfl
@[simp] theorem State.queue_freeCtr (as : List HostAction) : (s.queue as).freeCtr = s.freeCtr := rfl

/-! ### loseRbuf -/

@[simp] theorem State.loseRbuf_cfg : (s.loseRbuf).cfg = s.cfg := rfl
@[simp] theorem State.loseRbuf_exceptCnt : (s.loseRbuf).exceptCnt = s.exceptCnt := rfl
@[simp] theorem State.loseRbuf_fault : (s.loseRbuf).fault = s.fault := rfl
@[simp] theorem State.loseRbuf_cause : (s.loseRbuf).cause = s.cause := rfl
@[simp] theorem State.loseRbuf_eos : (s.loseRbuf).eos = s.eos := rfl
@[simp] theorem State.loseRbuf_rstate : (s.loseRbuf).rstate = s.rstate := rfl
@[simp] theorem State.loseRbuf_win0 : (s.loseRbuf).win0 = s.win0 := rfl
@[simp] theorem State.loseRbuf_win1 : (s.loseRbuf).win1 = s.win1 := rfl
@[simp] theorem State.loseRbuf_win2 : (s.loseRbuf).win2 = s.win2 := rfl
@[simp] theorem State.loseRbuf_wcnt : (s.loseRbuf).wcnt = s.wcnt := rfl
@[simp] theorem State.loseRbuf_spos : (s.loseRbuf).spos = s.spos := rfl
@[simp] theorem State.loseRbuf_spLen : (s.loseRbuf).spLen = s.spLen := rfl
@[simp] theorem State.loseRbuf_spCur : (s.loseRbuf).spCur = s.spCur := rfl
@[simp] theorem State.loseRbuf_spFirst : (s.loseRbuf).spFirst = s.spFirst := rfl
@[simp] theorem State.loseRbuf_spActive : (s.loseRbuf).spActive = s.spActive := rfl
@[simp] theorem State.loseRbuf_pbuf : (s.loseRbuf).pbuf = s.pbuf := rfl
@[simp] theorem State.loseRbuf_rbuf :
    (s.loseRbuf).rbuf = (Config.freeRbuf s.freeCtr).take s.cfg.rbufCap := rfl
@[simp] theorem State.loseRbuf_ostream : (s.loseRbuf).ostream = s.ostream := rfl
@[simp] theorem State.loseRbuf_wpos : (s.loseRbuf).wpos = s.wpos := rfl
@[simp] theorem State.loseRbuf_istream : (s.loseRbuf).istream = s.istream := rfl
@[simp] theorem State.loseRbuf_rpos : (s.loseRbuf).rpos = s.rpos := rfl
@[simp] theorem State.loseRbuf_supply : (s.loseRbuf).supply = s.supply := rfl
@[simp] theorem State.loseRbuf_history : (s.loseRbuf).history = s.history := rfl
@[simp] theorem State.loseRbuf_rsp : (s.loseRbuf).rsp = s.rsp := rfl
@[simp] theorem State.loseRbuf_inbox : (s.loseRbuf).inbox = s.inbox := rfl
@[simp] theorem State.loseRbuf_oracle : (s.loseRbuf).oracle = s.oracle := rfl
@[simp] theorem State.loseRbuf_freeCtr : (s.loseRbuf).freeCtr = s.freeCtr + 1 := rfl

/-! ### drawFree -/

@[simp] theorem State.drawFree_cfg : (s.drawFree).cfg = s.cfg := rfl
@[simp] theorem State.drawFree_exceptCnt : (s.drawFree).exceptCnt = s.exceptCnt := rfl
@[simp] theorem State.drawFree_fault : (s.drawFree).fault = s.fault := rfl
@[simp] theorem State.drawFree_cause : (s.drawFree).cause = s.cause := rfl
@[simp] theorem State.drawFree_eos : (s.drawFree).eos = s.eos := rfl
@[simp] theorem State.drawFree_rstate : (s.drawFree).rstate = s.rstate := rfl
@[simp] theorem State.drawFree_win0 : (s.drawFree).win0 = s.win0 := rfl
@[simp] theorem State.drawFree_win1 : (s.drawFree).win1 = s.win1 := rfl
@[simp] theorem State.drawFree_win2 : (s.drawFree).win2 = s.win2 := rfl
@[simp] theorem State.drawFree_wcnt : (s.drawFree).wcnt = s.wcnt := rfl
@[simp] theorem State.drawFree_spos : (s.drawFree).spos = s.spos := rfl
@[simp] theorem State.drawFree_spLen : (s.drawFree).spLen = s.spLen := rfl
@[simp] theorem State.drawFree_spCur : (s.drawFree).spCur = s.spCur := rfl
@[simp] theorem State.drawFree_spFirst : (s.drawFree).spFirst = s.spFirst := rfl
@[simp] theorem State.drawFree_spActive : (s.drawFree).spActive = s.spActive := rfl
@[simp] theorem State.drawFree_pbuf : (s.drawFree).pbuf = s.pbuf := rfl
@[simp] theorem State.drawFree_rbuf : (s.drawFree).rbuf = s.rbuf := rfl
@[simp] theorem State.drawFree_ostream : (s.drawFree).ostream = s.ostream := rfl
@[simp] theorem State.drawFree_wpos : (s.drawFree).wpos = s.wpos := rfl
@[simp] theorem State.drawFree_istream : (s.drawFree).istream = s.istream := rfl
@[simp] theorem State.drawFree_rpos : (s.drawFree).rpos = s.rpos := rfl
@[simp] theorem State.drawFree_supply : (s.drawFree).supply = s.supply := rfl
@[simp] theorem State.drawFree_history : (s.drawFree).history = s.history := rfl
@[simp] theorem State.drawFree_rsp : (s.drawFree).rsp = s.rsp := rfl
@[simp] theorem State.drawFree_inbox : (s.drawFree).inbox = s.inbox := rfl
@[simp] theorem State.drawFree_oracle : (s.drawFree).oracle = s.oracle := rfl
@[simp] theorem State.drawFree_freeCtr : (s.drawFree).freeCtr = s.freeCtr + 1 := rfl

/-! ### refill -/

@[simp] theorem State.refill_cfg (n : Nat) : (s.refill n).cfg = s.cfg := rfl
@[simp] theorem State.refill_exceptCnt (n : Nat) : (s.refill n).exceptCnt = s.exceptCnt := rfl
@[simp] theorem State.refill_fault (n : Nat) : (s.refill n).fault = s.fault := rfl
@[simp] theorem State.refill_cause (n : Nat) : (s.refill n).cause = s.cause := rfl
@[simp] theorem State.refill_eos (n : Nat) : (s.refill n).eos = s.eos := rfl
@[simp] theorem State.refill_rstate (n : Nat) : (s.refill n).rstate = s.rstate := rfl
@[simp] theorem State.refill_win0 (n : Nat) : (s.refill n).win0 = s.win0 := rfl
@[simp] theorem State.refill_win1 (n : Nat) : (s.refill n).win1 = s.win1 := rfl
@[simp] theorem State.refill_win2 (n : Nat) : (s.refill n).win2 = s.win2 := rfl
@[simp] theorem State.refill_wcnt (n : Nat) : (s.refill n).wcnt = s.wcnt := rfl
@[simp] theorem State.refill_spos (n : Nat) : (s.refill n).spos = s.spos := rfl
@[simp] theorem State.refill_spLen (n : Nat) : (s.refill n).spLen = s.spLen := rfl
@[simp] theorem State.refill_spCur (n : Nat) : (s.refill n).spCur = s.spCur := rfl
@[simp] theorem State.refill_spFirst (n : Nat) : (s.refill n).spFirst = s.spFirst := rfl
@[simp] theorem State.refill_spActive (n : Nat) : (s.refill n).spActive = s.spActive := rfl
@[simp] theorem State.refill_pbuf (n : Nat) : (s.refill n).pbuf = s.pbuf := rfl
@[simp] theorem State.refill_rbuf (n : Nat) : (s.refill n).rbuf = s.rbuf := rfl
@[simp] theorem State.refill_ostream (n : Nat) : (s.refill n).ostream = s.ostream := rfl
@[simp] theorem State.refill_wpos (n : Nat) : (s.refill n).wpos = s.wpos := rfl
@[simp] theorem State.refill_istream (n : Nat) :
    (s.refill n).istream = s.istream ++ handed s.supply
      ((s.rpos + n - s.istream.length + s.supply.length - 1) / s.supply.length) := rfl
@[simp] theorem State.refill_rpos (n : Nat) : (s.refill n).rpos = s.rpos := rfl
@[simp] theorem State.refill_supply (n : Nat) : (s.refill n).supply = s.supply := rfl
@[simp] theorem State.refill_history (n : Nat) : (s.refill n).history = s.history := rfl
@[simp] theorem State.refill_rsp (n : Nat) : (s.refill n).rsp = s.rsp := rfl
@[simp] theorem State.refill_inbox (n : Nat) : (s.refill n).inbox = s.inbox := rfl
@[simp] theorem State.refill_oracle (n : Nat) : (s.refill n).oracle = s.oracle := rfl
@[simp] theorem State.refill_freeCtr (n : Nat) : (s.refill n).freeCtr = s.freeCtr := rfl

/-! ### latch, refuse, raise -/

@[simp] theorem State.latch_cfg (c : Cause) : (s.latch c).cfg = s.cfg := by
  unfold State.latch; split <;> rfl
@[simp] theorem State.latch_exceptCnt (c : Cause) : (s.latch c).exceptCnt = s.exceptCnt := by
  unfold State.latch; split <;> rfl
@[simp] theorem State.latch_eos (c : Cause) : (s.latch c).eos = s.eos := by
  unfold State.latch; split <;> rfl
@[simp] theorem State.latch_rstate (c : Cause) : (s.latch c).rstate = s.rstate := by
  unfold State.latch; split <;> rfl
@[simp] theorem State.latch_win0 (c : Cause) : (s.latch c).win0 = s.win0 := by
  unfold State.latch; split <;> rfl
@[simp] theorem State.latch_win1 (c : Cause) : (s.latch c).win1 = s.win1 := by
  unfold State.latch; split <;> rfl
@[simp] theorem State.latch_win2 (c : Cause) : (s.latch c).win2 = s.win2 := by
  unfold State.latch; split <;> rfl
@[simp] theorem State.latch_wcnt (c : Cause) : (s.latch c).wcnt = s.wcnt := by
  unfold State.latch; split <;> rfl
@[simp] theorem State.latch_spos (c : Cause) : (s.latch c).spos = s.spos := by
  unfold State.latch; split <;> rfl
@[simp] theorem State.latch_spLen (c : Cause) : (s.latch c).spLen = s.spLen := by
  unfold State.latch; split <;> rfl
@[simp] theorem State.latch_spCur (c : Cause) : (s.latch c).spCur = s.spCur := by
  unfold State.latch; split <;> rfl
@[simp] theorem State.latch_spFirst (c : Cause) : (s.latch c).spFirst = s.spFirst := by
  unfold State.latch; split <;> rfl
@[simp] theorem State.latch_spActive (c : Cause) : (s.latch c).spActive = s.spActive := by
  unfold State.latch; split <;> rfl
@[simp] theorem State.latch_pbuf (c : Cause) : (s.latch c).pbuf = s.pbuf := by
  unfold State.latch; split <;> rfl
@[simp] theorem State.latch_rbuf (c : Cause) : (s.latch c).rbuf = s.rbuf := by
  unfold State.latch; split <;> rfl
@[simp] theorem State.latch_ostream (c : Cause) : (s.latch c).ostream = s.ostream := by
  unfold State.latch; split <;> rfl
@[simp] theorem State.latch_wpos (c : Cause) : (s.latch c).wpos = s.wpos := by
  unfold State.latch; split <;> rfl
@[simp] theorem State.latch_istream (c : Cause) : (s.latch c).istream = s.istream := by
  unfold State.latch; split <;> rfl
@[simp] theorem State.latch_rpos (c : Cause) : (s.latch c).rpos = s.rpos := by
  unfold State.latch; split <;> rfl
@[simp] theorem State.latch_supply (c : Cause) : (s.latch c).supply = s.supply := by
  unfold State.latch; split <;> rfl
@[simp] theorem State.latch_history (c : Cause) : (s.latch c).history = s.history := by
  unfold State.latch; split <;> rfl
@[simp] theorem State.latch_rsp (c : Cause) : (s.latch c).rsp = s.rsp := by
  unfold State.latch; split <;> rfl
@[simp] theorem State.latch_inbox (c : Cause) : (s.latch c).inbox = s.inbox := by
  unfold State.latch; split <;> rfl
@[simp] theorem State.latch_oracle (c : Cause) : (s.latch c).oracle = s.oracle := by
  unfold State.latch; split <;> rfl
@[simp] theorem State.latch_freeCtr (c : Cause) : (s.latch c).freeCtr = s.freeCtr := by
  unfold State.latch; split <;> rfl

/-- A latched fault stays (R26). -/
theorem State.latch_of_faulted {s : State} (h : s.fault ≠ .none) (c : Cause) : s.latch c = s := by
  simp [State.latch, h]

/-- With none latched, the fault is latched (R236). -/
theorem State.latch_of_clean {s : State} (h : s.fault = .none) (c : Cause) :
    s.latch c = { s with fault := c.kind, cause := c } := by simp [State.latch, h]

@[simp] theorem State.refuse_eq : s.refuse = s.respond .refused 0 0 := rfl

/-- `raise` in a state without a fault (R236). -/
theorem State.raise_of_clean {s : State} (h : s.fault = .none) (c : Cause) :
    s.raise c = { s with fault := c.kind, cause := c }.loseRbuf.respond c.kind.status 0 0 := by
  rw [State.raise, State.latch_of_clean h]

@[simp] theorem handed_empty (m : Nat) : handed [] m = [] := by simp [handed]

@[simp] theorem handed_zero (l : List Byte) : handed l 0 = [] := rfl

theorem handed_add (l : List Byte) (m n : Nat) : handed l (m + n) = handed l m ++ handed l n := by
  rw [handed, List.replicate_add, List.flatten_append]; rfl

theorem length_handed (l : List Byte) (m : Nat) : (handed l m).length = m * l.length := by
  simp [handed]

/-- A finite stream has nothing to be refilled with. -/
@[simp] theorem State.refill_finite {s : State} (h : s.supply = []) (n : Nat) : s.refill n = s := by
  rw [State.refill, h, handed_empty, List.append_nil, ← h]

/-- A stream that has the bytes asked for ready is left as it is. -/
theorem State.refill_of_le {s : State} {n : Nat} (h : s.rpos + n ≤ s.istream.length) :
    s.refill n = s := by
  rcases Nat.eq_zero_or_pos s.supply.length with h0 | h0
  · exact State.refill_finite (List.length_eq_zero_iff.1 h0) n
  · have : (s.rpos + n - s.istream.length + s.supply.length - 1) / s.supply.length = 0 :=
      Nat.div_eq_of_lt (by omega)
    rw [State.refill, this, handed_zero, List.append_nil]

/-! ### nextWrite, nextRead: only the environment's list changes -/

@[simp] theorem State.nextWrite_cfg : s.nextWrite.2.cfg = s.cfg := by
  unfold State.nextWrite; split <;> rfl
@[simp] theorem State.nextWrite_exceptCnt : s.nextWrite.2.exceptCnt = s.exceptCnt := by
  unfold State.nextWrite; split <;> rfl
@[simp] theorem State.nextWrite_fault : s.nextWrite.2.fault = s.fault := by
  unfold State.nextWrite; split <;> rfl
@[simp] theorem State.nextWrite_cause : s.nextWrite.2.cause = s.cause := by
  unfold State.nextWrite; split <;> rfl
@[simp] theorem State.nextWrite_eos : s.nextWrite.2.eos = s.eos := by
  unfold State.nextWrite; split <;> rfl
@[simp] theorem State.nextWrite_rstate : s.nextWrite.2.rstate = s.rstate := by
  unfold State.nextWrite; split <;> rfl
@[simp] theorem State.nextWrite_win0 : s.nextWrite.2.win0 = s.win0 := by
  unfold State.nextWrite; split <;> rfl
@[simp] theorem State.nextWrite_win1 : s.nextWrite.2.win1 = s.win1 := by
  unfold State.nextWrite; split <;> rfl
@[simp] theorem State.nextWrite_win2 : s.nextWrite.2.win2 = s.win2 := by
  unfold State.nextWrite; split <;> rfl
@[simp] theorem State.nextWrite_wcnt : s.nextWrite.2.wcnt = s.wcnt := by
  unfold State.nextWrite; split <;> rfl
@[simp] theorem State.nextWrite_spos : s.nextWrite.2.spos = s.spos := by
  unfold State.nextWrite; split <;> rfl
@[simp] theorem State.nextWrite_spLen : s.nextWrite.2.spLen = s.spLen := by
  unfold State.nextWrite; split <;> rfl
@[simp] theorem State.nextWrite_spCur : s.nextWrite.2.spCur = s.spCur := by
  unfold State.nextWrite; split <;> rfl
@[simp] theorem State.nextWrite_spFirst : s.nextWrite.2.spFirst = s.spFirst := by
  unfold State.nextWrite; split <;> rfl
@[simp] theorem State.nextWrite_spActive : s.nextWrite.2.spActive = s.spActive := by
  unfold State.nextWrite; split <;> rfl
@[simp] theorem State.nextWrite_pbuf : s.nextWrite.2.pbuf = s.pbuf := by
  unfold State.nextWrite; split <;> rfl
@[simp] theorem State.nextWrite_rbuf : s.nextWrite.2.rbuf = s.rbuf := by
  unfold State.nextWrite; split <;> rfl
@[simp] theorem State.nextWrite_ostream : s.nextWrite.2.ostream = s.ostream := by
  unfold State.nextWrite; split <;> rfl
@[simp] theorem State.nextWrite_wpos : s.nextWrite.2.wpos = s.wpos := by
  unfold State.nextWrite; split <;> rfl
@[simp] theorem State.nextWrite_istream : s.nextWrite.2.istream = s.istream := by
  unfold State.nextWrite; split <;> rfl
@[simp] theorem State.nextWrite_rpos : s.nextWrite.2.rpos = s.rpos := by
  unfold State.nextWrite; split <;> rfl
@[simp] theorem State.nextWrite_supply : s.nextWrite.2.supply = s.supply := by
  unfold State.nextWrite; split <;> rfl
@[simp] theorem State.nextWrite_history : s.nextWrite.2.history = s.history := by
  unfold State.nextWrite; split <;> rfl
@[simp] theorem State.nextWrite_rsp : s.nextWrite.2.rsp = s.rsp := by
  unfold State.nextWrite; split <;> rfl
@[simp] theorem State.nextWrite_inbox : s.nextWrite.2.inbox = s.inbox := by
  unfold State.nextWrite; split <;> rfl
@[simp] theorem State.nextWrite_freeCtr : s.nextWrite.2.freeCtr = s.freeCtr := by
  unfold State.nextWrite; split <;> rfl

@[simp] theorem State.nextWrite_oracle_reads : s.nextWrite.2.oracle.reads = s.oracle.reads := by
  unfold State.nextWrite; split <;> rfl
@[simp] theorem State.nextWrite_oracle_rpos : s.nextWrite.2.oracle.rpos = s.oracle.rpos := by
  unfold State.nextWrite; split <;> rfl
@[simp] theorem State.nextWrite_oracle_writes :
    s.nextWrite.2.oracle.writes = s.oracle.writes.tail := by
  unfold State.nextWrite; split <;> simp [*]

@[simp] theorem State.nextRead_cfg : s.nextRead.2.cfg = s.cfg := by
  unfold State.nextRead; split <;> rfl
@[simp] theorem State.nextRead_exceptCnt : s.nextRead.2.exceptCnt = s.exceptCnt := by
  unfold State.nextRead; split <;> rfl
@[simp] theorem State.nextRead_fault : s.nextRead.2.fault = s.fault := by
  unfold State.nextRead; split <;> rfl
@[simp] theorem State.nextRead_cause : s.nextRead.2.cause = s.cause := by
  unfold State.nextRead; split <;> rfl
@[simp] theorem State.nextRead_eos : s.nextRead.2.eos = s.eos := by
  unfold State.nextRead; split <;> rfl
@[simp] theorem State.nextRead_rstate : s.nextRead.2.rstate = s.rstate := by
  unfold State.nextRead; split <;> rfl
@[simp] theorem State.nextRead_win0 : s.nextRead.2.win0 = s.win0 := by
  unfold State.nextRead; split <;> rfl
@[simp] theorem State.nextRead_win1 : s.nextRead.2.win1 = s.win1 := by
  unfold State.nextRead; split <;> rfl
@[simp] theorem State.nextRead_win2 : s.nextRead.2.win2 = s.win2 := by
  unfold State.nextRead; split <;> rfl
@[simp] theorem State.nextRead_wcnt : s.nextRead.2.wcnt = s.wcnt := by
  unfold State.nextRead; split <;> rfl
@[simp] theorem State.nextRead_spos : s.nextRead.2.spos = s.spos := by
  unfold State.nextRead; split <;> rfl
@[simp] theorem State.nextRead_spLen : s.nextRead.2.spLen = s.spLen := by
  unfold State.nextRead; split <;> rfl
@[simp] theorem State.nextRead_spCur : s.nextRead.2.spCur = s.spCur := by
  unfold State.nextRead; split <;> rfl
@[simp] theorem State.nextRead_spFirst : s.nextRead.2.spFirst = s.spFirst := by
  unfold State.nextRead; split <;> rfl
@[simp] theorem State.nextRead_spActive : s.nextRead.2.spActive = s.spActive := by
  unfold State.nextRead; split <;> rfl
@[simp] theorem State.nextRead_pbuf : s.nextRead.2.pbuf = s.pbuf := by
  unfold State.nextRead; split <;> rfl
@[simp] theorem State.nextRead_rbuf : s.nextRead.2.rbuf = s.rbuf := by
  unfold State.nextRead; split <;> rfl
@[simp] theorem State.nextRead_ostream : s.nextRead.2.ostream = s.ostream := by
  unfold State.nextRead; split <;> rfl
@[simp] theorem State.nextRead_wpos : s.nextRead.2.wpos = s.wpos := by
  unfold State.nextRead; split <;> rfl
@[simp] theorem State.nextRead_istream : s.nextRead.2.istream = s.istream := by
  unfold State.nextRead; split <;> rfl
@[simp] theorem State.nextRead_rpos : s.nextRead.2.rpos = s.rpos := by
  unfold State.nextRead; split <;> rfl
@[simp] theorem State.nextRead_supply : s.nextRead.2.supply = s.supply := by
  unfold State.nextRead; split <;> rfl
@[simp] theorem State.nextRead_history : s.nextRead.2.history = s.history := by
  unfold State.nextRead; split <;> rfl
@[simp] theorem State.nextRead_rsp : s.nextRead.2.rsp = s.rsp := by
  unfold State.nextRead; split <;> rfl
@[simp] theorem State.nextRead_inbox : s.nextRead.2.inbox = s.inbox := by
  unfold State.nextRead; split <;> rfl
@[simp] theorem State.nextRead_freeCtr : s.nextRead.2.freeCtr = s.freeCtr := by
  unfold State.nextRead; split <;> rfl

@[simp] theorem State.nextRead_oracle_writes : s.nextRead.2.oracle.writes = s.oracle.writes := by
  unfold State.nextRead; split <;> rfl
@[simp] theorem State.nextRead_oracle_rpos : s.nextRead.2.oracle.rpos = s.oracle.rpos := by
  unfold State.nextRead; split <;> rfl
@[simp] theorem State.nextRead_oracle_reads : s.nextRead.2.oracle.reads = s.oracle.reads.tail := by
  unfold State.nextRead; split <;> simp [*]

end Sys2Proof.Machine
end

