-- ==== Sys2Proof/Laws/Ops.lean ====
section
/-! SUPPORT. What the shared operations can do, said once: the operand checks, sequencing of bodies, and
the frame of an operation. -/

namespace Sys2Proof.Machine

/-! ### Widths (00_scope R6) and operand checks (30_encoding R91) -/

theorem lenMax_eq : lenMax = 1073741823 := rfl

/-- A register as wide as its word counts as the word does (R24, R29). -/
theorem wrapTo_word (a : Word) (n : Nat) : wrapTo 64 (a.toNat + n) = a + BitVec.ofNat 64 n := by
  apply BitVec.eq_of_toNat_eq
  simp [wrapTo]

/-- A counted value stays below its width. -/
theorem wrapTo_lt (w n : Nat) : (wrapTo w n).toNat < 2 ^ w := by
  have h := Nat.mod_lt n (Nat.two_pow_pos w)
  rw [wrapTo, BitVec.toNat_ofNat]
  exact lt_of_le_of_lt (Nat.mod_le _ _) h

theorem wrapTo_toNat {w : Nat} (hw : w ≤ 64) (n : Nat) : (wrapTo w n).toNat = n % 2 ^ w := by
  rw [wrapTo, BitVec.toNat_ofNat]
  exact Nat.mod_eq_of_lt
    (lt_of_lt_of_le (Nat.mod_lt _ (Nat.two_pow_pos w)) (Nat.pow_le_pow_right (by omega) hw))

@[simp] theorem fitsWord32_iff (a : Word) : fitsWord32 a = true ↔ a.toNat < 2 ^ 32 := by
  simp [fitsWord32, wordBits]

@[simp] theorem fitsByte_iff (a : Word) : fitsByte a = true ↔ a.toNat < 256 := by simp [fitsByte]

@[simp] theorem fitsLength_iff (a : Word) : fitsLength a = true ↔ a.toNat < 2 ^ 30 := by
  rw [fitsLength, decide_eq_true_eq, lenMax_eq]; omega

@[simp] theorem fitsFlag_iff (a : Word) : fitsFlag a = true ↔ a.toNat < 4 := by
  simp [fitsFlag, flagBits]

@[simp] theorem fitsPbuf_iff (c : Config) (a : Word) : fitsPbuf c a = true ↔ a.toNat ≤ c.pbufCap := by
  simp [fitsPbuf]

/-! ### Sequencing -/

section Bind

variable {α β γ : Type}

@[simp] theorem Res.bind_ok (a : α) (s : State) (k : α → State → Res β) :
    (Res.ok a s).bind k = k a s := rfl

@[simp] theorem Res.bind_refuse (k : α → State → Res β) : (Res.refuse : Res α).bind k = .refuse := rfl

@[simp] theorem Res.bind_raised (c : Cause) (s : State) (k : α → State → Res β) :
    (Res.raised c s : Res α).bind k = .raised c s := rfl

@[simp] theorem Res.bind_cut (s : State) (k : α → State → Res β) :
    (Res.cut s : Res α).bind k = .cut s := rfl

@[simp] theorem Res.bind_stuck (f : Fault) (k : α → State → Res β) :
    (Res.stuck f : Res α).bind k = .stuck f := rfl

@[simp] theorem Res.bind_outside (f : Refusal) (k : α → State → Res β) :
    (Res.outside f : Res α).bind k = .outside f := rfl

theorem Res.bind_assoc (r : Res α) (k : α → State → Res β) (l : β → State → Res γ) :
    (r.bind k).bind l = r.bind fun a s => (k a s).bind l := by cases r <;> rfl

/-- A sequence ends normally exactly when both parts do. -/
theorem Res.bind_eq_ok {r : Res α} {k : α → State → Res β} {b : β} {t : State} :
    r.bind k = .ok b t ↔ ∃ a s, r = .ok a s ∧ k a s = .ok b t := by
  cases r <;> simp

/-- A sequence raises exactly when its first part does, or its second after the first. -/
theorem Res.bind_eq_raised {r : Res α} {k : α → State → Res β} {c : Cause} {t : State} :
    r.bind k = .raised c t ↔ r = .raised c t ∨ ∃ a s, r = .ok a s ∧ k a s = .raised c t := by
  cases r <;> simp

theorem Res.bind_eq_cut {r : Res α} {k : α → State → Res β} {t : State} :
    r.bind k = .cut t ↔ r = .cut t ∨ ∃ a s, r = .ok a s ∧ k a s = .cut t := by
  cases r <;> simp

/-- What holds of every state a part ends in, and of every state its continuation ends in from
there, holds of every state the sequence ends in. -/
def Res.All (Q : State → Prop) : Res α → Prop
  | .ok _ t => Q t
  | .raised _ t => Q t
  | .cut t => Q t
  | _ => True

theorem Res.All.bind {Q : State → Prop} {r : Res α} {k : α → State → Res β} (h : r.All Q)
    (hk : ∀ a t, r = .ok a t → Q t → (k a t).All Q) : (r.bind k).All Q := by
  cases r with
  | ok a t => exact hk a t rfl h
  | _ => exact h

theorem Res.All.mono {Q Q' : State → Prop} {r : Res α} (h : r.All Q) (hq : ∀ t, Q t → Q' t) :
    r.All Q' := by
  cases r <;> first | exact hq _ h | trivial

end Bind

/-! ### The frame of an operation -/

@[simp] theorem conclude_ok (s t : State) (r : Word × Word) :
    conclude s (.ok r t) = .next (t.respond .ok r.1 r.2) := rfl

@[simp] theorem conclude_refuse (s : State) : conclude s .refuse = .next (s.respond .refused 0 0) := rfl

@[simp] theorem conclude_raised (s t : State) (c : Cause) :
    conclude s (.raised c t) = .next (t.raise c) := rfl

@[simp] theorem conclude_cut (s t : State) : conclude s (.cut t) = .next t.hwReset := rfl

@[simp] theorem conclude_stuck (s : State) (f : Fault) : conclude s (.stuck f) = .fault f := rfl

@[simp] theorem conclude_outside (s : State) (f : Refusal) : conclude s (.outside f) = .refused f := rfl

theorem runOp_of_clean {s : State} (h : s.fault = .none) (body : State → Res (Word × Word)) :
    runOp s body = conclude s (body s) := by simp [runOp, h]

theorem runOp_of_faulted {s : State} (h : s.fault ≠ .none) (body : State → Res (Word × Word)) :
    runOp s body = .next (s.respond .refused 0 0) := by simp [runOp, h]

/-- Everything `conclude` can answer as a next state. -/
theorem conclude_next {s t : State} {r : Res (Word × Word)} (h : conclude s r = .next t) :
    (∃ r0 r1 u, r = .ok (r0, r1) u ∧ t = u.respond .ok r0 r1) ∨
    (r = .refuse ∧ t = s.respond .refused 0 0) ∨
    (∃ c u, r = .raised c u ∧ t = u.raise c) ∨ ∃ u, r = .cut u ∧ t = u.hwReset := by
  cases r with
  | ok a u => exact .inl ⟨a.1, a.2, u, rfl, by simpa using h.symm⟩
  | refuse => exact .inr (.inl ⟨rfl, by simpa using h.symm⟩)
  | raised c u => exact .inr (.inr (.inl ⟨c, u, rfl, by simpa using h.symm⟩))
  | cut u => exact .inr (.inr (.inr ⟨u, rfl, by simpa using h.symm⟩))
  | stuck f => simp at h
  | outside f => simp at h

/-- Everything an operation can answer as a next state: refused with a fault latched, or the end of
its body. -/
theorem runOp_next {s t : State} {body : State → Res (Word × Word)} (h : runOp s body = .next t) :
    (s.fault ≠ .none ∧ t = s.respond .refused 0 0) ∨
    (s.fault = .none ∧ conclude s (body s) = .next t) := by
  by_cases hf : s.fault = .none
  · exact .inr ⟨hf, by rwa [runOp_of_clean hf] at h⟩
  · exact .inl ⟨hf, by simpa [runOp_of_faulted hf] using h.symm⟩

end Sys2Proof.Machine
end

