-- ==== Sys2Proof/Laws/Mscan.lean ====
section
/-! SUPPORT. The wire's byte order and the scanner's occurrences in the terms of `Sys2Proof.Safety`. -/

namespace Sys2Proof.Machine

@[simp] theorem ser32_length (o : ByteOrder) (v : Word32) : (ser32 o v).length = 4 := by
  cases o <;> rfl

/-- The four lanes together are the comparison with the magic field's bytes. -/
theorem startsMagic_iff (o : ByteOrder) (q : List Byte) :
    startsMagic o q = true ↔ q.take 4 = ser32 o magic := by
  match q with
  | [] => cases o <;> simp [startsMagic, ser32, le32]
  | [_] => cases o <;> simp [startsMagic, ser32, le32]
  | [_, _] => cases o <;> simp [startsMagic, ser32, le32]
  | [_, _, _] => cases o <;> simp [startsMagic, ser32, le32]
  | _ :: _ :: _ :: _ :: _ =>
    cases o <;> simp [startsMagic, isMagic, lane, magicByte, ser32, le32, and_assoc]

/-- An occurrence lies inside the payload. -/
theorem MagicAt.length_le {o : ByteOrder} {p : List Byte} {i : Nat} (h : MagicAt o p i) :
    i + 4 ≤ p.length := by
  have := congrArg List.length h
  simp at this; omega

theorem magicAt_cons (o : ByteOrder) (b : Byte) (p : List Byte) (i : Nat) :
    MagicAt o (b :: p) (i + 1) ↔ MagicAt o p i := by
  simp [MagicAt]

/-- What the scan lists, offsets counted from `i`. -/
theorem mem_occFrom (o : ByteOrder) (p : List Byte) (i j : Nat) :
    j ∈ occFrom o i p ↔ i ≤ j ∧ MagicAt o p (j - i) := by
  induction p generalizing i with
  | nil => cases o <;> simp [occFrom, MagicAt, ser32, le32]
  | cons b p ih =>
    have h0 : startsMagic o (b :: p) = true ↔ MagicAt o (b :: p) 0 := startsMagic_iff o (b :: p)
    have key : ∀ j, i + 1 ≤ j → (MagicAt o p (j - (i + 1)) ↔ MagicAt o (b :: p) (j - i)) := by
      intro j hj
      rw [show j - i = (j - (i + 1)) + 1 by omega, magicAt_cons]
    rw [occFrom]
    split
    · rename_i h
      rw [List.mem_cons, ih]
      constructor
      · rintro (rfl | ⟨h1, h2⟩)
        · exact ⟨le_refl _, by rw [Nat.sub_self]; exact h0.1 h⟩
        · exact ⟨by omega, (key j h1).1 h2⟩
      · rintro ⟨h1, h2⟩
        by_cases hj : j = i
        · exact .inl hj
        · exact .inr ⟨by omega, (key j (by omega)).2 h2⟩
    · rename_i h
      rw [ih]
      constructor
      · rintro ⟨h1, h2⟩
        exact ⟨by omega, (key j h1).1 h2⟩
      · rintro ⟨h1, h2⟩
        by_cases hj : j = i
        · subst hj; rw [Nat.sub_self] at h2; exact absurd (h0.2 h2) h
        · exact ⟨by omega, (key j (by omega)).2 h2⟩

theorem mem_occ {o : ByteOrder} {p : List Byte} {j : Nat} : j ∈ occ o p ↔ MagicAt o p j := by
  simp [occ, mem_occFrom]

end Sys2Proof.Machine
end

