-- ==== Sys2Proof/Laws/Packets.lean ====
section
/-! SUPPORT. The fields of a packet that was put together from them (30_encoding R88), as bit vectors and
as numbers. -/

namespace Sys2Proof

@[simp] theorem mkPacket_op (op : BitVec 8) (a1 a0 : Word) : (mkPacket op a1 a0).op = op := by
  apply BitVec.eq_of_getLsbD_eq
  intro i hi
  simp only [Packet.op, mkPacket, BitVec.getLsbD_extractLsb', BitVec.getLsbD_append]
  simp [hi, show ¬ 128 + i < 64 by omega, show ¬ 128 + i - 64 < 64 by omega,
    show 128 + i - 64 - 64 = i by omega]

@[simp] theorem mkPacket_a1 (op : BitVec 8) (a1 a0 : Word) : (mkPacket op a1 a0).a1 = a1 := by
  apply BitVec.eq_of_getLsbD_eq
  intro i hi
  simp only [Packet.a1, mkPacket, BitVec.getLsbD_extractLsb', BitVec.getLsbD_append]
  simp [hi]

@[simp] theorem mkPacket_a0 (op : BitVec 8) (a1 a0 : Word) : (mkPacket op a1 a0).a0 = a0 := by
  apply BitVec.eq_of_getLsbD_eq
  intro i hi
  simp only [Packet.a0, mkPacket, BitVec.getLsbD_extractLsb', BitVec.getLsbD_append]
  simp [hi]

/-- An append as a number: the high part weighs `2 ^ w`. -/
theorem toNat_append_eq {v w : Nat} (x : BitVec v) (y : BitVec w) :
    (x ++ y).toNat = x.toNat * 2 ^ w + y.toNat := by
  rw [BitVec.toNat_append, Nat.shiftLeft_eq, Nat.mul_comm, Nat.two_pow_add_eq_or_of_lt y.isLt]

end Sys2Proof
end

