-- ==== Sys2Proof/Laws/Split.lean ====
section
/-! SUPPORT. The splitter's functions: R152's recursion as the spec writes it, the flags by position, the
chunk's end, and the number an lrecord word and a descriptor are. -/

namespace Sys2Proof.Machine

/-- R152's recursion. -/
theorem pieces_eq {limit b e : Nat} (h : 1 ≤ limit) :
    pieces limit b e =
      if e - b ≤ limit then [(b, e - b)] else (b, limit) :: pieces limit (b + limit) e := by
  unfold pieces
  split
  · rename_i h1
    cases h2 : (e - b) / limit with
    | zero => rfl
    | succ n => rw [piecesUpTo, if_pos h1]
  · rename_i h1
    obtain ⟨k, hk⟩ : ∃ k, e - b = k + limit := ⟨e - b - limit, by omega⟩
    have : e - (b + limit) = k := by omega
    rw [this, hk, Nat.add_div_right _ h, piecesUpTo, if_neg (by omega)]

theorem withFlags_cons (f : Bool) (x : Nat × Nat) (l : List (Nat × Nat)) :
    withFlags f (x :: l) =
      { off := x.1, len := x.2, cflag := cflagOf f l.isEmpty } :: withFlags false l := by
  cases l <;> simp [withFlags]

/-- Flags do not move a chunk. -/
theorem withFlags_map (f : Bool) (l : List (Nat × Nat)) :
    (withFlags f l).map (fun x => (x.off, x.len)) = l := by
  induction l generalizing f with
  | nil => rfl
  | cons x l ih => rw [withFlags_cons, List.map_cons, ih]

theorem chunkEnd_eq (limit cur len : Nat) (q : Option Nat) :
    chunkEnd limit cur len q = (q.getD len ⊓ (cur + limit)) ⊓ len := by
  cases q
  · simp [chunkEnd]; omega
  · simp [chunkEnd]

theorem cflagOf_toNat (first last : Bool) :
    (cflagOf first last).toNat =
      if first then (if last then 0 else 1) else (if last then 3 else 2) := by
  cases first <;> cases last <;> decide

/-! ### Words, flags and lengths as numbers -/

theorem Word32.toNat_lt (w : Word32) : w.toNat < 2 ^ 32 := w.isLt

theorem CFlag.toNat_lt (c : CFlag) : c.toNat < 4 := c.isLt

theorem LenField.toNat_lt (n : LenField) : n.toNat < 2 ^ 30 := n.isLt

theorem lrecEncode_toNat (c : CFlag) (n : LenField) :
    (lrecEncode c n).toNat = c.toNat * 2 ^ 30 + n.toNat := toNat_append_eq c n

theorem lrecFlagOf_toNat (w : Word32) : (lrecFlagOf w).toNat = w.toNat / 2 ^ 30 := by
  have h : (lrecFlagOf w).toNat = (w.toNat >>> 30) % 4 := BitVec.extractLsb'_toNat ..
  have := Word32.toNat_lt w
  rw [h, Nat.shiftRight_eq_div_pow]; omega

theorem lrecLenOf_toNat (w : Word32) : (lrecLenOf w).toNat = w.toNat % 2 ^ 30 := by
  have h : (lrecLenOf w).toNat = (w.toNat >>> 0) % 2 ^ 30 := BitVec.extractLsb'_toNat ..
  rw [h, Nat.shiftRight_zero]

/-- A length of at most LEN_MAX is what its field holds. -/
theorem lenField_toNat {n : Nat} (h : n ≤ lenMax) : (BitVec.ofNat lenBits n).toNat = n := by
  rw [lenMax_eq] at h
  have e : (BitVec.ofNat lenBits n).toNat = n % 2 ^ 30 := BitVec.toNat_ofNat ..
  rw [e]; omega

end Sys2Proof.Machine
end

