-- ==== Sys2Proof/Laws/Streams.lean ====
section
/-! SUPPORT. What the two stream calls can do, said once: every state they lead to is the one before
with OSTREAM longer (`State.Wrote`) or ISTREAM further on (`State.Took`), and when each outcome can
occur. -/

namespace Sys2Proof.Machine

/-! ### Writing -/

/-- `t` is `s` after some stream writes: OSTREAM, WPOS, the history and the coming answers moved on,
nothing else. -/
def State.Wrote (s t : State) : Prop :=
  ∃ bs h o,
    t = { s with
      ostream := s.ostream ++ bs, wpos := s.wpos + bs.length, history := s.history ++ h
      oracle := { s.oracle with writes := o } } ∧
    o <:+ s.oracle.writes ∧ (s.wpos ≤ s.cfg.lwMax → s.wpos + bs.length ≤ s.cfg.lwMax)

theorem State.Wrote.refl (s : State) : s.Wrote s :=
  ⟨[], [], s.oracle.writes, by simp, List.suffix_refl _, id⟩

theorem State.Wrote.trans {s t u : State} (h1 : s.Wrote t) (h2 : t.Wrote u) : s.Wrote u := by
  obtain ⟨k, h, o, rfl, ho, hk⟩ := h1
  obtain ⟨k', h', o', rfl, ho', hk'⟩ := h2
  refine ⟨k ++ k', h ++ h', o', by simp [Nat.add_assoc], ho'.trans ho, ?_⟩
  intro hl; have := hk' (hk hl); simp at this ⊢; omega

theorem State.Wrote.cfg {s t : State} (h : s.Wrote t) : t.cfg = s.cfg := by
  obtain ⟨_, _, _, rfl, -⟩ := h; rfl

/-- How a sequence of writes can end: it never refuses, raises WR_FAIL only, and is cut only by an
answer that says so. -/
def WriteEnds {α : Type} (s : State) : Res α → Prop
  | .ok _ t => s.Wrote t
  | .raised c t => c = .wrFail ∧ s.Wrote t
  | .cut t => s.Wrote t ∧ ∃ k, WriteAnswer.reset k ∈ s.oracle.writes
  | .stuck f => f = .streamNeverReturns
  | .outside r => r = .ostreamLength
  | .refuse => False

theorem appendOut_cases (R : Res Unit → Prop) {s : State} {t : List Byte} {e : StreamEvent}
    {o : List WriteAnswer} (ho : o <:+ s.oracle.writes) {k : State → Res Unit}
    (hR : R (.outside .ostreamLength)) (h : ∀ u, s.Wrote u → R (k u)) :
    R (appendOut t e { s with oracle := { s.oracle with writes := o } } k) := by
  unfold appendOut
  split
  · exact h _ ⟨t, [e], o, rfl, ho, fun _ => by assumption⟩
  · exact hR

theorem streamWrite_ends (b : List Byte) (s : State) : WriteEnds s (streamWrite b s) := by
  unfold streamWrite State.nextWrite
  cases hw : s.oracle.writes with
  | nil =>
    have e : s = { s with oracle := { s.oracle with writes := [] } } := by
      cases s; rename_i o _; cases o; simp_all
    simp only
    have := appendOut_cases (fun r => WriteEnds s r) (s := s) (t := b) (e := .write b true)
      (o := []) (List.nil_suffix) (k := .ok ()) rfl (fun u hu => hu)
    rwa [← e] at this
  | cons a as =>
    have ho : as <:+ s.oracle.writes := by rw [hw]; exact List.suffix_cons _ _
    cases a with
    | ok => exact appendOut_cases (fun r => WriteEnds s r) ho rfl (fun u hu => hu)
    | fail k => exact appendOut_cases (fun r => WriteEnds s r) ho rfl (fun u hu => ⟨rfl, hu⟩)
    | never => exact rfl
    | reset k =>
      exact appendOut_cases (fun r => WriteEnds s r) ho rfl
        (fun u hu => ⟨hu, k, by rw [hw]; simp⟩)

/-- A write that goes on has appended all its bytes. -/
theorem streamWrite_ostream {b : List Byte} {s t : State} (h : streamWrite b s = .ok () t) :
    t.ostream = s.ostream ++ b := by
  unfold streamWrite State.nextWrite appendOut at h
  cases hw : s.oracle.writes with
  | nil => simp only [hw] at h; split at h <;> cases h; rfl
  | cons a as =>
    simp only [hw] at h
    cases a <;> simp only at h
    · split at h <;> cases h; rfl
    · split at h <;> cases h
    · cases h
    · split at h <;> cases h

/-- The state after the given writes were all answered `ok`. -/
def State.afterWrites (s : State) (ws : List (List Byte)) : State :=
  { s with
    ostream := s.ostream ++ ws.flatten, wpos := s.wpos + ws.flatten.length
    history := s.history ++ ws.map (fun b => StreamEvent.write b true)
    oracle := { s.oracle with writes := s.oracle.writes.drop ws.length } }

@[simp] theorem State.afterWrites_nil (s : State) : s.afterWrites [] = s := by
  simp [State.afterWrites]

theorem State.afterWrites_cons (s : State) (b : List Byte) (ws : List (List Byte)) :
    (s.afterWrites [b]).afterWrites ws = s.afterWrites (b :: ws) := by
  simp [State.afterWrites, Nat.add_assoc, List.append_assoc, Nat.add_comm]

theorem streamWrite_ok {s : State} {b : List Byte} (h : ∀ a ∈ s.oracle.writes.head?, a = .ok)
    (hl : s.wpos + b.length ≤ s.cfg.lwMax) : streamWrite b s = .ok () (s.afterWrites [b]) := by
  unfold streamWrite State.nextWrite appendOut
  cases hw : s.oracle.writes with
  | nil => simp only; rw [if_pos hl]; simp [State.afterWrites, State.extendOut, hw]; rw [← hw]
  | cons a as =>
    have := h a (by simp [hw])
    subst this
    simp only; rw [if_pos hl]; simp [State.afterWrites, State.extendOut, hw]

/-! ### Reading -/

/-- `t` is `s` after some stream reads: RPOS, the history, the coming answers and RBUF moved on, the
source of an endless stream handed over more, nothing else. -/
def State.Took (s t : State) : Prop :=
  ∃ m k h o b,
    t = { s with
      istream := s.istream ++ handed s.supply m, rpos := s.rpos + k, history := s.history ++ h
      oracle := { s.oracle with reads := o }, rbuf := b } ∧
    o <:+ s.oracle.reads ∧ k ≤ ((s.istream ++ handed s.supply m).drop s.rpos).length

theorem State.Took.refl (s : State) : s.Took s :=
  ⟨0, 0, [], s.oracle.reads, s.rbuf, by simp, List.suffix_refl _, by omega⟩

theorem State.Took.trans {s t u : State} (h1 : s.Took t) (h2 : t.Took u) : s.Took u := by
  obtain ⟨m, k, h, o, b, rfl, ho, hk⟩ := h1
  obtain ⟨m', k', h', o', b', rfl, ho', hk'⟩ := h2
  refine ⟨m + m', k + k', h ++ h', o', b', ?_, ho'.trans ho, ?_⟩
  · simp [Nat.add_assoc, handed_add]
  · simp [handed_add] at hk' hk ⊢; omega

theorem State.Took.setRbuf {s t : State} (h : s.Took t) (b : List Byte) :
    s.Took { t with rbuf := b } := by
  obtain ⟨m, k, h, o, _, rfl, ho, hk⟩ := h
  exact ⟨m, k, h, o, b, rfl, ho, hk⟩

theorem State.Took.same {s t : State} (h : s.Took t) :
    t.cfg = s.cfg ∧ t.rstate = s.rstate ∧ t.supply = s.supply ∧
      t.oracle.reads <:+ s.oracle.reads := by
  obtain ⟨m, k, h, o, b, rfl, ho, hk⟩ := h; exact ⟨rfl, rfl, rfl, ho⟩

/-- ISTREAM only ever gets longer, and a finite one stays. -/
theorem State.Took.istream {s t : State} (h : s.Took t) :
    s.istream <+: t.istream ∧ (s.supply = [] → t.istream = s.istream) := by
  obtain ⟨m, k, h, o, b, rfl, ho, hk⟩ := h
  exact ⟨List.prefix_append _ _, fun h => by simp [h]⟩

/-- From `s` to `t` the reads took exactly `bytes`, the ones that stood at RPOS. -/
def State.Passed (s t : State) (bytes : List Byte) : Prop :=
  t.rpos = s.rpos + bytes.length ∧ bytes <+: t.istream.drop s.rpos

theorem State.Passed.nil (s : State) : s.Passed s [] := ⟨rfl, List.nil_prefix⟩

theorem State.Passed.later {s t u : State} {a : List Byte} (h : s.Passed t a)
    (hi : t.istream <+: u.istream) (hr : u.rpos = t.rpos) : s.Passed u a := by
  obtain ⟨x, hx⟩ := hi
  refine ⟨hr.trans h.1, ?_⟩
  rw [← hx, List.drop_append]
  exact h.2.trans (List.prefix_append _ _)

theorem State.Passed.trans {s t u : State} {a b : List Byte} (h1 : s.Passed t a)
    (hi : t.istream <+: u.istream) (h2 : t.Passed u b) : s.Passed u (a ++ b) := by
  obtain ⟨x, hx⟩ := hi
  refine ⟨by rw [h2.1, h1.1, List.length_append, Nat.add_assoc], ?_⟩
  have h3 : a <+: u.istream.drop s.rpos := by
    rw [← hx, List.drop_append]; exact h1.2.trans (List.prefix_append _ _)
  obtain ⟨y, hy⟩ := h3
  have h4 := h2.2
  rw [h1.1, ← List.drop_drop, ← hy, List.drop_left] at h4
  rw [← hy]; exact List.prefix_append_right_inj _ |>.2 h4

/-- What stood at RPOS is what was taken and what stands there now. -/
theorem State.Passed.eq {s t : State} {a : List Byte} (h : s.Passed t a) :
    t.istream.drop s.rpos = a ++ t.istream.drop t.rpos := by
  obtain ⟨y, hy⟩ := h.2
  rw [h.1, ← List.drop_drop, ← hy, List.drop_left]

theorem State.nextRead_state (s : State) :
    ∃ o, s.nextRead.2 = { s with oracle := { s.oracle with reads := o } } ∧
      o <:+ s.oracle.reads := by
  unfold State.nextRead
  cases hr : s.oracle.reads with
  | nil => exact ⟨[], by simp [← hr], by simp⟩
  | cons a as => exact ⟨as, rfl, List.suffix_cons _ _⟩

/-- How a read can end. Bytes it answers with are the next of ISTREAM. -/
def ReadEnds (s : State) (n : Nat) : Res (List Byte) → Prop
  | .ok d t => s.Took t ∧ t.rbuf = s.rbuf ∧ d.length ≤ n ∧ s.Passed t d
  | .raised c t => c = .rdFail ∧ s.Took t ∧ t.rbuf = s.rbuf ∧ t.rpos = s.rpos
  | .cut t => (s.Took t ∧ t.rbuf = s.rbuf) ∧ ∃ k, ReadAnswer.reset k ∈ s.oracle.reads
  | .stuck f => f = .streamNeverReturns ∧ ReadAnswer.never ∈ s.oracle.reads
  | _ => False

theorem consumeIn_takes (s : State) {o : List ReadAnswer} (ho : o <:+ s.oracle.reads) (m : Nat)
    {k n : Nat} (e : StreamEvent) {d : List Byte}
    (hd : d = ((s.istream ++ handed s.supply m).drop s.rpos).take k) (hk : k ≤ n) :
    let t := State.consumeIn
      { s with
        istream := s.istream ++ handed s.supply m, oracle := { s.oracle with reads := o } }
      d.length e
    s.Took t ∧ t.rbuf = s.rbuf ∧ d.length ≤ n ∧ s.Passed t d := by
  intro t
  refine ⟨⟨m, d.length, [e], o, s.rbuf, rfl, ho, ?_⟩, rfl, ?_, rfl, ?_⟩
  · subst hd; simp
  · subst hd; simp; omega
  · show d <+: (s.istream ++ handed s.supply m).drop s.rpos
    subst hd; exact List.take_prefix _ _

theorem streamRead_ends (n : Nat) (s : State) : ReadEnds s n (streamRead n s) := by
  obtain ⟨o, h1, h2⟩ := (s.refill n).nextRead_state
  unfold streamRead
  generalize hx : (s.refill n).nextRead = x at *
  obtain ⟨a, u⟩ := x
  simp only at h1; subst h1
  cases a with
  | full => exact consumeIn_takes s h2 _ (.read n _) rfl le_rfl
  | short k => exact consumeIn_takes s h2 _ (.read n _) rfl (min_le_left _ _)
  | fail => exact ⟨rfl, ⟨_, 0, [_], o, s.rbuf, rfl, h2, by omega⟩, rfl, rfl⟩
  | never =>
    refine ⟨rfl, ?_⟩
    unfold State.nextRead at hx
    cases hr : s.oracle.reads <;> simp_all
  | reset k =>
    have := consumeIn_takes s h2
      ((s.rpos + n - s.istream.length + s.supply.length - 1) / s.supply.length)
      (.read n none) rfl (min_le_left n k)
    refine ⟨⟨this.1, rfl⟩, k, ?_⟩
    unfold State.nextRead at hx
    cases hr : s.oracle.reads <;> simp_all

@[simp] theorem StreamEvent.bytes_read (n : Nat) (d : List Byte) :
    (StreamEvent.read n (some d)).bytes = d := rfl

@[simp] theorem StreamEvent.bytes_fail (n : Nat) : (StreamEvent.read n none).bytes = [] := rfl

/-- The state after reads that were answered in full. -/
def State.afterReads (s : State) (es : List StreamEvent) : State :=
  { s with
    rpos := s.rpos + (es.flatMap (·.bytes)).length, history := s.history ++ es
    oracle := { s.oracle with reads := s.oracle.reads.drop es.length } }

@[simp] theorem State.afterReads_nil (s : State) : s.afterReads [] = s := by
  simp [State.afterReads]

theorem State.afterReads_afterReads (s : State) (es es' : List StreamEvent) :
    (s.afterReads es).afterReads es' = s.afterReads (es ++ es') := by
  simp [State.afterReads, Nat.add_assoc]

theorem State.ReadsFull.afterReads {s : State} {es : List StreamEvent} (h : s.ReadsFull) :
    (s.afterReads es).ReadsFull :=
  fun a ha => h a (List.mem_of_mem_drop ha)

theorem State.afterReads_ahead {s : State} {es : List StreamEvent} {r : List Byte}
    (h : s.istream.drop s.rpos = es.flatMap (·.bytes) ++ r) :
    (s.afterReads es).istream.drop (s.afterReads es).rpos = r := by
  show s.istream.drop (s.rpos + (es.flatMap (·.bytes)).length) = r
  rw [← List.drop_drop, h, List.drop_left]

theorem streamRead_full {s : State} (n : Nat) (h : s.ReadsFull) :
    streamRead n s = .ok ((s.refill n).ahead n)
      ((s.refill n).afterReads [.read n (some ((s.refill n).ahead n))]) := by
  have h' : (s.refill n).ReadsFull := h
  unfold streamRead
  generalize s.refill n = s at *
  unfold State.nextRead
  cases hr : s.oracle.reads with
  | nil =>
    have : s.oracle = { s.oracle with reads := s.oracle.reads.drop 1 } := by
      cases ho : s.oracle; simp [ho] at hr; simp [hr]
    simp only [State.consumeIn, State.ahead, State.afterReads, StreamEvent.bytes_read,
      List.flatMap_singleton, List.length_singleton]
    rw [← this]
  | cons a as =>
    rw [h' a (by simp [hr])]
    simp [State.consumeIn, State.ahead, State.afterReads, hr]

/-- Reading exactly the bytes that come next. -/
theorem streamRead_take {s : State} (h : s.ReadsFull) {b r : List Byte} {n : Nat} (hn : n ≠ 0)
    (hb : b.length = n) (ha : s.istream.drop s.rpos = b ++ r) :
    streamRead n s = .ok b (s.afterReads [.read n (some b)]) := by
  have hl := congrArg List.length ha
  simp at hl
  have : s.ahead n = b := by rw [State.ahead, ha, List.take_left' hb]
  rw [streamRead_full n h, State.refill_of_le (by omega), this]

/-- Reading where fewer bytes are left of a finite stream. -/
theorem streamRead_last {s : State} (h : s.ReadsFull) (hs : s.supply = []) {b : List Byte} {n : Nat}
    (hb : b.length ≤ n) (ha : s.istream.drop s.rpos = b) :
    streamRead n s = .ok b (s.afterReads [.read n (some b)]) := by
  have : s.ahead n = b := by rw [State.ahead, ha, List.take_of_length_le hb]
  rw [streamRead_full n h, State.refill_finite hs, this]

end Sys2Proof.Machine
end

