-- ==== Sys2Proof/Laws/Deframe.lean ====
section
/-! SUPPORT. The deframer: what reading one frame can do under any answers, what it does when every
answer is full and the frame is sound, and what RDREC's loop can do. -/

namespace Sys2Proof.Machine

/-! ### Words of the wire -/

theorem u32le_toNat (b0 b1 b2 b3 : Byte) :
    (u32le b0 b1 b2 b3).toNat =
      ((b3.toNat * 2 ^ 8 + b2.toNat) * 2 ^ 8 + b1.toNat) * 2 ^ 8 + b0.toNat := by
  rw [← toNat_append_eq, ← toNat_append_eq, ← toNat_append_eq]; rfl

theorem le32_u32le (b0 b1 b2 b3 : Byte) : le32 (u32le b0 b1 b2 b3) = [b0, b1, b2, b3] := by
  have := b0.isLt; have := b1.isLt; have := b2.isLt; have := b3.isLt
  unfold le32
  congr 1
  · apply BitVec.eq_of_toNat_eq; simp [u32le_toNat, Nat.shiftRight_eq_div_pow]; omega
  congr 1
  · apply BitVec.eq_of_toNat_eq; simp [u32le_toNat, Nat.shiftRight_eq_div_pow]; omega
  congr 1
  · apply BitVec.eq_of_toNat_eq; simp [u32le_toNat, Nat.shiftRight_eq_div_pow]; omega
  congr 1
  · apply BitVec.eq_of_toNat_eq; simp [u32le_toNat, Nat.shiftRight_eq_div_pow]; omega

theorem ser32_deser32 (o : ByteOrder) (b0 b1 b2 b3 : Byte) :
    ser32 o (deser32 o b0 b1 b2 b3) = [b0, b1, b2, b3] := by
  cases o <;> simp [ser32, deser32, le32_u32le]

theorem deser32_of_ser32 {o : ByteOrder} {b0 b1 b2 b3 : Byte} {v : Word32}
    (h : ser32 o v = [b0, b1, b2, b3]) : deser32 o b0 b1 b2 b3 = v := by
  have hv : u32le (v.extractLsb' 0 8) (v.extractLsb' 8 8) (v.extractLsb' 16 8)
      (v.extractLsb' 24 8) = v := by
    apply BitVec.eq_of_toNat_eq
    simp [u32le_toNat, Nat.shiftRight_eq_div_pow]; have := Word32.toNat_lt v; omega
  cases o <;> (simp [ser32, le32] at h; obtain ⟨rfl, rfl, rfl, rfl⟩ := h; exact hv)

theorem exists_of_length_four {l : List Byte} (h : l.length = 4) : ∃ a b c d, l = [a, b, c, d] := by
  match l, h with
  | [a, b, c, d], _ => exact ⟨a, b, c, d, rfl⟩

/-- Any word is the header word of its own fields. -/
theorem headerWord_lrecOf (w : Word32) : headerWord (lrecFlagOf w) (lrecLenOf w).toNat = w := by
  apply BitVec.eq_of_toNat_eq
  rw [headerWord, BitVec.ofNat_toNat, BitVec.setWidth_eq, lrecEncode_toNat, lrecFlagOf_toNat,
    lrecLenOf_toNat]
  omega

theorem lrecFlagOf_headerWord (f : CFlag) (n : Nat) : lrecFlagOf (headerWord f n) = f := by
  apply BitVec.eq_of_toNat_eq
  have := LenField.toNat_lt (BitVec.ofNat lenBits n)
  rw [lrecFlagOf_toNat, headerWord, lrecEncode_toNat]
  omega

theorem lrecLenOf_headerWord (f : CFlag) {n : Nat} (h : n ≤ lenMax) :
    (lrecLenOf (headerWord f n)).toNat = n := by
  rw [lrecLenOf_toNat, headerWord, lrecEncode_toNat, lenField_toNat h]
  rw [lenMax_eq] at h; omega

theorem WireFrame.length_bytes (o : ByteOrder) (f : WireFrame) :
    (f.bytes o).length = 8 + f.data.length + f.padding.length := by
  simp [WireFrame.bytes]; omega

/-! ### Any answers -/

/-- How a part of `read_frame` can end: with a result `Q` speaks of, with a fault RDREC may raise, or
stopped as the stream or RBUF_CAP says. -/
def FieldEnds {α : Type} (s : State) (Q : α → State → Prop) : Res α → Prop
  | .ok a t => s.Took t ∧
      (s.supply = [] → t.rbuf.length + (t.istream.drop t.rpos).length
        ≤ s.rbuf.length + (s.istream.drop s.rpos).length) ∧ Q a t
  | .raised c t => c ∈ mayRaise .rdrec ∧ s.Took t
  | .cut t => s.Took t ∧ ∃ k, ReadAnswer.reset k ∈ s.oracle.reads
  | .stuck f => f = .streamNeverReturns ∧ ReadAnswer.never ∈ s.oracle.reads
  | .outside r =>
      r = .rbufCapacity ∧
        (s.supply = [] → s.cfg.rbufCap < s.rbuf.length + (s.istream.drop s.rpos).length)
  | .refuse => False

theorem FieldEnds.bind {α β : Type} {s : State} {Q : α → State → Prop} {Q' : β → State → Prop}
    {r : Res α} {k : α → State → Res β} (h : FieldEnds s Q r)
    (hk : ∀ a t, s.Took t → Q a t → FieldEnds t Q' (k a t)) : FieldEnds s Q' (r.bind k) := by
  cases r with
  | ok a t =>
    obtain ⟨h1, h2, h3⟩ := h
    have h4 := hk a t h1 h3
    have hs := h1.same
    rw [Res.bind_ok]
    generalize k a t = r2 at h4
    cases r2 with
    | ok b u =>
      exact ⟨h1.trans h4.1, fun hs' => (h4.2.1 (hs.2.2.1.trans hs')).trans (h2 hs'), h4.2.2⟩
    | raised c u => exact ⟨h4.1, h1.trans h4.2⟩
    | cut u =>
      obtain ⟨h5, k, h6⟩ := h4
      exact ⟨h1.trans h5, k, hs.2.2.2.subset h6⟩
    | stuck f => exact ⟨h4.1, hs.2.2.2.subset h4.2⟩
    | outside r =>
      exact ⟨h4.1, fun hs' => by
        rw [← hs.1]; exact lt_of_lt_of_le (h4.2 (hs.2.2.1.trans hs')) (h2 hs')⟩
    | refuse => exact h4
  | _ => exact h

theorem FieldEnds.mono {α : Type} {s : State} {Q Q' : α → State → Prop} {r : Res α}
    (h : FieldEnds s Q r) (hq : ∀ a t, s.Took t → Q a t → Q' a t) : FieldEnds s Q' r := by
  cases r with
  | ok a t => exact ⟨h.1, h.2.1, hq a t h.1 h.2.2⟩
  | _ => exact h

/-- A stream read as a part of `read_frame`. -/
theorem streamRead_field (n : Nat) (s : State) :
    FieldEnds s (fun d t => t.rbuf = s.rbuf ∧ d.length ≤ n ∧ s.Passed t d) (streamRead n s) := by
  have h := streamRead_ends n s
  generalize streamRead n s = r at h
  cases r with
  | ok d t =>
    obtain ⟨h1, h2, h3, h4⟩ := h
    exact ⟨h1, fun hs => by rw [h2, ← h1.istream.2 hs, h4.eq]; simp, h2, h3, h4⟩
  | raised c t => obtain ⟨rfl, h, -⟩ := h; exact ⟨by decide, h⟩
  | cut t => exact ⟨h.1.1, h.2⟩
  | stuck f => exact h
  | outside r => exact h.elim
  | refuse => exact h

theorem readMagic_field (s : State) :
    FieldEnds s (fun more t => t.rbuf = s.rbuf ∧
      if more then s.Passed t (ser32 s.cfg.byteOrder magic)
      else s.rstate = .start ∧ s.Passed t []) (readMagic s) := by
  have fin : ∀ (t : State) (c : Cause), c ∈ mayRaise .rdrec → ∀ Q, FieldEnds t Q (.raised c t : Res Bool) :=
    fun t c h Q => ⟨h, State.Took.refl t⟩
  refine (streamRead_field 4 s).bind fun m t h1 h2 => ?_
  obtain ⟨h2, h3, h4⟩ := h2
  rcases Nat.lt_or_ge m.length 4 with hm | hm
  · match m, hm with
    | [], _ =>
      simp only
      split
      · rename_i hst
        exact ⟨State.Took.refl t, fun _ => le_rfl, h2,
          by simpa using ⟨by rw [← h1.same.2.1]; exact hst, h4⟩⟩
      · exact fin _ _ (by decide) _
    | [_], _ => exact fin _ _ (by decide) _
    | [_, _], _ => exact fin _ _ (by decide) _
    | [_, _, _], _ => exact fin _ _ (by decide) _
  · obtain ⟨a, b, c, d, rfl⟩ := exists_of_length_four (show m.length = 4 by omega)
    simp only
    split
    · rename_i hmag
      refine ⟨State.Took.refl t, fun _ => le_rfl, h2, ?_⟩
      rw [if_pos rfl, ← hmag, h1.same.1, ser32_deser32]; exact h4
    · exact fin _ _ (by decide) _

theorem readHeader_field (s : State) :
    FieldEnds s (fun w t => t.rbuf = s.rbuf ∧ s.Passed t (ser32 s.cfg.byteOrder w))
      (readHeader s) := by
  have fin : ∀ (t : State) (c : Cause), c ∈ mayRaise .rdrec →
      ∀ Q, FieldEnds t Q (.raised c t : Res Word32) := fun t c h Q => ⟨h, State.Took.refl t⟩
  refine (streamRead_field 4 s).bind fun m t h1 h2 => ?_
  obtain ⟨h2, h3, h4⟩ := h2
  rcases Nat.lt_or_ge m.length 4 with hm | hm
  · match m, hm with
    | [], _ => exact fin _ _ (by decide) _
    | [_], _ => exact fin _ _ (by decide) _
    | [_, _], _ => exact fin _ _ (by decide) _
    | [_, _, _], _ => exact fin _ _ (by decide) _
  · obtain ⟨a, b, c, d, rfl⟩ := exists_of_length_four (show m.length = 4 by omega)
    exact ⟨State.Took.refl t, fun _ => le_rfl, h2, by rw [h1.same.1, ser32_deser32]; exact h4⟩

theorem readData_field (n : Nat) (s : State) :
    FieldEnds s (fun _ t => ∃ d, d.length = n ∧ t.rbuf = s.rbuf ++ d ∧ s.Passed t d ∧
      (s.rbuf.length ≤ s.cfg.rbufCap → t.rbuf.length ≤ s.cfg.rbufCap)) (readData n s) := by
  unfold readData
  by_cases h0 : n = 0
  · rw [if_pos h0]
    exact ⟨State.Took.refl s, fun _ => le_rfl, [], by simp [h0], by simp, State.Passed.nil s, id⟩
  rw [if_neg h0]
  have h := streamRead_field n s
  generalize streamRead n s = r at h
  cases r with
  | ok d t =>
    obtain ⟨h1, -, h2, h3, h4⟩ := h
    have fit : s.supply = [] → d.length + (t.istream.drop t.rpos).length
        = (s.istream.drop s.rpos).length :=
      fun hs => by rw [← h1.istream.2 hs, h4.eq, List.length_append]
    rw [Res.bind_ok]
    by_cases hd : d.length < n
    · rw [if_pos hd]; exact ⟨by decide, h1⟩
    · rw [if_neg hd, appendRbuf]
      by_cases hc : t.rbuf.length + d.length ≤ t.cfg.rbufCap
      · rw [if_pos hc]
        refine ⟨h1.setRbuf _, fun hs => ?_, d, by omega, by simp [h2], h4, fun _ => ?_⟩
        · have := fit hs; simp only [h2, List.length_append]; omega
        · rw [h1.same.1] at hc; simpa using hc
      · rw [if_neg hc]
        refine ⟨rfl, fun hs => ?_⟩
        have := fit hs
        rw [h1.same.1, h2] at hc
        omega
  | raised c t => exact h
  | cut t => exact h
  | stuck f => exact h
  | outside r => exact h
  | refuse => exact h

theorem readPad_field (n : Nat) (s : State) :
    FieldEnds s (fun _ t => ∃ z : List Byte, z.length = n ∧ t.rbuf = s.rbuf ∧ s.Passed t z)
      (readPad n s) := by
  unfold readPad
  by_cases h0 : n = 0
  · rw [if_pos h0]
    exact ⟨State.Took.refl s, fun _ => le_rfl, [], by simp [h0], rfl, State.Passed.nil s⟩
  rw [if_neg h0]
  refine (streamRead_field n s).bind fun d t h1 h2 => ?_
  by_cases hd : d.length < n
  · rw [if_pos hd]; exact ⟨by decide, State.Took.refl t⟩
  · rw [if_neg hd]; exact ⟨State.Took.refl t, fun _ => le_rfl, d, by omega, h2.1, h2.2.2⟩

/-- What `read_frame` delivers: nothing, at a clean end in state START; or a sound frame's flag, its
data appended to RBUF. -/
def FrameRead (s : State) : Option CFlag → State → Prop
  | none, t => t.rbuf = s.rbuf ∧ s.rstate = .start ∧ s.Passed t []
  | some fl, t => ∃ f : WireFrame, f.Wf ∧ f.flag = fl ∧ t.rbuf = s.rbuf ++ f.data ∧
      s.Passed t (f.bytes s.cfg.byteOrder) ∧
      (s.rbuf.length ≤ s.cfg.rbufCap → t.rbuf.length ≤ s.cfg.rbufCap)

/-- What reading a frame can do, under any answers. -/
theorem readFrame_ends (s : State) : FieldEnds s (FrameRead s) (readFrame s) := by
  refine (readMagic_field s).bind fun more t h1 h2 => ?_
  obtain ⟨h2, h3⟩ := h2
  cases more with
  | false => exact ⟨State.Took.refl t, fun _ => le_rfl, h2, by simpa using h3⟩
  | true =>
    rw [if_pos rfl] at h3 ⊢
    refine (readHeader_field t).bind fun w u u1 u2 => ?_
    refine (readData_field _ u).bind fun _ v v1 v2 => ?_
    refine (readPad_field _ v).bind fun _ x x1 x2 => ?_
    obtain ⟨u2, u3⟩ := u2
    obtain ⟨d, d1, d2, d3, d4⟩ := v2
    obtain ⟨z, z1, z2, z3⟩ := x2
    refine ⟨State.Took.refl x, fun _ => le_rfl, { flag := lrecFlagOf w, data := d, padding := z },
      ⟨?_, ?_⟩, rfl, by rw [z2, d2, u2, h2], ?_, ?_⟩
    · have := LenField.toNat_lt (lrecLenOf w)
      simp only [d1, lenMax_eq]; omega
    · simp only [d1, z1]
    · have := ((h3.trans u1.istream.1 u3).trans v1.istream.1 d3).trans x1.istream.1 z3
      simpa only [WireFrame.bytes, d1, headerWord_lrecOf, h1.same.1] using this
    · rw [z2, ← h2, ← u2, ← h1.same.1, ← u1.same.1]; exact d4

/-! ### The loop -/

theorem judge_start (f : CFlag) :
    judge .start f = if f = 0 then .done else if f = 1 then .more else .bad .contWithoutStart := rfl

theorem judge_awaiting (f : CFlag) :
    judge .awaitingContinuation f =
      if f = 2 then .more else if f = 3 then .done else .bad .startBeforeEnd := rfl

/-- What a fault leaves, for any state a frame can be left in. -/
theorem State.Took.afterReadFault {s t : State} (h : s.Took t) :
    ∃ m k h' o b, t.afterReadFault s.rpos =
      { s with
        istream := s.istream ++ handed s.supply m, rpos := s.rpos + k
        history := s.history ++ h', oracle := o, rbuf := b } ∧
      k ≤ ((s.istream ++ handed s.supply m).drop s.rpos).length ∧ o.writes = s.oracle.writes := by
  obtain ⟨m, k, h', o, b, rfl, ho, hk⟩ := h
  unfold State.afterReadFault State.faultRpos
  cases hr : s.oracle.rpos with
  | nil => exact ⟨m, k, h', { s.oracle with reads := o, rpos := [] }, b, by simp, hk, rfl⟩
  | cons x xs =>
    exact ⟨m, min x k, h', { s.oracle with reads := o, rpos := xs }, b, by simp, by omega, rfl⟩

end Sys2Proof.Machine
end

