-- ==== Sys2Proof/Laws/Reader.lean ====
section
/-! SUPPORT. RDREC's loop: the flag sequences of R84 grow a frame at a time, and what the loop can do
under any answers. -/

namespace Sys2Proof.Machine

/-! ### Flag sequences -/

theorem closesRecord_append_three (l : List (CFlag)) (h : ∀ g ∈ l, g = 2) :
    closesRecord (l ++ [3]) = true := by
  induction l with
  | nil => rfl
  | cons x l ih =>
    have hx : x = 2 := h x (by simp)
    have := ih fun g hg => h g (by simp [hg])
    cases l with
    | nil => subst hx; decide
    | cons y l =>
      show (decide (x = 2) && closesRecord (y :: (l ++ [3]))) = true
      rw [Bool.and_eq_true]; exact ⟨decide_eq_true hx, this⟩

/-- A frame that ends an open record makes it legal. -/
theorem legalRecord_snoc {pre : List WireFrame} {f : WireFrame}
    (h : openRecordFlags (pre.map (·.flag)) = true)
    (hf : if pre = [] then f.flag = 0 else f.flag = 3) :
    legalRecord ((pre ++ [f]).map (·.flag)) = true := by
  cases pre with
  | nil => simp at hf; simp [legalRecord, hf]
  | cons g gs =>
    simp [openRecordFlags] at h hf
    have := closesRecord_append_three (gs.map (·.flag)) (by simpa using h.2)
    simp only [List.cons_append, List.map_cons, List.map_append, List.map_nil, hf]
    cases gs with
    | nil => simp [legalRecord, h.1, closesRecord]
    | cons y gs => simpa [legalRecord, h.1] using this

/-- A frame that keeps a record open. -/
theorem openRecordFlags_snoc {pre : List WireFrame} {f : WireFrame}
    (h : openRecordFlags (pre.map (·.flag)) = true)
    (hf : if pre = [] then f.flag = 1 else f.flag = 2) :
    openRecordFlags ((pre ++ [f]).map (·.flag)) = true := by
  cases pre with
  | nil => simp at hf; simp [openRecordFlags, hf]
  | cons g gs =>
    simp [openRecordFlags] at h hf ⊢
    exact ⟨h.1, h.2, hf⟩

/-- The reader's state after the frames of an open record. -/
abbrev openState (pre : List WireFrame) : RState :=
  if pre = [] then .start else .awaitingContinuation

theorem judge_done {pre : List WireFrame} {fl : CFlag} (h : judge (openState pre) fl = .done) :
    if pre = [] then fl = 0 else fl = 3 := by
  by_cases hp : pre = []
  · simp only [openState, hp, if_true, judge_start] at h ⊢
    split at h
    · assumption
    · split at h <;> cases h
  · simp only [openState, hp, if_false, judge_awaiting] at h ⊢
    split at h
    · cases h
    · split at h
      · assumption
      · cases h

theorem judge_more {pre : List WireFrame} {fl : CFlag} (h : judge (openState pre) fl = .more) :
    if pre = [] then fl = 1 else fl = 2 := by
  by_cases hp : pre = []
  · simp only [openState, hp, if_true, judge_start] at h ⊢
    split at h
    · cases h
    · split at h
      · assumption
      · cases h
  · simp only [openState, hp, if_false, judge_awaiting] at h ⊢
    split at h
    · assumption
    · split at h <;> cases h

theorem judge_bad {r : RState} {fl : CFlag} {c : Cause} (h : judge r fl = .bad c) :
    c = .contWithoutStart ∨ c = .startBeforeEnd := by
  unfold judge at h
  split at h
  · split at h
    · cases h
    · split at h <;> cases h; exact .inl rfl
  · split at h
    · cases h
    · split at h <;> cases h; exact .inr rfl

/-! ### The loop -/

/-- How the loop can end, begun in state `s` with the frames `pre` of the record already read: at a
clean end; with a record whose further frames stood at RPOS; or with a fault, a reset, a stop. -/
def LoopEnds (s : State) (pre : List WireFrame) (n : Nat) : Res (Word × Word) → Prop
  | .ok (a, b) t =>
      State.Took { s with rstate := t.rstate, eos := t.eos } t ∧
      (s.rbuf.length ≤ s.cfg.rbufCap → t.rbuf.length ≤ s.cfg.rbufCap) ∧
      ((a = 0 ∧ b = 0 ∧ t.rstate = .start ∧ t.eos = true ∧ s.rstate = .start ∧ t.rbuf = s.rbuf) ∨
       (a = 1 ∧ b = BitVec.ofNat 64 t.rbuf.length ∧ t.rstate = .done ∧ t.eos = s.eos ∧
         ∃ fs : List WireFrame, (∀ f ∈ fs, f.Wf) ∧
           legalRecord ((pre ++ fs).map (·.flag)) = true ∧
           s.Passed t (wireBytes s.cfg.byteOrder fs) ∧ t.rbuf = s.rbuf ++ wireData fs))
  | .raised c t =>
      c ∈ mayRaise .rdrec ∧ ∃ r m k h o b,
        t = { s with
          rstate := r, istream := s.istream ++ handed s.supply m, rpos := s.rpos + k
          history := h, oracle := o, rbuf := b } ∧
        k ≤ ((s.istream ++ handed s.supply m).drop s.rpos).length ∧ o.writes = s.oracle.writes
  | .cut t =>
      State.Took { s with rstate := t.rstate } t ∧ ∃ k, ReadAnswer.reset k ∈ s.oracle.reads
  | .stuck f =>
      (f = .streamNeverReturns ∧ ReadAnswer.never ∈ s.oracle.reads) ∨
      (f = .readerNeverEnds ∧ (s.supply = [] → n ≤ (s.istream.drop s.rpos).length))
  | .outside r =>
      r = .rbufCapacity ∧
        (s.supply = [] → s.cfg.rbufCap < s.rbuf.length + (s.istream.drop s.rpos).length)
  | .refuse => False

theorem rdrecLoop_ends (n : Nat) : ∀ (s : State) (pre : List WireFrame),
    openRecordFlags (pre.map (·.flag)) = true → s.rstate = openState pre →
    LoopEnds s pre n (rdrecLoop n s) := by
  induction n with
  | zero => intro s pre _ _; exact .inr ⟨rfl, fun _ => by omega⟩
  | succ n ih =>
    intro s pre hp hr
    have R := readFrame_ends s
    rw [rdrecLoop]
    generalize readFrame s = res at R
    cases res with
    | refuse => exact R
    | outside r => exact R
    | stuck f => exact .inl R
    | cut t => have := R.1.same.2.1; simp only [LoopEnds]; rw [this]; exact R
    | raised c t =>
      obtain ⟨m, k, h', o, b, e, hk⟩ := R.2.afterReadFault
      exact ⟨R.1, s.rstate, m, k, _, o, b, e, hk⟩
    | ok a t =>
      obtain ⟨r1, hlen, r2⟩ := R
      have hrs : t.rstate = s.rstate := r1.same.2.1
      cases a with
      | none =>
        obtain ⟨r2, r3, r4⟩ := r2
        refine ⟨?_, fun hc => by simpa [r2] using hc, .inl ⟨rfl, rfl, hrs.trans r3, rfl, r3, r2⟩⟩
        obtain ⟨m, k, h, o, b, rfl, ho, hk⟩ := r1
        exact ⟨m, k, h, o, b, rfl, ho, hk⟩
      | some fl =>
        obtain ⟨f, f1, rfl, r2, r3, r4⟩ := r2
        simp only [hrs, hr]
        cases hj : judge (openState pre) f.flag with
        | done =>
          refine ⟨?_, r4, .inr ⟨rfl, rfl, rfl, ?_, [f], by simpa using f1,
            legalRecord_snoc hp (judge_done hj), by simpa [wireBytes] using ⟨r3.1, r3.2⟩,
            by simpa [wireData] using r2⟩⟩
          · obtain ⟨m, k, h, o, b, rfl, ho, hk⟩ := r1
            exact ⟨m, k, h, o, b, rfl, ho, hk⟩
          · obtain ⟨m, k, h, o, b, rfl, ho, hk⟩ := r1; rfl
        | bad c =>
          obtain ⟨m, k, h', o, b, e, hk⟩ := r1.afterReadFault
          refine ⟨?_, s.rstate, m, k, _, o, b, e, hk⟩
          rcases judge_bad hj with rfl | rfl <;> decide
        | more =>
          have L := ih { t with rstate := .awaitingContinuation } (pre ++ [f])
            (openRecordFlags_snoc hp (judge_more hj)) (by simp)
          have h8 : s.supply = [] →
              8 + (t.istream.drop t.rpos).length ≤ (s.istream.drop s.rpos).length := by
            intro hs
            rw [← r1.istream.2 hs, r3.eq, List.length_append, WireFrame.length_bytes]; omega
          have r1' := r1
          obtain ⟨m, k, hh, o, b, e, ho, hk⟩ := r1
          have e1 : t.cfg = s.cfg := by rw [e]
          have e2 : t.supply = s.supply := by rw [e]
          have e3 : t.oracle.reads = o := by rw [e]
          simp only
          generalize rdrecLoop n { t with rstate := .awaitingContinuation } = res at L
          cases res with
          | refuse => exact L
          | outside r =>
            obtain ⟨L1, L2⟩ := L
            refine ⟨L1, fun hs => ?_⟩
            have := L2 (e2.trans hs); have := hlen hs; simp only [e1] at *; omega
          | stuck f =>
            rcases L with ⟨L1, L2⟩ | ⟨L1, L2⟩
            · exact .inl ⟨L1, ho.subset (e3 ▸ L2)⟩
            · refine .inr ⟨L1, fun hs => ?_⟩
              have := L2 (e2.trans hs); have := h8 hs; simp only at *; omega
          | cut u =>
            simp only [LoopEnds] at L ⊢
            obtain ⟨L, kk, L'⟩ := L
            refine ⟨State.Took.trans ⟨m, k, hh, o, b, ?_, ho, hk⟩ L, kk, ho.subset (e3 ▸ L')⟩
            rw [e]
          | raised c u =>
            obtain ⟨L1, r', m', k', h', o', b', L2, L4, L5⟩ := L
            refine ⟨L1, r', m + m', k + k', h', o', b', ?_, ?_, ?_⟩
            · rw [L2, e]; simp [Nat.add_assoc, handed_add]
            · simp only [e, handed_add, List.length_drop, List.length_append] at L4 hk ⊢; omega
            · rw [L5, e]
          | ok ab u =>
            obtain ⟨a, b0⟩ := ab
            obtain ⟨L1, L2, L3⟩ := L
            have L1' := L1.istream.1
            refine ⟨State.Took.trans ⟨m, k, hh, o, b, ?_, ho, hk⟩ L1, ?_, ?_⟩
            · rw [e]
            · intro hc; simp only [e1] at L2; exact L2 (r4 hc)
            · rcases L3 with ⟨_, _, _, _, L5, _⟩ | ⟨q1, q2, q3, q4, fs, q5, q6, q7, q8⟩
              · cases L5
              · refine .inr ⟨q1, q2, q3, by rw [q4, e], f :: fs, by simpa using ⟨f1, q5⟩,
                  by simpa using q6, ?_, ?_⟩
                · simp only [e1] at q7
                  exact r3.trans L1' q7
                · rw [q8, r2]; simp [wireData]

end Sys2Proof.Machine
end

