-- ==== Sys2Proof/Laws/Answers.lean ====
section
/-! SUPPORT. The reader under given answers: what `read_frame` and RDREC's loop do when the stream answers
the reads of a frame as `State.answering` says, for a sound frame, for the frames of an open record, and
for one at fault. -/

namespace Sys2Proof.Machine

/-! ### The answers -/

theorem State.answering_read {n : Nat} {d : List Byte} {es : List StreamEvent} {s u : State} :
    State.answering (.read n (some d) :: es) s = some u ↔
      ∃ t, streamRead n s = .ok d t ∧ State.answering es t = some u := by
  have h := streamRead_ends n s
  rw [State.answering]
  generalize streamRead n s = r at h
  cases r with
  | ok d' t => by_cases hd : d' = d <;> simp [hd, eq_comm]
  | _ => simp

theorem State.answering_fail {n : Nat} {es : List StreamEvent} {s u : State} :
    State.answering (.read n none :: es) s = some u ↔
      ∃ t, streamRead n s = .raised .rdFail t ∧ State.answering es t = some u := by
  have h := streamRead_ends n s
  rw [State.answering]
  generalize streamRead n s = r at h
  cases r with
  | raised c t => obtain ⟨rfl, -⟩ := h; simp
  | _ => simp

theorem State.answering_append {es es' : List StreamEvent} : ∀ {s u : State},
    State.answering (es ++ es') s = some u ↔
      ∃ t, State.answering es s = some t ∧ State.answering es' t = some u := by
  induction es with
  | nil => intro s u; simp [State.answering]
  | cons e es ih =>
    intro s u
    cases e with
    | write b ok => simp [State.answering]
    | read n a =>
      cases a with
      | none => simp only [List.cons_append, State.answering_fail, ih]; aesop
      | some d => simp only [List.cons_append, State.answering_read, ih]; aesop

/-- What answered reads leave: ISTREAM's source, RPOS, the history and the coming answers moved on, and
the bytes they brought taken from RPOS on. -/
def State.Answered (s : State) (es : List StreamEvent) (u : State) : Prop :=
  (∃ m n, u = { s with
    istream := s.istream ++ handed s.supply m, rpos := n, history := s.history ++ es
    oracle := { s.oracle with reads := s.oracle.reads.drop es.length } }) ∧
  s.Passed u (es.flatMap (·.bytes))

theorem State.Answered.nil (s : State) : s.Answered [] s :=
  ⟨⟨0, s.rpos, by simp⟩, State.Passed.nil s⟩

theorem State.Answered.trans {s t u : State} {es es' : List StreamEvent} (h1 : s.Answered es t)
    (h2 : t.Answered es' u) : s.Answered (es ++ es') u := by
  obtain ⟨⟨m, n, rfl⟩, p1⟩ := h1
  obtain ⟨⟨m', n', rfl⟩, p2⟩ := h2
  refine ⟨⟨m + m', n', by simp [handed_add]⟩, ?_⟩
  rw [List.flatMap_append]
  exact p1.trans (List.prefix_append _ _) p2

/-- One call. -/
theorem State.answered_one {n : Nat} {s t : State} :
    (∀ d, streamRead n s = .ok d t → s.Answered [.read n (some d)] t) ∧
    (∀ c, streamRead n s = .raised c t → s.Answered [.read n none] t) := by
  have h := streamRead_ends n s
  have hr : ∀ a u, (s.refill n).nextRead = (a, u) →
      u = { s.refill n with oracle := { s.oracle with reads := s.oracle.reads.drop 1 } } := by
    intro a u hx
    unfold State.nextRead at hx
    cases hs : s.oracle.reads with
    | nil =>
      have : s.oracle = { s.oracle with reads := s.oracle.reads.drop 1 } := by
        cases ho : s.oracle; simp [ho] at hs; simp [hs]
      simp [hs] at hx; rw [← hs, ← this]; exact hx.2.symm
    | cons x xs => simp [hs] at hx; simp [← hx.2]
  unfold streamRead at h ⊢
  generalize (s.refill n).nextRead = x at h hr ⊢
  obtain ⟨a, u⟩ := x
  obtain rfl := hr a u rfl
  cases a with
  | full =>
    refine ⟨fun d hd => ?_, fun c hc => by cases hc⟩
    cases hd
    exact ⟨⟨_, _, rfl⟩, by simpa using h.2.2.2⟩
  | short k =>
    refine ⟨fun d hd => ?_, fun c hc => by cases hc⟩
    cases hd
    exact ⟨⟨_, _, rfl⟩, by simpa using h.2.2.2⟩
  | fail =>
    refine ⟨fun d hd => (by cases hd), fun c hc => ?_⟩
    cases hc
    exact ⟨⟨_, _, rfl⟩, by simp [State.Passed, State.consumeIn]⟩
  | never => exact ⟨fun d hd => (by cases hd), fun c hc => by cases hc⟩
  | reset k => exact ⟨fun d hd => (by cases hd), fun c hc => by cases hc⟩

theorem State.answering_answered {es : List StreamEvent} : ∀ {s u : State},
    State.answering es s = some u → s.Answered es u := by
  induction es with
  | nil => intro s u h; cases h; exact State.Answered.nil s
  | cons e es ih =>
    intro s u h
    cases e with
    | write b ok => cases h
    | read n a =>
      cases a with
      | none =>
        obtain ⟨t, h1, h2⟩ := State.answering_fail.1 h
        exact (State.answered_one.2 _ h1).trans (ih h2)
      | some d =>
        obtain ⟨t, h1, h2⟩ := State.answering_read.1 h
        exact (State.answered_one.1 _ h1).trans (ih h2)

/-- The bytes of a frame are what its reads bring. -/
theorem WireFrame.reads_bytes (o : ByteOrder) (f : WireFrame) :
    (f.reads o).flatMap (·.bytes) = f.bytes o := by
  have : ∀ b, (fieldReads b).flatMap (·.bytes) = b := by
    intro b; by_cases h : b = [] <;> simp [fieldReads, h]
  simp [WireFrame.reads, headReads, this, WireFrame.bytes]

theorem wireReads_bytes (o : ByteOrder) (fs : List WireFrame) :
    (wireReads o fs).flatMap (·.bytes) = wireBytes o fs := by
  simp [wireReads, wireBytes, List.flatMap_assoc, WireFrame.reads_bytes]

/-- A read that asks for what it gets, and gets something. -/
def StreamEvent.Whole : StreamEvent → Prop
  | .read n (some b) => b.length = n ∧ n ≠ 0
  | _ => False

theorem WireFrame.reads_whole (o : ByteOrder) (f : WireFrame) : ∀ e ∈ f.reads o, e.Whole := by
  have : ∀ b, ∀ e ∈ fieldReads b, e.Whole := by
    intro b e he
    unfold fieldReads at he
    split at he
    · cases he
    · rename_i h
      obtain rfl := List.mem_singleton.1 he
      exact ⟨rfl, by simpa using h⟩
  intro e he
  simp only [WireFrame.reads, headReads, List.mem_append, List.mem_cons, List.not_mem_nil,
    or_false] at he
  rcases he with ((rfl | rfl) | he) | he
  · exact ⟨ser32_length _ _, by decide⟩
  · exact ⟨ser32_length _ _, by decide⟩
  · exact this _ _ he
  · exact this _ _ he

/-- With full answers, the bytes that stand at RPOS are what whole reads bring. -/
theorem State.answering_full {es : List StreamEvent} : ∀ {s : State} {r : List Byte}, s.ReadsFull →
    (∀ e ∈ es, e.Whole) → s.istream.drop s.rpos = es.flatMap (·.bytes) ++ r →
    State.answering es s = some (s.afterReads es) := by
  induction es with
  | nil => intro s r _ _ _; simp [State.answering]
  | cons e es ih =>
    intro s r h hw ha
    have he := hw e (by simp)
    match e, he with
    | .read n (some b), he =>
      rw [List.flatMap_cons, List.append_assoc] at ha
      have ha1 : s.istream.drop s.rpos =
          [StreamEvent.read n (some b)].flatMap (·.bytes) ++ (es.flatMap (·.bytes) ++ r) := by
        rw [ha]; simp
      rw [State.answering_read]
      refine ⟨_, streamRead_take h he.2 he.1 ha, ?_⟩
      rw [ih h.afterReads (fun e he => hw e (by simp [he])) (State.afterReads_ahead ha1),
        State.afterReads_afterReads]
      rfl

theorem wireReads_whole (o : ByteOrder) (fs : List WireFrame) : ∀ e ∈ wireReads o fs, e.Whole := by
  intro e he
  obtain ⟨f, -, hf⟩ := List.mem_flatMap.1 he
  exact f.reads_whole o e hf

/-! ### A record under way -/

/-- `s` with `b` in RBUF and the reader in state `r`: what the calls do does not depend on either. -/
def State.amid (s : State) (b : List Byte) (r : RState) : State := { s with rbuf := b, rstate := r }

section Amid

variable {s t : State} {b : List Byte} {r : RState}

theorem streamRead_amid_ok {n : Nat} {d : List Byte} (h : streamRead n s = .ok d t) :
    streamRead n (s.amid b r) = .ok d (t.amid b r) := by
  unfold streamRead State.nextRead at h ⊢
  simp only [State.amid, State.refill] at h ⊢
  cases hs : s.oracle.reads with
  | nil => simp only [hs] at h ⊢; cases h; rfl
  | cons a as => simp only [hs] at h ⊢; cases a <;> cases h <;> rfl

theorem streamRead_amid_raised {n : Nat} {c : Cause} (h : streamRead n s = .raised c t) :
    streamRead n (s.amid b r) = .raised c (t.amid b r) := by
  unfold streamRead State.nextRead at h ⊢
  simp only [State.amid, State.refill] at h ⊢
  cases hs : s.oracle.reads with
  | nil => simp only [hs] at h; cases h
  | cons a as => simp only [hs] at h ⊢; cases a <;> cases h; rfl

theorem readMagic_answered (h : streamRead 4 s = .ok (ser32 s.cfg.byteOrder magic) t)
    (hc : t.cfg = s.cfg) : readMagic (s.amid b r) = .ok true (t.amid b r) := by
  rw [readMagic, streamRead_amid_ok h, Res.bind_ok]
  obtain ⟨a, b, c, d, e⟩ := exists_of_length_four (ser32_length s.cfg.byteOrder magic)
  rw [e]
  exact if_pos (by show deser32 t.cfg.byteOrder _ _ _ _ = _; rw [hc]; exact deser32_of_ser32 e)

theorem readHeader_answered {v : Word32} (h : streamRead 4 s = .ok (ser32 s.cfg.byteOrder v) t)
    (hc : t.cfg = s.cfg) : readHeader (s.amid b r) = .ok v (t.amid b r) := by
  rw [readHeader, streamRead_amid_ok h, Res.bind_ok]
  obtain ⟨a, b, c, d, e⟩ := exists_of_length_four (ser32_length s.cfg.byteOrder v)
  rw [e]
  show Res.ok (deser32 t.cfg.byteOrder _ _ _ _) _ = _
  rw [hc, deser32_of_ser32 e]

theorem readData_answered {d : List Byte} (h : State.answering (fieldReads d) s = some t)
    (hc : b.length + d.length ≤ s.cfg.rbufCap) :
    readData d.length (s.amid b r) = .ok () (t.amid (b ++ d) r) := by
  have ht := State.answering_answered h
  unfold fieldReads at h
  split at h
  · rename_i hd
    cases h; subst hd; rw [List.append_nil]; rfl
  · rename_i hd
    obtain ⟨u, h1, h2⟩ := State.answering_read.1 h
    cases h2
    rw [readData, if_neg (by simpa using hd), streamRead_amid_ok h1, Res.bind_ok, if_neg (by omega)]
    exact if_pos (by obtain ⟨⟨_, _, rfl⟩, -⟩ := ht; exact hc)

theorem readPad_answered {z : List Byte} (h : State.answering (fieldReads z) s = some t) :
    readPad z.length (s.amid b r) = .ok () (t.amid b r) := by
  unfold fieldReads at h
  split at h
  · rename_i hd
    cases h; subst hd; rfl
  · rename_i hd
    obtain ⟨u, h1, h2⟩ := State.answering_read.1 h
    cases h2
    rw [readPad, if_neg (by simpa using hd), streamRead_amid_ok h1, Res.bind_ok, if_neg (by omega)]

theorem headReads_answered {o : ByteOrder} (ho : o = s.cfg.byteOrder) {fl : CFlag} {n : Nat}
    {es : List StreamEvent} {u : State} (hn : n ≤ lenMax)
    (h : State.answering (headReads o fl n ++ es) s = some u) :
    ∃ t, State.answering es t = some u ∧ t.cfg = s.cfg ∧
      readFrame (s.amid b r) = (readData n (t.amid b r)).bind fun _ s3 =>
        (readPad (pad n) s3).bind fun _ s4 => .ok (some fl) s4 := by
  subst ho
  obtain ⟨v, h1, h⟩ := State.answering_read.1 h
  obtain ⟨t, h2, h⟩ := State.answering_read.1 h
  have c1 : v.cfg = s.cfg := by obtain ⟨⟨_, _, rfl⟩, -⟩ := State.answered_one.1 _ h1; rfl
  have c2 : t.cfg = v.cfg := by obtain ⟨⟨_, _, rfl⟩, -⟩ := State.answered_one.1 _ h2; rfl
  refine ⟨t, h, c2.trans c1, ?_⟩
  rw [← c1] at h2
  rw [readFrame, readMagic_answered h1 c1, Res.bind_ok, if_pos rfl, readHeader_answered h2 c2,
    Res.bind_ok, lrecLenOf_headerWord _ hn, lrecFlagOf_headerWord]

/-- A sound frame, however the stream hands it over. -/
theorem readFrame_answered {f : WireFrame} (hf : f.Wf) {o : ByteOrder} (ho : o = s.cfg.byteOrder)
    (h : State.answering (f.reads o) s = some t) (hc : b.length + f.data.length ≤ s.cfg.rbufCap) :
    readFrame (s.amid b r) = .ok (some f.flag) (t.amid (b ++ f.data) r) := by
  rw [WireFrame.reads, List.append_assoc] at h
  obtain ⟨u, h, hu, e⟩ := headReads_answered (b := b) (r := r) ho hf.1 h
  obtain ⟨v, h1, h2⟩ := State.answering_append.1 h
  rw [e, readData_answered h1 (by rwa [hu]), Res.bind_ok, ← hf.2, readPad_answered h2, Res.bind_ok]

end Amid

/-! ### The loop -/

/-- One more frame of an open record. -/
theorem rdrecLoop_more {s t : State} {b : List Byte} {r : RState} {f : WireFrame} (hf : f.Wf)
    {o : ByteOrder} (ho : o = s.cfg.byteOrder) (h : State.answering (f.reads o) s = some t)
    (hc : b.length + f.data.length ≤ s.cfg.rbufCap) (hj : judge r f.flag = .more) (n : Nat) :
    rdrecLoop (n + 1) (s.amid b r) =
      rdrecLoop n (t.amid (b ++ f.data) .awaitingContinuation) := by
  rw [rdrecLoop, readFrame_answered hf ho h hc]
  show (match judge r f.flag with
    | .done => _
    | .more => _
    | .bad c => _) = _
  rw [hj]; rfl

/-- The frames `2*` of a record under way. -/
theorem rdrecLoop_awaiting {o : ByteOrder} (fs : List WireFrame) : ∀ {s t : State} {b : List Byte}
    (n : Nat), (∀ f ∈ fs, f.Wf) → (∀ f ∈ fs, f.flag = 2) → o = s.cfg.byteOrder →
    State.answering (wireReads o fs) s = some t →
    b.length + (wireData fs).length ≤ s.cfg.rbufCap →
    rdrecLoop (fs.length + n) (s.amid b .awaitingContinuation) =
      rdrecLoop n (t.amid (b ++ wireData fs) .awaitingContinuation) := by
  induction fs with
  | nil =>
    intro s t b n _ _ _ h _
    cases h; simp [wireData]
  | cons f fs ih =>
    intro s t b n hw hf ho h hc
    rw [wireReads, List.flatMap_cons] at h
    obtain ⟨u, h1, h2⟩ := State.answering_append.1 h
    have hu : u.cfg = s.cfg := by
      obtain ⟨⟨_, _, rfl⟩, -⟩ := State.answering_answered h1; rfl
    rw [wireData, List.flatMap_cons, List.length_append] at hc
    rw [List.length_cons, Nat.add_right_comm,
      rdrecLoop_more (hw f (by simp)) ho h1 (by omega) (by rw [hf f (by simp)]; rfl),
      ih n (fun g hg => hw g (by simp [hg])) (fun g hg => hf g (by simp [hg])) (by rw [hu]; exact ho)
        h2 (by rw [hu, List.length_append]; simp only [wireData]; omega)]
    simp [wireData]

/-- The frames `1 2*` of an open record, or none, from its start. -/
theorem rdrecLoop_open {o : ByteOrder} {fs : List WireFrame} {s t : State} (n : Nat)
    (hw : ∀ f ∈ fs, f.Wf) (hf : openRecordFlags (fs.map (·.flag)) = true) (ho : o = s.cfg.byteOrder)
    (h : State.answering (wireReads o fs) s = some t)
    (hc : (wireData fs).length ≤ s.cfg.rbufCap) :
    rdrecLoop (fs.length + n) s.openRecord = rdrecLoop n (t.amid (wireData fs) (openState fs)) := by
  show rdrecLoop (fs.length + n) (s.amid [] .start) = _
  cases fs with
  | nil => cases h; rw [List.length_nil, Nat.zero_add]; rfl
  | cons f fs =>
    rw [wireReads, List.flatMap_cons] at h
    obtain ⟨u, h1, h2⟩ := State.answering_append.1 h
    have hu : u.cfg = s.cfg := by
      obtain ⟨⟨_, _, rfl⟩, -⟩ := State.answering_answered h1; rfl
    simp [openRecordFlags] at hf
    rw [wireData, List.flatMap_cons, List.length_append] at hc
    rw [List.length_cons, Nat.add_right_comm,
      rdrecLoop_more (hw f (by simp)) ho h1 (by simp; omega) (by rw [hf.1]; rfl),
      rdrecLoop_awaiting fs n (fun g hg => hw g (by simp [hg])) hf.2 (by rw [hu]; exact ho) h2
        (by rw [hu, List.length_append]; simp only [wireData, List.length_nil]; omega)]
    simp [wireData, openState]

/-- A frame at fault ends the loop with its cause, RBUF holding what was appended and nothing read
beyond it. -/
theorem rdrecLoop_bad {o : ByteOrder} {s u : State} {b d : List Byte} {r : RState}
    {es : List StreamEvent} {c : Cause} (hr : r = .start ∨ r = .awaitingContinuation)
    (ho : o = s.cfg.byteOrder) (hb : BadFrame o r d es c) (h : State.answering es s = some u)
    (hc : b.length + d.length ≤ s.cfg.rbufCap) (n : Nat) :
    rdrecLoop (n + 1) (s.amid b r) = .raised c ((u.amid (b ++ d) r).afterReadFault s.rpos) := by
  have first : ∀ {m : List Byte} {es' : List StreamEvent},
      State.answering (.read 4 (some m) :: es') s = some u →
      ∃ t, streamRead 4 (s.amid b r) = .ok m (t.amid b r) ∧ State.answering es' t = some u := by
    intro m es' h
    obtain ⟨t, h1, h2⟩ := State.answering_read.1 h
    exact ⟨t, streamRead_amid_ok h1, h2⟩
  have raised : ∀ {c : Cause} {t : State}, readFrame (s.amid b r) = .raised c t →
      rdrecLoop (n + 1) (s.amid b r) = .raised c (t.afterReadFault s.rpos) := by
    intro c t h; rw [rdrecLoop, h]; rfl
  have header : ∀ {h4 : List Byte} {t v : State}, h4.length < 4 → streamRead 4 t = .ok h4 v →
      readHeader (t.amid b r) = .raised .shortHeader (v.amid b r) := by
    intro h4 t v hl h
    rw [readHeader, streamRead_amid_ok h, Res.bind_ok]
    match h4, hl with
    | [], _ => rfl
    | [_], _ => rfl
    | [_, _], _ => rfl
    | [_, _, _], _ => rfl
  cases c with
  | none => exact hb.elim
  | lenRange => exact hb.elim
  | flagRange => exact hb.elim
  | wrFail => exact hb.elim
  | eosMidRecord =>
    obtain ⟨rfl, rfl, rfl⟩ := hb
    obtain ⟨t, h1, h2⟩ := first h
    cases h2
    refine raised ?_
    rw [readFrame, readMagic, h1, List.append_nil]; rfl
  | shortMagic =>
    obtain ⟨rfl, m, m1, m2, rfl⟩ := hb
    obtain ⟨t, h1, h2⟩ := first h
    cases h2
    refine raised ?_
    rw [readFrame, readMagic, h1, List.append_nil]
    match m, m1, m2 with
    | [_], _, _ => rfl
    | [_, _], _, _ => rfl
    | [_, _, _], _, _ => rfl
  | badMagic =>
    obtain ⟨rfl, m, m1, m2, rfl⟩ := hb
    obtain ⟨t, h1, h2⟩ := first h
    have ht : u.cfg = s.cfg := by
      obtain ⟨⟨_, _, rfl⟩, -⟩ := State.answering_answered h; rfl
    cases h2
    refine raised ?_
    obtain ⟨a, b', c', d', rfl⟩ := exists_of_length_four m1
    rw [readFrame, readMagic, h1, List.append_nil, Res.bind_ok]
    simp only
    rw [if_neg]; · rfl
    intro hm
    apply m2
    rw [← hm, ho, ← ht]
    exact (ser32_deser32 u.cfg.byteOrder a b' c' d').symm
  | shortHeader =>
    obtain ⟨rfl, x, x1, rfl⟩ := hb
    subst ho
    obtain ⟨t, h1, h2⟩ := State.answering_read.1 h
    obtain ⟨v, h3, h4⟩ := State.answering_read.1 h2
    have ht : t.cfg = s.cfg := by obtain ⟨⟨_, _, rfl⟩, -⟩ := State.answered_one.1 _ h1; rfl
    cases h4
    refine raised ?_
    rw [readFrame, readMagic_answered h1 ht, Res.bind_ok, if_pos rfl, header x1 h3, List.append_nil]; rfl
  | shortData =>
    obtain ⟨rfl, fl, m, x, m1, m2, rfl⟩ := hb
    obtain ⟨t, h1, h2, e⟩ := headReads_answered (b := b) (r := r) ho m1 h
    obtain ⟨v, h3, h4⟩ := State.answering_read.1 h1
    cases h4
    refine raised ?_
    rw [e, readData, if_neg (by omega), streamRead_amid_ok h3, Res.bind_ok, if_pos m2, List.append_nil]
    rfl
  | shortPad =>
    obtain ⟨fl, z, m1, m2, rfl⟩ := hb
    rw [List.append_assoc] at h
    obtain ⟨t, h1, h2, e⟩ := headReads_answered (b := b) (r := r) ho m1 h
    obtain ⟨v, h3, h4⟩ := State.answering_append.1 h1
    obtain ⟨w, h5, h6⟩ := State.answering_read.1 h4
    cases h6
    refine raised ?_
    rw [e, readData_answered h3 (by rwa [h2]), Res.bind_ok, readPad, if_neg (by omega),
      streamRead_amid_ok h5, Res.bind_ok, if_pos m2]
    rfl
  | contWithoutStart =>
    obtain ⟨rfl, f, f1, f2, rfl, rfl⟩ := hb
    rw [rdrecLoop, readFrame_answered f1 ho h hc]
    have : judge .start f.flag = .bad .contWithoutStart := by rcases f2 with f2 | f2 <;> rw [f2] <;> rfl
    show (match judge .start f.flag with
      | .done => _
      | .more => _
      | .bad c => _) = _
    rw [this]; rfl
  | startBeforeEnd =>
    obtain ⟨rfl, f, f1, f2, rfl, rfl⟩ := hb
    rw [rdrecLoop, readFrame_answered f1 ho h hc]
    have : judge .awaitingContinuation f.flag = .bad .startBeforeEnd := by
      rcases f2 with f2 | f2 <;> rw [f2] <;> rfl
    show (match judge .awaitingContinuation f.flag with
      | .done => _
      | .more => _
      | .bad c => _) = _
    rw [this]; rfl
  | rdFail =>
    rcases hb with ⟨rfl, rfl⟩ | ⟨rfl, rfl⟩ | ⟨rfl, fl, m, m1, m2, rfl⟩ | ⟨fl, m1, m2, rfl⟩
    · obtain ⟨t, h1, h2⟩ := State.answering_fail.1 h
      cases h2
      refine raised ?_
      rw [readFrame, readMagic, streamRead_amid_raised h1, List.append_nil]; rfl
    · subst ho
      obtain ⟨t, h1, h2⟩ := State.answering_read.1 h
      obtain ⟨v, h3, h4⟩ := State.answering_fail.1 h2
      have ht : t.cfg = s.cfg := by obtain ⟨⟨_, _, rfl⟩, -⟩ := State.answered_one.1 _ h1; rfl
      cases h4
      refine raised ?_
      rw [readFrame, readMagic_answered h1 ht, Res.bind_ok, if_pos rfl, readHeader,
        streamRead_amid_raised h3, List.append_nil]; rfl
    · obtain ⟨t, h1, h2, e⟩ := headReads_answered (b := b) (r := r) ho m2 h
      obtain ⟨v, h3, h4⟩ := State.answering_fail.1 h1
      cases h4
      refine raised ?_
      rw [e, readData, if_neg (by omega), streamRead_amid_raised h3, List.append_nil]; rfl
    · rw [List.append_assoc] at h
      obtain ⟨t, h1, h2, e⟩ := headReads_answered (b := b) (r := r) ho m1 h
      obtain ⟨v, h3, h4⟩ := State.answering_append.1 h1
      obtain ⟨w, h5, h6⟩ := State.answering_fail.1 h4
      cases h6
      refine raised ?_
      rw [e, readData_answered h3 (by rwa [h2]), Res.bind_ok, readPad, if_neg (by omega),
        streamRead_amid_raised h5]
      rfl

end Sys2Proof.Machine
end

