-- ==== Sys2Proof/Laws/Bound.lean ====
section
/-! SUPPORT. The bound on RDREC's loop cuts nothing off: where the loop has used it up, the input stream
repeats itself at a frame's start, so the loop would go on for ever (45_deframer R206, log 20). -/

namespace Sys2Proof.Machine

/-! ### Frames in a row -/

/-- The state after one more frame of an open record, when the loop goes on. -/
def State.nextFrame (s : State) : Option State :=
  match readFrame s with
  | .ok (some flag) t =>
    if judge t.rstate flag = .more then some { t with rstate := .awaitingContinuation } else none
  | _ => none

/-- The state after `n` more frames. -/
def State.walk : Nat → State → Option State
  | 0, s => some s
  | n + 1, s => s.nextFrame.bind (State.walk n)

theorem State.walk_add (m n : Nat) : ∀ s : State, s.walk (m + n) = (s.walk m).bind (State.walk n) := by
  induction m with
  | zero => intro s; simp [State.walk]
  | succ m ih =>
    intro s
    rw [Nat.succ_add, State.walk, State.walk]
    cases s.nextFrame with
    | none => rfl
    | some t => exact ih t

/-- The loop goes on as the walk does, and ends otherwise. -/
theorem rdrecLoop_succ (n : Nat) (s : State) :
    rdrecLoop (n + 1) s = (match s.nextFrame with
      | some t => rdrecLoop n t
      | none => rdrecLoop 1 s) ∧
    (s.nextFrame = none → rdrecLoop (n + 1) s ≠ .stuck .readerNeverEnds) := by
  have R := readFrame_ends s
  rw [rdrecLoop, State.nextFrame, rdrecLoop]
  generalize readFrame s = r at R
  cases r with
  | ok a t =>
    cases a with
    | none => exact ⟨rfl, fun _ h => by cases h⟩
    | some fl =>
      simp only
      cases hj : judge t.rstate fl with
      | done => exact ⟨rfl, fun _ h => by cases h⟩
      | more => exact ⟨rfl, fun h => by simp at h⟩
      | bad c => exact ⟨rfl, fun _ h => by cases h⟩
  | stuck f => obtain ⟨rfl, -⟩ := R; exact ⟨rfl, fun _ h => by cases h⟩
  | refuse => exact R.elim
  | _ => exact ⟨rfl, fun _ h => by cases h⟩

theorem rdrecLoop_walk {m : Nat} : ∀ {s t : State}, s.walk m = some t → ∀ n,
    rdrecLoop (m + n) s = rdrecLoop n t := by
  induction m with
  | zero => intro s t h n; cases h; rw [Nat.zero_add]
  | succ m ih =>
    intro s t h n
    rw [Nat.succ_add, (rdrecLoop_succ _ s).1]
    rw [State.walk] at h
    cases hs : s.nextFrame with
    | none => rw [hs] at h; cases h
    | some u => rw [hs] at h; exact ih h n

/-- The loop uses its bound up exactly when that many frames can be walked. -/
theorem rdrecLoop_neverEnds (n : Nat) : ∀ s : State,
    rdrecLoop n s = .stuck .readerNeverEnds ↔ ∃ t, s.walk n = some t := by
  induction n with
  | zero => intro s; exact ⟨fun _ => ⟨s, rfl⟩, fun _ => rfl⟩
  | succ n ih =>
    intro s
    have h := rdrecLoop_succ n s
    rw [State.walk]
    cases hs : s.nextFrame with
    | none => simpa using h.2 hs
    | some u => rw [hs] at h; rw [h.1]; simpa using ih u

/-! ### What a walk does -/

theorem readMagic_reads {s t : State} {more : Bool} (h : readMagic s = .ok more t) :
    t.oracle.reads = s.oracle.reads.drop 1 := by
  obtain ⟨d, u, h1, h2⟩ := Res.bind_eq_ok.1 h
  have : t = u := by
    split at h2
    · split at h2 <;> cases h2; rfl
    · split at h2 <;> cases h2; rfl
    · cases h2
  obtain ⟨⟨m, n, rfl⟩, -⟩ := State.answered_one.1 _ h1
  rw [this]; rfl

/-- Every frame uses an answer of the environment's up, while there is one. -/
theorem readFrame_reads {s t : State} {a : Option CFlag} (h : readFrame s = .ok a t) :
    t.oracle.reads <:+ s.oracle.reads.drop 1 := by
  obtain ⟨more, u, h1, h2⟩ := Res.bind_eq_ok.1 h
  rw [← readMagic_reads h1]
  cases more with
  | false => cases h2; exact List.suffix_refl _
  | true =>
    have R : FieldEnds u (fun _ _ => True) (Res.ok a t) := by
      rw [← h2, if_pos rfl]
      refine (readHeader_field u).bind fun w v _ _ => ?_
      refine (readData_field _ v).bind fun _ x _ _ => ?_
      refine (readPad_field _ x).bind fun _ y _ _ => ?_
      exact ⟨State.Took.refl y, fun _ => le_rfl, trivial⟩
    exact R.1.same.2.2.2

/-- What `k` frames in a row have done. -/
structure State.Walked (s : State) (k : Nat) (t : State) : Prop where
  cfg : t.cfg = s.cfg
  supply : t.supply = s.supply
  istream : ∃ m, t.istream = s.istream ++ handed s.supply m
  rpos : s.rpos + 8 * k ≤ t.rpos
  reads : t.oracle.reads.length ≤ s.oracle.reads.length - k
  rbuf : s.rbuf.length ≤ t.rbuf.length
  inside : k ≠ 0 → t.rpos ≤ t.istream.length ∧ t.rstate = .awaitingContinuation

theorem State.nextFrame_walked {s t : State} (h : s.nextFrame = some t) : s.Walked 1 t := by
  have R := readFrame_ends s
  unfold State.nextFrame at h
  cases hr : readFrame s with
  | ok a u =>
    rw [hr] at h R
    cases a with
    | none => cases h
    | some fl =>
      simp only at h
      split at h
      · cases h
        have H := readFrame_reads hr
        obtain ⟨r1, -, f, -, -, r2, r3, -⟩ := R
        obtain ⟨m, k, hh, o, b, rfl, -⟩ := r1
        have h8 := WireFrame.length_bytes s.cfg.byteOrder f
        refine ⟨rfl, rfl, ⟨m, rfl⟩, ?_, ?_, ?_, fun _ => ⟨?_, rfl⟩⟩
        · have := r3.1; simp only at this ⊢; omega
        · simpa using H.length_le
        · simp only at r2 ⊢; rw [r2]; simp
        · have := r3.2.length_le; have := r3.1; simp only [List.length_drop] at *; omega
      · cases h
  | _ => rw [hr] at h; cases h

theorem State.walk_walked {k : Nat} : ∀ {s t : State}, s.walk k = some t → s.Walked k t := by
  induction k with
  | zero =>
    intro s t h; cases h
    exact ⟨rfl, rfl, ⟨0, by simp⟩, by omega, by omega, le_rfl, fun h => absurd rfl h⟩
  | succ k ih =>
    intro s t h
    rw [State.walk, Option.bind_eq_some_iff] at h
    obtain ⟨u, h1, h2⟩ := h
    have a := State.nextFrame_walked h1
    have b := ih h2
    obtain ⟨m, hm⟩ := a.istream
    obtain ⟨m', hm'⟩ := b.istream
    refine ⟨b.cfg.trans a.cfg, b.supply.trans a.supply, ⟨m + m', ?_⟩, ?_, ?_, a.rbuf.trans b.rbuf,
      fun _ => ?_⟩
    · rw [hm', hm, a.supply, handed_add, List.append_assoc]
    · have := a.rpos; have := b.rpos; omega
    · have := a.reads; have := b.reads; omega
    · by_cases hk : k = 0
      · subst hk; cases h2; exact a.inside (by decide)
      · exact b.inside hk

/-! ### A stream that repeats itself -/

/-- The next `n` bytes of a stream that never ends. -/
def State.flow (s : State) (n : Nat) : List Byte :=
  ((s.istream ++ handed s.supply n).drop s.rpos).take n

/-- However much the source has handed over, as long as it is enough. -/
theorem State.flow_eq {s : State} (hs : s.supply ≠ []) (hr : s.rpos ≤ s.istream.length) {m n : Nat}
    (h : s.rpos + n ≤ s.istream.length + m * s.supply.length) :
    ((s.istream ++ handed s.supply m).drop s.rpos).take n = s.flow n := by
  have pos : 0 < s.supply.length := List.length_pos_iff.2 hs
  have key : ∀ a b, a ≤ b → s.rpos + n ≤ s.istream.length + a * s.supply.length →
      ((s.istream ++ handed s.supply a).drop s.rpos).take n =
        ((s.istream ++ handed s.supply b).drop s.rpos).take n := by
    intro a b hab ha
    obtain ⟨c, rfl⟩ := Nat.exists_eq_add_of_le hab
    rw [handed_add, ← List.append_assoc, List.drop_append_of_le_length (l₁ := s.istream ++ _),
      List.take_append_of_le_length]
    · simp [length_handed]; omega
    · simp; omega
  have hn : s.rpos + n ≤ s.istream.length + n * s.supply.length := by nlinarith
  rcases Nat.le_total m n with hmn | hmn
  · exact key m n hmn h
  · exact (key n m hmn hn).symm

/-- Two states the reader cannot tell apart but by RBUF, of which the second holds no less. -/
structure State.Alike (s t : State) : Prop where
  cfg : t.cfg = s.cfg
  supply : t.supply = s.supply
  endless : s.supply ≠ []
  rstate : t.rstate = s.rstate
  reads : s.oracle.reads = [] ∧ t.oracle.reads = []
  inside : s.rpos ≤ s.istream.length ∧ t.rpos ≤ t.istream.length
  flow : ∀ n, t.flow n = s.flow n
  rbuf : s.rbuf.length ≤ t.rbuf.length

/-- Where the source has handed over the same bytes, a whole number of times apart, the stream goes
on alike. -/
theorem flow_periodic {s t : State} {base : List Byte} {m m' c : Nat} (hs : s.supply ≠ [])
    (hsu : t.supply = s.supply) (h1 : s.istream = base ++ handed s.supply m)
    (h2 : t.istream = base ++ handed s.supply m') (hb : base.length ≤ s.rpos)
    (hi : s.rpos ≤ s.istream.length) (hi' : t.rpos ≤ t.istream.length)
    (hc : t.rpos = s.rpos + c * s.supply.length) (n : Nat) : t.flow n = s.flow n := by
  have pos : 0 < s.supply.length := List.length_pos_iff.2 hs
  have shift : ∀ x k, (handed s.supply (c + k)).drop (x + c * s.supply.length)
      = (handed s.supply k).drop x := by
    intro x k
    rw [handed_add, Nat.add_comm x, ← List.drop_drop, ← length_handed s.supply c, List.drop_left]
  have l1 : s.istream.length = base.length + m * s.supply.length := by rw [h1]; simp [length_handed]
  have l2 : t.istream.length = base.length + m' * s.supply.length := by rw [h2]; simp [length_handed]
  rw [← State.flow_eq (hsu ▸ hs) hi' (m := c + m + n) (by rw [hsu]; nlinarith),
    ← State.flow_eq hs hi (m := m' + n) (by nlinarith), hsu, h1, h2, List.append_assoc,
    List.append_assoc, ← handed_add, ← handed_add, List.drop_append, List.drop_append,
    List.drop_of_length_le (by omega), List.drop_of_length_le hb, hc,
    show s.rpos + c * s.supply.length - base.length
      = s.rpos - base.length + c * s.supply.length by omega,
    show m' + (c + m + n) = c + (m + (m' + n)) by omega, shift]

/-- What a part of the reader does in one of two alike states it does in the other, unless RBUF runs out
of room there. -/
def SameEnd {α : Type} (r r' : Res α) : Prop :=
  (∃ a s t, r = .ok a s ∧ r' = .ok a t ∧ s.Alike t) ∨ r' = .outside .rbufCapacity ∨
    (∀ a s, r ≠ .ok a s) ∧ r ≠ .outside .rbufCapacity

theorem SameEnd.bind {α β : Type} {r r' : Res α} {k : α → State → Res β} (h : SameEnd r r')
    (hk : ∀ a s t, s.Alike t → SameEnd (k a s) (k a t)) : SameEnd (r.bind k) (r'.bind k) := by
  rcases h with ⟨a, s, t, rfl, rfl, h⟩ | rfl | h
  · exact hk a s t h
  · exact .inr (.inl rfl)
  · refine .inr (.inr ?_)
    cases r with
    | ok a s => exact absurd rfl (h.1 a s)
    | outside f => exact ⟨by simp, fun e => h.2 (by cases e; rfl)⟩
    | _ => simp

variable {s t : State}

theorem streamRead_alike (h : s.Alike t) (n : Nat) : SameEnd (streamRead n s) (streamRead n t) := by
  have full : ∀ {s : State}, s.supply ≠ [] → s.oracle.reads = [] → s.rpos ≤ s.istream.length →
      ∃ m, s.rpos + n ≤ s.istream.length + m * s.supply.length ∧
        streamRead n s = .ok (s.flow n) { s with
          istream := s.istream ++ handed s.supply m, rpos := s.rpos + n
          history := s.history ++ [.read n (some (s.flow n))] } := by
    intro s hs ho hi
    have pos : 0 < s.supply.length := List.length_pos_iff.2 hs
    obtain ⟨m, hm⟩ : ∃ m, m = (s.rpos + n - s.istream.length + s.supply.length - 1) / s.supply.length :=
      ⟨_, rfl⟩
    have hle : s.rpos + n ≤ s.istream.length + m * s.supply.length := by
      have := Nat.lt_succ_iff.2 (Nat.le_of_eq hm.symm)
      have := Nat.div_add_mod (s.rpos + n - s.istream.length + s.supply.length - 1) s.supply.length
      have := Nat.mod_lt (s.rpos + n - s.istream.length + s.supply.length - 1) pos
      rw [← hm] at *
      have : s.supply.length * m = m * s.supply.length := Nat.mul_comm _ _
      omega
    refine ⟨m, hle, ?_⟩
    have e : (s.refill n).nextRead = (.full, s.refill n) := by simp [State.nextRead, ho]
    have ha : (s.refill n).ahead n = s.flow n := by
      rw [← State.flow_eq hs hi hle, hm]; rfl
    have hl : (s.flow n).length = n := by
      rw [← State.flow_eq hs hi hle]; simp [length_handed]; omega
    rw [streamRead, e]
    simp only [ha, hl]
    rw [hm]; rfl
  obtain ⟨m, h1, e1⟩ := full h.endless h.reads.1 h.inside.1
  obtain ⟨m', h2, e2⟩ := full (h.supply ▸ h.endless) h.reads.2 h.inside.2
  rw [e1, e2, h.flow]
  refine .inl ⟨_, _, _, rfl, rfl, h.cfg, h.supply, h.endless, h.rstate, h.reads, ?_, fun k => ?_, h.rbuf⟩
  · simp [length_handed]; omega
  · have go : ∀ {s : State} {m : Nat} (h : List StreamEvent), s.supply ≠ [] →
        s.rpos ≤ s.istream.length → s.rpos + n ≤ s.istream.length + m * s.supply.length →
        State.flow { s with
          istream := s.istream ++ handed s.supply m, rpos := s.rpos + n, history := h } k =
          (s.flow (n + k)).drop n := by
      intro s m h hs hi hle
      have pos : 0 < s.supply.length := List.length_pos_iff.2 hs
      rw [← State.flow_eq hs hi (m := m + k) (by nlinarith), State.flow, List.append_assoc,
        ← handed_add, ← List.drop_drop, List.drop_take, Nat.add_sub_cancel_left]
    rw [go _ h.endless h.inside.1 h1, go _ (h.supply ▸ h.endless) h.inside.2 h2, h.flow]

theorem readFrame_alike (h : s.Alike t) : SameEnd (readFrame s) (readFrame t) := by
  have pure : ∀ {α : Type} (a : α) {s t : State}, s.Alike t → SameEnd (.ok a s) (.ok a t) :=
    fun a _ _ h => .inl ⟨a, _, _, rfl, rfl, h⟩
  have bad : ∀ {α : Type} (c : Cause) (s t : State),
      SameEnd (.raised c s : Res α) (.raised c t) := fun c s t => .inr (.inr (by simp))
  refine SameEnd.bind ?_ fun more s1 t1 h1 => ?_
  · refine (streamRead_alike h 4).bind fun m s1 t1 h1 => ?_
    rcases Nat.lt_or_ge m.length 4 with hm | hm
    · match m, hm with
      | [], _ =>
        simp only [h1.rstate]
        split
        · exact pure _ h1
        · exact bad _ _ _
      | [_], _ => exact bad _ _ _
      | [_, _], _ => exact bad _ _ _
      | [_, _, _], _ => exact bad _ _ _
    · match m, hm with
      | [_, _, _, _], _ =>
        simp only [h1.cfg]
        split
        · exact pure _ h1
        · exact bad _ _ _
      | _ :: _ :: _ :: _ :: _ :: _, _ => exact bad _ _ _
  · split
    · refine SameEnd.bind ?_ fun w s2 t2 h2 => SameEnd.bind ?_ fun _ s3 t3 h3 =>
        SameEnd.bind ?_ fun _ s4 t4 h4 => pure _ h4
      · refine (streamRead_alike h1 4).bind fun m s2 t2 h2 => ?_
        match m with
        | [_, _, _, _] => simp only [h2.cfg]; exact pure _ h2
        | [] => exact bad _ _ _
        | [_] => exact bad _ _ _
        | [_, _] => exact bad _ _ _
        | [_, _, _] => exact bad _ _ _
        | _ :: _ :: _ :: _ :: _ :: _ => exact bad _ _ _
      · unfold readData
        split
        · exact pure _ h2
        · refine (streamRead_alike h2 _).bind fun d s3 t3 h3 => ?_
          split
          · exact bad _ _ _
          · unfold appendRbuf
            by_cases hc : t3.rbuf.length + d.length ≤ t3.cfg.rbufCap
            · have := h3.rbuf
              rw [if_pos hc, if_pos (by rw [← h3.cfg]; omega)]
              exact pure _ ⟨h3.cfg, h3.supply, h3.endless, h3.rstate, h3.reads, h3.inside, h3.flow,
                by simpa using this⟩
            · rw [if_neg hc]; exact .inr (.inl rfl)
      · unfold readPad
        split
        · exact pure _ h3
        · refine (streamRead_alike h3 _).bind fun d s4 t4 h4 => ?_
          split
          · exact bad _ _ _
          · exact pure _ h4
    · exact pure _ h1

/-! ### The bound -/

/-- The loop has not ended by itself. -/
def NoEnd (r : Res (Word × Word)) : Prop := r = .stuck .readerNeverEnds ∨ r = .outside .rbufCapacity

theorem rdrecLoop_alike (n : Nat) : ∀ {s t : State}, s.Alike t → NoEnd (rdrecLoop n s) →
    NoEnd (rdrecLoop n t) := by
  induction n with
  | zero => intro s t _ _; exact .inl rfl
  | succ n ih =>
    intro s t h hn
    have S := readFrame_alike h
    have R := readFrame_ends s
    rw [rdrecLoop] at hn ⊢
    rcases S with ⟨a, s1, t1, e1, e2, h1⟩ | e | ⟨h1, h2⟩
    · rw [e1] at hn
      rw [e2]
      cases a with
      | none => rcases hn with hn | hn <;> cases hn
      | some fl =>
        simp only [h1.rstate] at hn ⊢
        cases hj : judge s1.rstate fl with
        | done => rw [hj] at hn; rcases hn with hn | hn <;> cases hn
        | bad c => rw [hj] at hn; rcases hn with hn | hn <;> cases hn
        | more =>
          rw [hj] at hn
          exact ih (s := { s1 with rstate := .awaitingContinuation })
            ⟨h1.cfg, h1.supply, h1.endless, rfl, h1.reads, h1.inside, h1.flow, h1.rbuf⟩ hn
    · rw [e]; exact .inr rfl
    · generalize readFrame s = r at *
      cases r with
      | ok a u => exact absurd rfl (h1 a u)
      | stuck f => obtain ⟨rfl, -⟩ := R; rcases hn with hn | hn <;> cases hn
      | outside f => obtain ⟨rfl, -⟩ := R; exact absurd rfl h2
      | refuse => exact R.elim
      | _ => rcases hn with hn | hn <;> cases hn

/-- Where RDREC's bound is used up, no longer loop would end either: it goes on for ever, or RBUF runs
out of room. -/
theorem rdrecLoop_bound {s : State} (h : rdrecLoop (rdrecBound s) s.openRecord = .stuck .readerNeverEnds)
    (n : Nat) : NoEnd (rdrecLoop n s.openRecord) := by
  obtain ⟨N, hN⟩ : ∃ N, N = rdrecBound s := ⟨_, rfl⟩
  rw [← hN] at h
  have hN' : N = s.istream.length + s.oracle.reads.length + s.supply.length + 1 := hN
  obtain ⟨last, hlast⟩ := (rdrecLoop_neverEnds _ _).1 h
  -- the state before each frame
  have at' : ∀ k, k ≤ N → ∃ t, s.openRecord.walk k = some t := by
    intro k hk
    obtain ⟨c, rfl⟩ := Nat.exists_eq_add_of_le hk
    rw [State.walk_add, Option.bind_eq_some_iff] at hlast
    exact ⟨_, hlast.choose_spec.1⟩
  have hs : s.supply ≠ [] := by
    intro h0
    have W := State.walk_walked hlast
    obtain ⟨m, hm⟩ := W.istream
    have := W.rpos
    have := (W.inside (by omega)).1
    rw [hm] at this
    simp [State.openRecord, h0] at this
    omega
  have pos : 0 < s.supply.length := List.length_pos_iff.2 hs
  -- two frames begin at the same place of the supply
  let a := s.istream.length + s.oracle.reads.length + 1
  let place : Nat → Nat := fun k => ((s.openRecord.walk k).getD s).rpos % s.supply.length
  obtain ⟨i, hi, j, hj, hij, hp⟩ := Finset.exists_ne_map_eq_of_card_lt_of_maps_to
    (s := Finset.Icc a N) (t := Finset.range s.supply.length) (f := place)
    (by simp [a]; omega) (by intro k _; simpa [place] using Nat.mod_lt _ pos)
  wlog hlt : i < j generalizing i j
  · exact this j hj i hi (Ne.symm hij) hp.symm (by omega)
  rw [Finset.mem_Icc] at hi hj
  obtain ⟨u, hu⟩ := at' i hi.2
  obtain ⟨v, hv⟩ := at' j hj.2
  obtain ⟨d, rfl⟩ := Nat.exists_eq_add_of_le hlt.le
  have huv : u.walk d = some v := by simpa [State.walk_add, hu] using hv
  have W := State.walk_walked hu
  have V := State.walk_walked hv
  have D := State.walk_walked huv
  have alike : u.Alike v := by
    obtain ⟨m, hm⟩ := W.istream
    obtain ⟨m', hm'⟩ := V.istream
    have hd : 0 < d := by omega
    have hru := W.rpos
    have hrd := D.rpos
    have r1 := W.reads
    have r2 := V.reads
    simp only [State.openRecord_oracle] at r1 r2
    have hc : ∃ c, v.rpos = u.rpos + c * u.supply.length := by
      simp only [place, hu, hv, Option.getD_some] at hp
      obtain ⟨c, hc⟩ := (Nat.modEq_iff_dvd' (by omega)).1
        (show u.rpos ≡ v.rpos [MOD s.supply.length] from hp)
      refine ⟨c, ?_⟩
      rw [W.supply, State.openRecord_supply, Nat.mul_comm]; omega
    obtain ⟨c, hc⟩ := hc
    refine ⟨D.cfg, D.supply, by rw [W.supply]; exact hs,
      ((V.inside (by omega)).2).trans ((W.inside (by omega)).2).symm,
      ⟨List.length_eq_zero_iff.1 (by omega), List.length_eq_zero_iff.1 (by omega)⟩,
      ⟨(W.inside (by omega)).1, (V.inside (by omega)).1⟩, ?_, D.rbuf⟩
    exact flow_periodic (base := s.istream) (m := m) (m' := m') (c := c) (by rw [W.supply]; exact hs)
      D.supply (by rw [hm, W.supply]; rfl) (by rw [hm', W.supply]; rfl)
      (by simp only [State.openRecord_rpos] at hru; omega) (W.inside (by omega)).1
      (V.inside (by omega)).1 hc
  -- so the frames from the first of the two on come again and again
  have ever : ∀ n, NoEnd (rdrecLoop n u) := by
    intro n
    induction n using Nat.strong_induction_on with
    | _ n ih =>
      rcases Nat.lt_or_ge n d with hn | hn
      · obtain ⟨c, rfl⟩ := Nat.exists_eq_add_of_le hn.le
        rw [State.walk_add, Option.bind_eq_some_iff] at huv
        exact .inl ((rdrecLoop_neverEnds _ _).2 ⟨_, huv.choose_spec.1⟩)
      · obtain ⟨c, rfl⟩ := Nat.exists_eq_add_of_le hn
        rw [rdrecLoop_walk huv]
        exact rdrecLoop_alike c alike (ih c (by omega))
  rcases Nat.lt_or_ge n i with hn | hn
  · obtain ⟨t, ht⟩ := at' n (by omega)
    exact .inl ((rdrecLoop_neverEnds _ _).2 ⟨t, ht⟩)
  · obtain ⟨c, rfl⟩ := Nat.exists_eq_add_of_le hn
    rw [rdrecLoop_walk hu]
    exact ever c

/-- A longer bound changes nothing once the loop has ended. -/
theorem rdrecLoop_mono {m : Nat} : ∀ {t : State}, rdrecLoop m t ≠ .stuck .readerNeverEnds → ∀ k,
    rdrecLoop (m + k) t = rdrecLoop m t := by
  induction m with
  | zero => intro t h; exact absurd rfl h
  | succ m ih =>
    intro t h k
    rw [(rdrecLoop_succ m t).1] at h
    rw [Nat.succ_add, (rdrecLoop_succ _ t).1, (rdrecLoop_succ m t).1]
    cases hn : t.nextFrame with
    | none => rfl
    | some u => rw [hn] at h; exact ih h k

/-- What the loop ends with under some bound, it ends with under RDREC's. -/
theorem rdrecLoop_of_ends {s : State} {n : Nat} {r : Res (Word × Word)}
    (h : rdrecLoop n s.openRecord = r) (hr : ¬ NoEnd r) :
    rdrecLoop (rdrecBound s) s.openRecord = r := by
  subst h
  by_cases hb : rdrecLoop (rdrecBound s) s.openRecord = .stuck .readerNeverEnds
  · exact absurd (rdrecLoop_bound hb n) hr
  · rcases Nat.le_total n (rdrecBound s) with hle | hle <;>
      obtain ⟨k, e⟩ := Nat.exists_eq_add_of_le hle
    · rw [e, rdrecLoop_mono fun e => hr (.inl e)]
    · rw [e, rdrecLoop_mono hb]

end Sys2Proof.Machine
end

