-- ==== Sys2Proof/Laws/Emit.lean ====
section
/-! SUPPORT. The emitter as a plain sequence of stream writes: the frames' writes one after the other,
how such a sequence can end, and what WRREC's body can do. -/

namespace Sys2Proof.Machine

/-- Stream writes one after the other. -/
def writeSeq : List (List Byte) → State → Res Unit
  | [], s => .ok () s
  | b :: bs, s => (streamWrite b s).bind fun _ s1 => writeSeq bs s1

theorem writeSeq_append (xs ys : List (List Byte)) (s : State) :
    writeSeq (xs ++ ys) s = (writeSeq xs s).bind fun _ t => writeSeq ys t := by
  induction xs generalizing s with
  | nil => rfl
  | cons x xs ih => simp only [List.cons_append, writeSeq, Res.bind_assoc, ih]

theorem writeSeq_ends (bs : List (List Byte)) (s : State) : WriteEnds s (writeSeq bs s) := by
  induction bs generalizing s with
  | nil => exact State.Wrote.refl s
  | cons b bs ih =>
    rw [writeSeq]
    have h := streamWrite_ends b s
    generalize streamWrite b s = r at h
    cases r with
    | ok x t =>
      have h2 := ih t
      rw [Res.bind_ok]
      generalize writeSeq bs t = r2 at h2
      cases r2 with
      | ok y u => exact h.trans h2
      | raised c u => exact ⟨h2.1, h.trans h2.2⟩
      | cut u =>
        obtain ⟨h4, k, h5⟩ := h2
        refine ⟨h.trans h4, k, ?_⟩
        obtain ⟨_, _, o, rfl, ho, -⟩ := h
        exact ho.subset h5
      | stuck f => exact h2
      | outside f => exact h2
      | refuse => exact h2
    | raised c u => exact h
    | cut u => exact h
    | stuck f => exact h
    | outside f => exact h
    | refuse => exact h

theorem writeSeq_cfg {bs : List (List Byte)} {s t : State} (h : writeSeq bs s = .ok () t) :
    t.cfg = s.cfg := by
  have := writeSeq_ends bs s
  rw [h] at this; exact State.Wrote.cfg this

/-- A sequence that goes on has appended all its bytes. -/
theorem writeSeq_ostream {bs : List (List Byte)} {s t : State} (h : writeSeq bs s = .ok () t) :
    t.ostream = s.ostream ++ bs.flatten := by
  induction bs generalizing s with
  | nil => cases h; simp
  | cons b bs ih =>
    rw [writeSeq, Res.bind_eq_ok] at h
    obtain ⟨_, u, h1, h2⟩ := h
    rw [ih h2, streamWrite_ostream h1]; simp

/-- A sequence whose coming answers are all `ok`. -/
theorem writeSeq_ok {ws : List (List Byte)} {s : State}
    (h : ∀ a ∈ s.oracle.writes.take ws.length, a = .ok)
    (hl : s.wpos + ws.flatten.length ≤ s.cfg.lwMax) : writeSeq ws s = .ok () (s.afterWrites ws) := by
  induction ws generalizing s with
  | nil => rw [State.afterWrites_nil]; rfl
  | cons b ws ih =>
    have hl' : s.wpos + (b.length + ws.flatten.length) ≤ s.cfg.lwMax := by simpa using hl
    rw [writeSeq, streamWrite_ok (fun a ha => h a (by cases hw : s.oracle.writes <;> simp_all))
      (by omega), Res.bind_ok, ih, State.afterWrites_cons]
    · intro a ha
      apply h
      cases hw : s.oracle.writes with
      | nil => simp [State.afterWrites, hw] at ha
      | cons x xs => simp [State.afterWrites, hw] at ha ⊢; exact .inr ha
    · simp [State.afterWrites]; simp at hl'; omega

/-- Two continuations that agree where the first part can end. -/
theorem Res.bind_congr_ok {α β : Type} {r : Res α} {k k' : α → State → Res β}
    (h : ∀ a t, r = .ok a t → k a t = k' a t) : r.bind k = r.bind k' := by
  cases r with
  | ok a t => exact h a t rfl
  | _ => rfl

theorem streamWriteSome_eq (b : List Byte) (s : State) :
    streamWriteSome b s = writeSeq (if b = [] then [] else [b]) s := by
  cases b with
  | nil => rfl
  | cons x xs => simp [streamWriteSome, writeSeq]; cases streamWrite (x :: xs) s <;> rfl

/-- `emit_frame` is the frame's writes, in order. -/
theorem emitFrame_eq (f : CFlag) (d : List Byte) (s : State) :
    emitFrame f d s = writeSeq (frameWrites s.cfg.byteOrder f d) s := by
  have z : ∀ n, zeros n = [] ↔ n = 0 := fun n => by simp [zeros]
  have e : frameWrites s.cfg.byteOrder f d =
      [ser32 s.cfg.byteOrder magic] ++ ([ser32 s.cfg.byteOrder (headerWord f d.length)]
        ++ ((if d = [] then [] else [d])
          ++ (if zeros (pad d.length) = [] then [] else [zeros (pad d.length)]))) := by
    simp [frameWrites, z]
  have one : ∀ (b : List Byte) (t : State), writeSeq [b] t = streamWrite b t := fun b t => by
    rw [writeSeq]; cases streamWrite b t <;> rfl
  rw [e, writeSeq_append, one, emitFrame]
  refine Res.bind_congr_ok fun _ t h => ?_
  have hc : t.cfg = s.cfg := writeSeq_cfg (bs := [_]) (by rw [one]; exact h)
  rw [writeSeq_append, one, hc]
  refine Res.bind_congr_ok fun _ t h => ?_
  rw [writeSeq_append, streamWriteSome_eq]
  exact Res.bind_congr_ok fun _ t h => streamWriteSome_eq _ _

theorem emitAll_eq (p : List Byte) (cs : List Chunk) (n : Nat) (s : State) :
    emitAll p cs n s =
      (writeSeq (cs.flatMap fun x => frameWrites s.cfg.byteOrder x.cflag (x.slice p)) s).bind
        fun _ t => .ok (n + (cs.map fun x => frameSize x.len).sum) t := by
  induction cs generalizing s n with
  | nil => rfl
  | cons c cs ih =>
    rw [emitAll, List.flatMap_cons, writeSeq_append, emitFrame_eq, Res.bind_assoc]
    refine Res.bind_congr_ok fun _ t h => ?_
    rw [ih, writeSeq_cfg h]
    simp [Nat.add_assoc]

/-- The writes of a frame are its bytes. -/
theorem frameWrites_flatten (o : ByteOrder) (f : CFlag) (d : List Byte) :
    (frameWrites o f d).flatten = frameBytes o f d := by
  unfold frameWrites frameBytes
  by_cases h : d = []
  · subst h
    have hz : pad ([] : List Byte).length = 0 := rfl
    rw [hz]; simp [zeros]
  · by_cases h' : pad d.length = 0 <;> simp [h, h', zeros]

theorem recordWrites_flatten (c : Config) (p : List Byte) :
    (recordWrites c p).flatten = encodeRecord c p := by
  unfold recordWrites encodeRecord framesOf
  induction split c p with
  | nil => rfl
  | cons x xs ih => simp [frameWrites_flatten, ih]

theorem frameBytes_length (o : ByteOrder) (f : CFlag) (d : List Byte) :
    (frameBytes o f d).length = frameSize d.length := by
  simp [frameBytes, zeros, frameSize, hdrBytes]; omega

/-- What WRREC's body can do: the count goes up, then writes; it refuses only a length over
PBUF_CAP. -/
theorem wrrecBody_ends (len : Word) (s : State) :
    match wrrecBody len s with
    | .ok _ t => ∃ m, (s.addExcept m).Wrote t
    | .raised c t => c = .wrFail ∧ ∃ m, (s.addExcept m).Wrote t
    | .cut t => (∃ m, (s.addExcept m).Wrote t) ∧ ∃ k, WriteAnswer.reset k ∈ s.oracle.writes
    | .refuse => s.cfg.pbufCap < len.toNat
    | _ => True := by
  unfold wrrecBody
  by_cases h1 : fitsPbuf s.cfg len
  case neg => rw [if_neg h1]; simpa using h1
  by_cases h2 : s.cfg.ChunkLimitOk
  case neg => simp [h1, h2]
  rw [if_pos h1, if_pos h2]
  unfold readPayload
  cases h3 : s.pbuf.readRange 0 len.toNat with
  | none => simp
  | some p =>
    simp only [Res.bind_ok, emitAll_eq]
    have h := writeSeq_ends ((split s.cfg p).flatMap fun x =>
      frameWrites (s.addExcept (occ s.cfg.byteOrder p).length).cfg.byteOrder x.cflag (x.slice p))
      (s.addExcept (occ s.cfg.byteOrder p).length)
    generalize writeSeq ((split s.cfg p).flatMap fun x =>
      frameWrites (s.addExcept (occ s.cfg.byteOrder p).length).cfg.byteOrder x.cflag (x.slice p))
      (s.addExcept (occ s.cfg.byteOrder p).length) = r at h
    cases r with
    | ok x t => exact ⟨_, h⟩
    | raised c t => exact ⟨h.1, _, h.2⟩
    | cut t => exact ⟨⟨_, h.1⟩, h.2⟩
    | refuse => exact h.elim
    | _ => trivial

end Sys2Proof.Machine
end

