-- ==== Sys2Proof/Laws/Memory.lean ====
section
/-! SUPPORT. PBUF: a read after a write, the canonical form, ranges, and the payload an operation reads
(10_state R31, 20_memory R50). -/

namespace Sys2Proof.Machine

/-- A read after a write: the byte written, every other cell as before. -/
theorem Memory.read_write (m : Memory) (a : Nat) (b : Byte) (c : Nat) :
    (m.write a b).read c = if c = a then some b else m.read c := by
  induction m with
  | nil => simp [Memory.write, Memory.read]
  | cons x m ih =>
    obtain ⟨k, v⟩ := x
    simp only [Memory.write]
    split_ifs <;> simp_all [Memory.read]

/-- Offsets of a written memory are the old ones and the written one. -/
theorem Memory.mem_write {m : Memory} {a : Nat} {b : Byte} {x : Host.Cell} (h : x ∈ m.write a b) :
    x = (a, b) ∨ x ∈ m := by
  induction m with
  | nil => simpa [Memory.write] using h
  | cons y m ih =>
    obtain ⟨k, v⟩ := y
    simp only [Memory.write] at h
    split_ifs at h <;> simp only [List.mem_cons] at h ⊢ <;> tauto

/-- A write keeps the canonical form. -/
theorem Memory.wf_write {m : Memory} (h : m.wf) (a : Nat) (b : Byte) : (m.write a b).wf := by
  induction m with
  | nil => simp [Memory.write, Memory.wf]
  | cons y m ih =>
    obtain ⟨k, v⟩ := y
    obtain ⟨hk, hm⟩ := List.pairwise_cons.1 h
    simp only [Memory.write]
    split_ifs with h1 h2
    · refine List.pairwise_cons.2 ⟨fun x hx => ?_, h⟩
      rcases List.mem_cons.1 hx with rfl | hx
      · exact h1
      · exact h1.trans (hk x hx)
    · exact List.pairwise_cons.2 ⟨fun x hx => h2 ▸ hk x hx, hm⟩
    · refine List.pairwise_cons.2 ⟨fun x hx => ?_, ih hm⟩
      rcases Memory.mem_write hx with rfl | hx
      · show k < a; omega
      · exact hk x hx

/-- Writing a range: its bytes from the offset up, every other cell as before. -/
theorem Memory.read_writeRange (bs : List Byte) (m : Memory) (a c : Nat) :
    (m.writeRange a bs).read c =
      if h : a ≤ c ∧ c < a + bs.length then some (bs[c - a]'(by omega)) else m.read c := by
  induction bs generalizing m a with
  | nil => simp only [Memory.writeRange, List.length_nil]; rw [dif_neg (by omega)]
  | cons b bs ih =>
    simp only [Memory.writeRange, List.length_cons, ih, Memory.read_write]
    by_cases h1 : c = a
    · subst h1; rw [dif_neg (by omega), dif_pos (by omega)]; simp
    · by_cases h2 : a ≤ c ∧ c < a + (bs.length + 1)
      · rw [dif_pos (by omega), dif_pos h2]
        obtain ⟨d, rfl⟩ : ∃ d, c = a + 1 + d := ⟨c - (a + 1), by omega⟩
        simp [show a + 1 + d - a = d + 1 by omega]
      · rw [dif_neg (by omega), dif_neg h2, if_neg h1]

theorem Memory.wf_writeRange (bs : List Byte) {m : Memory} (h : m.wf) (a : Nat) :
    (m.writeRange a bs).wf := by
  induction bs generalizing m a with
  | nil => exact h
  | cons b bs ih => exact ih (Memory.wf_write h a b) (a + 1)

theorem Memory.mem_writeRange (bs : List Byte) {m : Memory} {a : Nat} {x : Host.Cell}
    (h : x ∈ m.writeRange a bs) : x ∈ m ∨ x.1 < a + bs.length := by
  induction bs generalizing m a with
  | nil => exact .inl h
  | cons b bs ih =>
    rcases ih h with h | h
    · rcases Memory.mem_write h with rfl | h
      · right; simp
      · exact .inl h
    · right; simp only [List.length_cons]; omega

/-- A range that can be read is the bytes its cells hold, in order. -/
theorem Memory.readRange_eq_some {m : Memory} {a n : Nat} {p : List Byte} :
    m.readRange a n = some p ↔
      p.length = n ∧ ∀ (k : Nat) (h : k < p.length), m.read (a + k) = some p[k] := by
  induction n generalizing a p with
  | zero =>
    simp only [Memory.readRange, Option.some.injEq, List.length_eq_zero_iff]
    constructor
    · rintro rfl; simp
    · rintro ⟨rfl, -⟩; rfl
  | succ n ih =>
    rw [Memory.readRange]
    cases hb : m.read a with
    | none =>
      simp only [reduceCtorEq, false_iff, not_and]
      intro hl hk
      have := hk 0 (by omega)
      simp [hb] at this
    | some b =>
      cases hr : m.readRange (a + 1) n with
      | none =>
        simp only [reduceCtorEq, false_iff, not_and]
        intro hl hk
        obtain ⟨c, cs, rfl⟩ := List.exists_cons_of_length_eq_add_one hl
        have := (ih (a := a + 1) (p := cs)).2 ⟨by simpa using hl, fun k hk' => by
          have := hk (k + 1) (by simpa using hk')
          rw [show a + 1 + k = a + (k + 1) by omega, this]; simp⟩
        simp [hr] at this
      | some bs =>
        simp only [Option.some.injEq]
        obtain ⟨hl, hk⟩ := ih.1 hr
        constructor
        · rintro rfl
          refine ⟨by simpa using hl, fun k hk' => ?_⟩
          cases k with
          | zero => simpa using hb
          | succ k =>
            rw [show a + (k + 1) = a + 1 + k by omega, hk k (by simpa using hk')]; simp
        · rintro ⟨hl', hk'⟩
          obtain ⟨c, cs, rfl⟩ := List.exists_cons_of_length_eq_add_one hl'
          have h0 := hk' 0 (by simp)
          simp only [Nat.add_zero, hb, Option.some.injEq, List.getElem_cons_zero] at h0
          have := (ih (a := a + 1) (p := cs)).2 ⟨by simpa using hl', fun k hk'' => by
            have := hk' (k + 1) (by simpa using hk'')
            rw [show a + 1 + k = a + (k + 1) by omega, this]; simp⟩
          rw [hr] at this
          simp_all

/-- A cell with no value makes every range over it unreadable (R31). -/
theorem Memory.readRange_eq_none {m : Memory} {n k : Nat} (hk : k < n) (h : m.read k = none) :
    m.readRange 0 n = none := by
  cases hr : m.readRange 0 n with
  | none => rfl
  | some p =>
    obtain ⟨hl, hp⟩ := Memory.readRange_eq_some.1 hr
    have := hp k (by omega)
    simp [h] at this

/-- The payload an operation reads, when PBUF holds it. -/
theorem readPayload_eq {s : State} {p : List Byte} {n : Nat} (hn : p.length = n)
    (h : ∀ (k : Nat) (h : k < p.length), s.pbuf.read k = some p[k]) :
    readPayload n s = .ok p s := by
  rw [readPayload, Memory.readRange_eq_some.2 ⟨hn, by simpa using h⟩]

/-- Reading the payload changes nothing. -/
theorem readPayload_ok {s t : State} {p : List Byte} {n : Nat} (h : readPayload n s = .ok p t) :
    t = s ∧ p.length = n ∧ ∀ (k : Nat) (h : k < p.length), s.pbuf.read k = some p[k] := by
  unfold readPayload at h
  split at h
  · rename_i q hq
    cases h
    obtain ⟨h1, h2⟩ := Memory.readRange_eq_some.1 hq
    exact ⟨rfl, h1, by simpa using h2⟩
  · cases h

theorem readPayload_all {Q : State → Prop} {s : State} (n : Nat) (h : Q s) :
    (readPayload n s).All Q := by
  unfold readPayload; split
  · exact h
  · trivial

end Sys2Proof.Machine
end

