-- ==== Sys2Proof/Laws/Exec.lean ====
section
/-! SUPPORT. Everything `exec` and `step` can answer as a next state, said once: an invariant or a frame
of the machine is a case analysis over these. -/

namespace Sys2Proof.Machine

/-- The next states of `exec i s`. -/
inductive Next (i : Instr) (s : State) : State → Prop where
  /-- only the port changes: an answer, or a refusal -/
  | answered (st : Status) (r0 r1 : Word) (hs : st = .ok ∨ st = .refused) :
      Next i s (s.respond st r0 r1)
  /-- LREC.ENC, FRM.SIZE: an ArgumentError -/
  | argument (c : Cause) (hc : c ∈ mayRaise i) (hf : s.fault = .none)
      (hw : ∀ len, i ≠ .wrrec len) (hr : i ≠ .rdrec) : Next i s (s.raise c)
  /-- MSCAN.CLR -/
  | cleared (hi : i = .mscanClr) : Next i s (s.clearWindow.respond .ok 0 0)
  /-- MSCAN.PUSH -/
  | pushed (byte r0 r1 : Word) (hi : i = .mscanPush byte) :
      Next i s ((s.pushWindow (byte.setWidth 8)).respond .ok r0 r1)
  /-- MSCAN.PUSH, a hit whose offset is a free value -/
  | pushedFree (byte r0 r1 : Word) (hi : i = .mscanPush byte) :
      Next i s ((s.pushWindow (byte.setWidth 8)).drawFree.respond .ok r0 r1)
  /-- SPLIT.START -/
  | opened (len : Word) (hi : i = .splitStart len) (hl : len.toNat ≤ s.cfg.pbufCap) :
      Next i s ((s.openSplit len).respond .ok 0 0)
  /-- SPLIT.NEXT, a chunk that ends at no occurrence -/
  | advanced (e : Nat) (r0 r1 : Word) (hi : i = .splitNext) (ha : s.spActive = true)
      (he : e ≤ s.spLen.toNat) :
      Next i s ((s.advanceSplit e (decide (e = s.spLen.toNat))).respond .ok r0 r1)
  /-- SPLIT.NEXT, a chunk that ends at an occurrence -/
  | delivered (n e : Nat) (r0 r1 : Word) (hi : i = .splitNext) (ha : s.spActive = true)
      (he : e ≤ s.spLen.toNat) :
      Next i s
        (((s.addExcept n).advanceSplit e (decide (e = s.spLen.toNat))).respond .ok r0 r1)
  /-- WRREC, every write answered `ok` -/
  | wrote (len : Word) (m : Nat) (r0 r1 : Word) (u : State) (hi : i = .wrrec len)
      (hu : (s.addExcept m).Wrote u) : Next i s (u.respond .ok r0 r1)
  /-- WRREC, a write failed -/
  | wrFailed (len : Word) (m : Nat) (u : State) (hi : i = .wrrec len) (hf : s.fault = .none)
      (hu : (s.addExcept m).Wrote u) : Next i s (u.raise .wrFail)
  /-- WRREC, reset asserted during a write -/
  | wrCut (len : Word) (m k : Nat) (u : State) (hi : i = .wrrec len)
      (hu : (s.addExcept m).Wrote u) (hk : WriteAnswer.reset k ∈ s.oracle.writes) :
      Next i s u.hwReset
  /-- RDREC: a record, or a clean end of stream -/
  | readDone (r0 r1 : Word) (u : State) (hi : i = .rdrec)
      (hu : State.Took { s with rbuf := [], rstate := u.rstate, eos := u.eos } u)
      (hb : u.rbuf.length ≤ s.cfg.rbufCap)
      (hr : (u.rstate = .start ∧ u.eos = true ∧ u.rbuf = []) ∨
        (u.rstate = .done ∧ s.eos = false ∧ u.eos = false)) :
      Next i s (u.respond .ok r0 r1)
  /-- RDREC: a fault -/
  | readFailed (c : Cause) (r : RState) (m k : Nat) (h : List StreamEvent) (o : Oracle)
      (b : List Byte) (hi : i = .rdrec) (hf : s.fault = .none) (he : s.eos = false)
      (hc : c ∈ mayRaise .rdrec) (hk : k ≤ ((s.istream ++ handed s.supply m).drop s.rpos).length) :
      Next i s (State.raise
        { s with
          rstate := r, istream := s.istream ++ handed s.supply m, rpos := s.rpos + k
          history := h, oracle := o, rbuf := b } c)
  /-- RDREC, reset asserted during a read -/
  | readCut (k : Nat) (u : State) (hi : i = .rdrec)
      (hu : State.Took { s with rbuf := [], rstate := u.rstate } u)
      (hk : ReadAnswer.reset k ∈ s.oracle.reads) : Next i s u.hwReset

theorem splitNext_next {s t : State} (hf : s.fault = .none) (h : exec .splitNext s = .next t) :
    Next .splitNext s t := by
  simp only [exec, execSplitNext, runOp_of_clean hf, splitNextBody] at h
  by_cases h1 : s.spActive
  case neg => simp [h1] at h; subst h; exact .answered _ _ _ (.inl rfl)
  by_cases h2 : s.cfg.ChunkLimitOk
  case neg => rw [if_pos h1, if_neg h2] at h; simp at h
  rw [if_pos h1, if_pos h2] at h
  unfold readPayload at h
  cases h3 : s.pbuf.readRange 0 s.spLen.toNat with
  | none => simp [h3] at h
  | some p =>
    simp only [h3, Res.bind_ok, conclude_ok, Host.Outcome.next.injEq] at h
    subst h
    rw [chunkEnd_eq]
    generalize nextOcc s.cfg.byteOrder s.spFirst s.spCur.toNat p = q
    have he : (q.getD s.spLen.toNat ⊓ (s.spCur.toNat + s.cfg.chunkLimit)) ⊓ s.spLen.toNat
        ≤ s.spLen.toNat := min_le_right _ _
    revert he
    generalize (q.getD s.spLen.toNat ⊓ (s.spCur.toNat + s.cfg.chunkLimit)) ⊓ s.spLen.toNat = e
    intro he
    by_cases hd : decide (q = some e) = true
    · rw [if_pos hd]; exact .delivered 1 e _ _ rfl h1 he
    · rw [if_neg hd]
      have := Next.advanced (i := .splitNext) (s := s) e
        (descriptor (decide (e = s.spLen.toNat)) (decide (q = some e))
          (cflagOf s.spFirst (decide (e = s.spLen.toNat))) (e - s.spCur.toNat)) s.spCur rfl h1 he
      exact this

theorem wrrec_next {len : Word} {s t : State} (hf : s.fault = .none)
    (h : exec (.wrrec len) s = .next t) : Next (.wrrec len) s t := by
  simp only [exec, execWrrec, runOp_of_clean hf] at h
  have W := wrrecBody_ends len s
  generalize wrrecBody len s = r at W h
  cases r with
  | ok r u => cases h; obtain ⟨m, hm⟩ := W; exact .wrote _ _ _ _ _ rfl hm
  | refuse => cases h; exact .answered _ _ _ (.inr rfl)
  | raised c u => cases h; obtain ⟨rfl, m, hm⟩ := W; exact .wrFailed _ _ _ rfl hf hm
  | cut u => cases h; obtain ⟨⟨m, hm⟩, k, hk⟩ := W; exact .wrCut _ _ _ _ rfl hm hk
  | stuck f => cases h
  | outside f => cases h

theorem rdrec_next {s t : State} (hf : s.fault = .none) (h : exec .rdrec s = .next t) :
    Next .rdrec s t := by
  simp only [exec, execRdrec, runOp_of_clean hf, rdrecBody] at h
  cases he : s.eos with
  | true => rw [he, if_pos rfl] at h; cases h; exact .answered _ _ _ (.inl rfl)
  | false =>
    rw [he, if_neg (by simp)] at h
    have L := rdrecLoop_ends (rdrecBound s) s.openRecord [] rfl rfl
    generalize rdrecLoop (rdrecBound s) s.openRecord = res at L h
    cases res with
    | refuse => exact L.elim
    | outside r => cases h
    | stuck f => cases h
    | cut u => cases h; obtain ⟨L1, k, L2⟩ := L; exact .readCut k _ rfl L1 L2
    | raised c u =>
      cases h
      obtain ⟨L1, r, m, k, h', o, b, rfl, L3, -⟩ := L
      exact .readFailed c r m k h' o b rfl hf he L1 L3
    | ok ab u =>
      obtain ⟨a, b⟩ := ab
      cases h
      obtain ⟨L1, L2, L3⟩ := L
      refine .readDone _ _ u rfl L1 (L2 (by simp [State.openRecord])) ?_
      rcases L3 with ⟨_, _, h3, h4, _, h5⟩ | ⟨_, _, h3, h4, _⟩
      · exact .inl ⟨h3, h4, h5⟩
      · exact .inr ⟨h3, he, h4.trans he⟩

/-- The inversion of `exec`. -/
theorem exec_next {i : Instr} {s t : State} (h : exec i s = .next t) : Next i s t := by
  by_cases hf : s.fault = .none
  case neg =>
    have ref : ∀ {b}, runOp s b = .next t → Next i s t := by
      intro b hb; rw [runOp_of_faulted hf] at hb; cases hb; exact .answered _ _ _ (.inr rfl)
    cases i <;> first
      | exact ref h
      | (cases h; exact .answered _ _ _ (.inl rfl))
  cases i with
  | lrecEnc a b =>
    simp only [exec, execLrecEnc, runOp_of_clean hf, lrecEncBody] at h
    split at h
    · split at h <;> cases h
      · exact .answered _ _ _ (.inl rfl)
      · exact .argument .flagRange (by show _ ∈ [_, _]; decide) hf (by simp) (by simp)
    · cases h; exact .argument .lenRange (by show _ ∈ [_, _]; decide) hf (by simp) (by simp)
  | lrecFlag a =>
    simp only [exec, execLrecFlag, runOp_of_clean hf, lrecFlagBody] at h
    split at h <;> cases h
    · exact .answered _ _ _ (.inl rfl)
    · exact .answered _ _ _ (.inr rfl)
  | lrecLen a =>
    simp only [exec, execLrecLen, runOp_of_clean hf, lrecLenBody] at h
    split at h <;> cases h
    · exact .answered _ _ _ (.inl rfl)
    · exact .answered _ _ _ (.inr rfl)
  | padCalc a =>
    simp only [exec, execPadCalc, runOp_of_clean hf, padCalcBody] at h
    cases h; exact .answered _ _ _ (.inl rfl)
  | frmSize a =>
    simp only [exec, execFrmSize, runOp_of_clean hf, frmSizeBody] at h
    split at h <;> cases h
    · exact .answered _ _ _ (.inl rfl)
    · exact .argument .lenRange (by show _ ∈ [_]; decide) hf (by simp) (by simp)
  | mscanCmp a =>
    simp only [exec, execMscanCmp, runOp_of_clean hf, mscanCmpBody] at h
    split at h <;> cases h
    · exact .answered _ _ _ (.inl rfl)
    · exact .answered _ _ _ (.inr rfl)
  | mscanClr =>
    simp only [exec, execMscanClr, runOp_of_clean hf, mscanClrBody] at h
    cases h; exact .cleared rfl
  | mscanPush a =>
    simp only [exec, execMscanPush, runOp_of_clean hf, mscanPushBody] at h
    split at h
    · split at h
      · unfold hitOffset at h
        split at h <;> cases h
        · exact .pushed _ _ _ rfl
        · exact .pushedFree _ _ _ rfl
      · cases h; exact .pushed _ _ _ rfl
    · cases h; exact .answered _ _ _ (.inr rfl)
  | mscanFind a b =>
    simp only [exec, execMscanFind, runOp_of_clean hf, mscanFindBody] at h
    split at h
    · unfold readPayload at h
      split at h
      · rw [Res.bind_ok] at h
        split at h <;> cases h <;> exact .answered _ _ _ (.inl rfl)
      · simp at h
    · cases h; exact .answered _ _ _ (.inr rfl)
  | splitStart len =>
    simp only [exec, execSplitStart, runOp_of_clean hf, splitStartBody] at h
    split at h <;> cases h
    · rename_i h1; exact .opened _ rfl ((fitsPbuf_iff _ _).1 h1)
    · exact .answered _ _ _ (.inr rfl)
  | splitNext => exact splitNext_next hf h
  | wrrec len => exact wrrec_next hf h
  | rdrec => exact rdrec_next hf h
  | cntGet => cases h; exact .answered _ _ _ (.inl rfl)
  | statGet => cases h; exact .answered _ _ _ (.inl rfl)

/-- Everything a host write to PBUF can answer as a next state. -/
theorem hostWrite_next {s t : State} {offset : Nat} {bytes : List Byte}
    (h : hostWrite offset bytes s = .next t) :
    t = s ∨ (t = { s with pbuf := s.pbuf.writeRange offset bytes } ∧
      offset + bytes.length ≤ s.cfg.pbufCap) := by
  unfold hostWrite at h
  split at h
  · cases h; exact .inl rfl
  · split at h
    · cases h
    · split at h
      · cases h
      · cases h; exact .inr ⟨rfl, by omega⟩

/-- The inversion of `step`: idle, or the head of the host's list and what it does. -/
theorem step_next {s t : State} (h : step s = .next t) :
    (s.inbox = [] ∧ t = s) ∨ ∃ a rest, s.inbox = a :: rest ∧
      ((∃ p i, a = .command p ∧ decode p = .ok i ∧ exec i (s.withInbox rest) = .next t) ∨
       (∃ p, a = .command p ∧ t = (s.withInbox rest).refuse) ∨
       (a = .reset ∧ t = (s.withInbox rest).hwReset) ∨
       (∃ o b, t = { s.withInbox rest with pbuf := s.pbuf.writeRange o b } ∧
         o + b.length ≤ s.cfg.pbufCap) ∨
       (∃ b l, t = (s.withInbox rest).setIn b l) ∨
       (∃ m, t = s.withInbox m)) := by
  unfold step at h
  cases hin : s.inbox with
  | nil => rw [hin] at h; cases h; exact .inl ⟨rfl, rfl⟩
  | cons a rest =>
    rw [hin] at h
    refine .inr ⟨a, rest, rfl, ?_⟩
    have w : ∀ o b, hostWrite o b (s.withInbox rest) = .next t →
        (∃ o b, t = { s.withInbox rest with pbuf := s.pbuf.writeRange o b } ∧
          o + b.length ≤ s.cfg.pbufCap) ∨ ∃ m, t = s.withInbox m := by
      intro o b h
      rcases hostWrite_next h with rfl | ⟨rfl, h1⟩
      · exact .inr ⟨rest, rfl⟩
      · exact .inl ⟨o, b, rfl, h1⟩
    cases a with
    | reset => cases h; exact .inr (.inr (.inl ⟨rfl, rfl⟩))
    | command p =>
      simp only [runAction, runPacket] at h
      cases hd : decode p with
      | error e => rw [hd] at h; cases h; exact .inr (.inl ⟨p, rfl, rfl⟩)
      | ok i => rw [hd] at h; exact .inl ⟨p, i, rfl, hd, h⟩
    | pbufLoad b =>
      rcases w _ _ h with h | h
      · exact .inr (.inr (.inr (.inl h)))
      · exact .inr (.inr (.inr (.inr (.inr h))))
    | pbufWrite o b =>
      rcases w _ _ h with h | h
      · exact .inr (.inr (.inr (.inl h)))
      · exact .inr (.inr (.inr (.inr (.inr h))))
    | istreamSet b => cases h; exact .inr (.inr (.inr (.inr (.inl ⟨_, _, rfl⟩))))
    | istreamEndless b l => cases h; exact .inr (.inr (.inr (.inr (.inl ⟨_, _, rfl⟩))))
    | loopback => cases h; exact .inr (.inr (.inr (.inr (.inl ⟨_, _, rfl⟩))))
    | splitAll l => cases h; exact .inr (.inr (.inr (.inr (.inr ⟨_, rfl⟩))))
    | splitRest =>
      simp only [runAction] at h
      split at h <;> cases h <;> exact .inr (.inr (.inr (.inr (.inr ⟨_, rfl⟩))))

/-- Reset's memory has the canonical form. -/
theorem State.reset_pbuf_wf : State.reset.pbuf.wf := List.Pairwise.nil

end Sys2Proof.Machine
end

