-- ==== Sys2Proof/Laws/PerInstr.lean ====
section
/-! SUPPORT. The family `Fields`: an instruction's command packet carries its opcode and its operands,
each whole, in the fields R88 and R90 give them; a field it does not use is 0 (log 24). -/

namespace Sys2Proof.Laws.Fields

/-- What `encode` puts into the three fields of the packet. -/
def Statement (i : Instr) : Prop :=
  (encode i).op = i.opcode ∧ (encode i).a0 = i.arg0.getD 0 ∧ (encode i).a1 = i.arg1.getD 0

theorem lrecEnc (cflag length : Word) : Statement (.lrecEnc cflag length) := by
  simp [Statement, encode]

theorem lrecFlag (word : Word) : Statement (.lrecFlag word) := by simp [Statement, encode]

theorem lrecLen (word : Word) : Statement (.lrecLen word) := by simp [Statement, encode]

theorem padCalc (length : Word) : Statement (.padCalc length) := by simp [Statement, encode]

theorem frmSize (length : Word) : Statement (.frmSize length) := by simp [Statement, encode]

theorem mscanCmp (word : Word) : Statement (.mscanCmp word) := by simp [Statement, encode]

theorem mscanClr : Statement .mscanClr := by simp [Statement, encode]

theorem mscanPush (byte : Word) : Statement (.mscanPush byte) := by simp [Statement, encode]

theorem mscanFind (start len : Word) : Statement (.mscanFind start len) := by
  simp [Statement, encode]

theorem splitStart (len : Word) : Statement (.splitStart len) := by simp [Statement, encode]

theorem splitNext : Statement .splitNext := by simp [Statement, encode]

theorem wrrec (len : Word) : Statement (.wrrec len) := by simp [Statement, encode]

theorem rdrec : Statement .rdrec := by simp [Statement, encode]

theorem cntGet : Statement .cntGet := by simp [Statement, encode]

theorem statGet : Statement .statGet := by simp [Statement, encode]

end Sys2Proof.Laws.Fields
end

