-- ==== Sys2Proof/Tests/Slice0.lean ====
section
/-! SUPPORT. Tests on fixed values: an ill-formed term for each operand check (30_encoding R91), the packets
of every operation written out from R88 and R90, one or two vectors of 95_test_vectors per
operation, and a witness for the hypotheses of every obligation that has some. -/

open Sys2Proof Sys2Proof.Machine

/-! ### States to test on -/

/-- After reset, with the payload in PBUF. -/
def loadedWith (p : List Byte) : State := { State.reset with pbuf := Memory.writeRange [] 0 p }

/-- After reset, with the bytes on ISTREAM. -/
def readingFrom (p : List Byte) : State := { State.reset with istream := p }

/-- E2 of 95_test_vectors: `ab`, the pattern, `xyz`. -/
def payload9 : List Byte := [0x61, 0x62, 0x0a, 0x23, 0xd7, 0x3e, 0x78, 0x79, 0x7a]

/-- The frame of `hello` (E1). -/
def helloBytes : List Byte :=
  [0x0a, 0x23, 0xd7, 0x3e, 0x05, 0x00, 0x00, 0x00, 0x68, 0x65, 0x6c, 0x6c, 0x6f, 0x00, 0x00, 0x00]

/-- The first frame of E2: cflag 1, data `ab`. -/
def openBytes : List Byte := [0x0a, 0x23, 0xd7, 0x3e, 0x02, 0x00, 0x00, 0x40, 0x61, 0x62, 0x00, 0x00]

/-- The frame of `openBytes`. -/
def openFrame : WireFrame := { flag := 1, data := [0x61, 0x62], padding := [0, 0] }

/-- The response of an operation, where it answers a next state. -/
def answerOf (i : Instr) (s : State) : Option Response :=
  match exec i s with
  | .next t => t.rsp
  | _ => none

/-- The fault the model stops with. -/
def faultOf (i : Instr) (s : State) : Option Fault :=
  match exec i s with
  | .fault f => some f
  | _ => none

/-- A value of the next state. -/
def after {α : Type} (f : State → α) (i : Instr) (s : State) : Option α :=
  match exec i s with
  | .next t => some (f t)
  | _ => none

/-- The answer `OK r0 r1`. -/
def okAnswer (r0 r1 : Word) : Option Response := some { st := .ok, r1 := r1, r0 := r0 }

/-! ### Operand checks (R91) -/

theorem test_wf_lrecEnc_flag : (Instr.lrecEnc 4 0).wellFormed Config.standard = false := by decide
theorem test_wf_lrecEnc_length :
    (Instr.lrecEnc 3 0x40000000).wellFormed Config.standard = false := by decide
theorem test_wf_lrecEnc : (Instr.lrecEnc 3 0x3FFFFFFF).wellFormed Config.standard = true := by decide
theorem test_wf_lrecFlag :
    (Instr.lrecFlag 0x100000000).wellFormed Config.standard = false := by decide
theorem test_wf_lrecLen : (Instr.lrecLen 0x100000000).wellFormed Config.standard = false := by decide
theorem test_wf_frmSize : (Instr.frmSize 0x40000000).wellFormed Config.standard = false := by decide
theorem test_wf_mscanCmp :
    (Instr.mscanCmp 0x13ed7230a).wellFormed Config.standard = false := by decide
theorem test_wf_mscanPush : (Instr.mscanPush 0x100).wellFormed Config.standard = false := by decide
theorem test_wf_mscanFind_start :
    (Instr.mscanFind 6 5).wellFormed Config.standard = false := by decide
theorem test_wf_mscanFind_len :
    (Instr.mscanFind 0 9).wellFormed { Config.standard with pbufCap := 8 } = false := by decide
theorem test_wf_splitStart :
    (Instr.splitStart 9).wellFormed { Config.standard with pbufCap := 8 } = false := by decide
theorem test_wf_wrrec :
    (Instr.wrrec 9).wellFormed { Config.standard with pbufCap := 8 } = false := by decide

/-! ### Packets, op / a1 / a0 (R88, R90; Programs 1 to 3) -/

theorem test_decode_lrec :
    decode 0x10_0000000000000002_0000000000000001#136 = .ok (.lrecEnc 1 2) ∧
    decode 0x11_0000000000000000_0000000040000002#136 = .ok (.lrecFlag 0x40000002) ∧
    decode 0x12_0000000000000000_0000000040000002#136 = .ok (.lrecLen 0x40000002) := by decide

theorem test_decode_align :
    decode 0x20_0000000000000000_0000000000000002#136 = .ok (.padCalc 2) ∧
    decode 0x21_0000000000000000_0000000000000002#136 = .ok (.frmSize 2) := by decide

theorem test_decode_mscan :
    decode 0x30_0000000000000000_000000003ed7230a#136 = .ok (.mscanCmp 0x3ed7230a) ∧
    decode 0x31_0000000000000000_0000000000000000#136 = .ok .mscanClr ∧
    decode 0x32_0000000000000000_00000000000000d7#136 = .ok (.mscanPush 0xd7) ∧
    decode 0x33_0000000000000012_0000000000000002#136 = .ok (.mscanFind 2 18) := by decide

theorem test_decode_split :
    decode 0x40_0000000000000000_0000000000000012#136 = .ok (.splitStart 18) ∧
    decode 0x41_0000000000000000_0000000000000000#136 = .ok .splitNext := by decide

theorem test_decode_streams :
    decode 0x50_0000000000000000_0000000000000009#136 = .ok (.wrrec 9) ∧
    decode 0x60_0000000000000000_0000000000000000#136 = .ok .rdrec := by decide

theorem test_decode_system :
    decode 0x70_0000000000000000_0000000000000000#136 = .ok .cntGet ∧
    decode 0x71_0000000000000000_0000000000000000#136 = .ok .statGet := by decide

/-- R92, the reserved opcodes 95_test_vectors lists. -/
theorem test_decode_reserved :
    [0x00, 0x13, 0x22, 0x34, 0x42, 0x51, 0x61, 0x72, 0xFF].all
      (fun op => decide (decode (mkPacket op 0 0) = .error (.reservedOpcode op))) = true := by decide

theorem test_tableWord : decodeTableWord 136 (0x50 * 2 ^ 128 + 9) = some (.wrrec 9) := by decide

/-! ### One step each (Part 2 of 95_test_vectors) -/

theorem test_lrecEnc : answerOf (.lrecEnc 1 5) State.reset = okAnswer 0x40000005 0 := by decide
theorem test_lrecEnc_both_bad :
    after State.status (.lrecEnc 7 0x40000000) State.reset = some 0x11 := by decide
theorem test_lrecFlag : answerOf (.lrecFlag 0xFFFFFFFF) State.reset = okAnswer 3 0 := by decide
theorem test_lrecFlag_wide :
    answerOf (.lrecFlag 0x100000000) State.reset = some { st := .refused, r1 := 0, r0 := 0 } := by
  decide
theorem test_lrecLen : answerOf (.lrecLen 0x40000005) State.reset = okAnswer 5 0 := by decide
theorem test_padCalc : answerOf (.padCalc 0xFFFFFFFFFFFFFFFF) State.reset = okAnswer 1 0 := by decide
theorem test_frmSize : answerOf (.frmSize 0x3FFFFFFF) State.reset = okAnswer 1073741832 1 := by
  decide
theorem test_frmSize_range :
    answerOf (.frmSize 0x40000000) State.reset
      = some { st := .argumentError, r1 := 0, r0 := 0 } := by decide
theorem test_mscanCmp : answerOf (.mscanCmp 0x3ed7230a) State.reset = okAnswer 1 0xF := by decide
theorem test_mscanCmp_lane : answerOf (.mscanCmp 0x3ed7230b) State.reset = okAnswer 0 0xE := by
  decide
theorem test_mscanClr :
    after (fun t => (t.wcnt, t.spos)) .mscanClr { State.reset with wcnt := 3, spos := 5 }
      = some (0, 0) := by decide
theorem test_mscanPush_hit :
    answerOf (.mscanPush 0x3e)
      { State.reset with win0 := 0x0a, win1 := 0x23, win2 := 0xd7, wcnt := 3, spos := 4 }
      = okAnswer 1 1 := by decide
theorem test_mscanPush_short_window :
    answerOf (.mscanPush 0x3e)
      { State.reset with win0 := 0x0a, win1 := 0x23, win2 := 0xd7, wcnt := 2, spos := 2 }
      = okAnswer 0 0 := by decide
theorem test_mscanFind : answerOf (.mscanFind 0 9) (loadedWith payload9) = okAnswer 1 2 := by decide
theorem test_mscanFind_none :
    answerOf (.mscanFind 3 9) (loadedWith payload9) = okAnswer 0 9 := by decide
theorem test_splitStart : after State.status (.splitStart 9) State.reset = some 0x1800 := by decide
theorem test_splitNext_first :
    answerOf .splitNext
      { loadedWith payload9 with spLen := 9, spFirst := true, spActive := true }
      = okAnswer 0xE40000002 0 := by decide
theorem test_splitNext_last :
    answerOf .splitNext { loadedWith payload9 with spLen := 9, spCur := 2, spActive := true }
      = okAnswer 0x15C0000007 2 := by decide
theorem test_wrrec : answerOf (.wrrec 9) (loadedWith payload9) = okAnswer 2 28 := by decide
theorem test_wrrec_bytes :
    after State.ostream (.wrrec 5) (loadedWith [0x68, 0x65, 0x6c, 0x6c, 0x6f])
      = some helloBytes := by decide
theorem test_rdrec : answerOf .rdrec (readingFrom helloBytes) = okAnswer 1 5 := by decide
theorem test_rdrec_mid_record :
    after State.status .rdrec (readingFrom openBytes) = some 0x2A2 := by decide
theorem test_cntGet :
    answerOf .cntGet { State.reset with exceptCnt := 3, fault := .ioError, cause := .wrFail }
      = okAnswer 3 0 := by decide
theorem test_statGet :
    answerOf .statGet { State.reset with fault := .ioError, cause := .wrFail }
      = okAnswer 0xB3 0 := by decide

/-- A packet placed by `withFetchWord` is what the next step runs. -/
theorem test_withFetchWord :
    (match step (State.reset.withFetchWord 136 (0x20 * 2 ^ 128 + 5)) with
      | .next t => t.rsp
      | _ => none) = okAnswer 3 0 := by decide

/-- The response packet of `OK 0 9` and of `REFUSED 0 0` (R89). -/
theorem test_response_packet :
    (Response.packet { st := .ok, r1 := 9, r0 := 0 }) = 0x0_0000000000000009_0000000000000000#132 ∧
    (Response.packet { st := .refused, r1 := 0, r0 := 0 }) = BitVec.ofNat 132 (15 * 2 ^ 128) := by
  decide

/-! ### Witnesses: states and operands that meet the hypotheses of the obligations

Where a statement has several clauses, a value at the edge of each. -/

theorem loadedWith_payloadIs (p : List Byte) : (loadedWith p).PayloadIs p := by
  intro k h
  show (Memory.writeRange [] 0 p).read k = _
  rw [Memory.read_writeRange, dif_pos (by omega)]; simp

theorem magicAt_payload9 (j : Nat) : MagicAt .little payload9 j ↔ j = 2 := by
  constructor
  · intro h
    have := h.length_le
    simp only [payload9, List.length_cons, List.length_nil] at this
    have hj : j = 0 ∨ j = 1 ∨ j = 2 ∨ j = 3 ∨ j = 4 ∨ j = 5 := by omega
    rcases hj with rfl | rfl | rfl | rfl | rfl | rfl <;> revert h <;> decide
  · rintro rfl; decide

theorem witness_OpcodeMapDecodes : (0x13 : BitVec 8) ∉ opcodes := by decide

theorem witness_PacketLayoutAndIgnoredFields :
    decode (mkPacket 0x12 0 7) = .ok (.lrecLen 7) ∧
    (mkPacket 0x12 5 7).op = (mkPacket 0x12 0 7).op ∧
    (mkPacket 0x12 5 7).a0 = (mkPacket 0x12 0 7).a0 ∧ (Instr.lrecLen 7).arg1 = none := by decide

theorem witness_StepRunsDecodedCommand :
    (State.reset.withFetchWord 136 (0x20 * 2 ^ 128 + 5)).inbox
      = [.command (mkPacket 0x20 0 5)] ∧ decode (mkPacket 0x20 0 5) = .ok (.padCalc 5) := by decide

theorem witness_IdleBlockWaits : State.reset.inbox = [] := rfl

theorem witness_ReservedOpcodeRefused :
    (State.reset.queue [.command (mkPacket 0x13 0 0)]).inbox = [.command (mkPacket 0x13 0 0)] ∧
    (mkPacket 0x13 0 0).op ∉ opcodes := by decide

theorem witness_FaultedBlockRefuses :
    ({ State.reset with fault := .ioError, cause := .wrFail } : State).fault ≠ .none ∧
    Instr.rdrec ≠ .cntGet ∧ Instr.rdrec ≠ .statGet := by decide

theorem witness_LrecEncPacks :
    State.reset.fault = .none ∧ 2 ^ 30 ≤ (0x40000000 : Word).toNat ∧
    ¬ 2 ^ 30 ≤ (0x3FFFFFFF : Word).toNat ∧ 4 ≤ (4 : Word).toNat ∧ ¬ 4 ≤ (3 : Word).toNat := by
  decide

theorem witness_LrecFlagExtracts :
    State.reset.fault = .none ∧ (0xFFFFFFFF : Word).toNat < 2 ^ 32 ∧
    ¬ (0x100000000 : Word).toNat < 2 ^ 32 := by decide

theorem witness_LrecLenExtracts :
    State.reset.fault = .none ∧ (0xFFFFFFFF : Word).toNat < 2 ^ 32 ∧
    ¬ (0x100000000 : Word).toNat < 2 ^ 32 := by decide

theorem witness_PadCalcAnswers : State.reset.fault = .none := rfl

theorem witness_FrmSizeAnswers :
    State.reset.fault = .none ∧ (0x3FFFFFFF : Word).toNat < 2 ^ 30 ∧
    ¬ (0x40000000 : Word).toNat < 2 ^ 30 := by decide

theorem witness_MscanCmpMatchesLanes :
    State.reset.fault = .none ∧ State.reset.cfg.byteOrder = .little ∧
    (0xFFFFFFFF : Word).toNat < 2 ^ 32 ∧ ¬ (0x100000000 : Word).toNat < 2 ^ 32 := by decide

theorem witness_MscanClrEmptiesWindow : State.reset.fault = .none := rfl

/-- A hit with its offset, and the same hit where SPOS has just wrapped. -/
theorem witness_MscanPushShiftsWindow :
    let s : State := { State.reset with win0 := 0x0a, win1 := 0x23, win2 := 0xd7, wcnt := 3, spos := 3 }
    s.fault = .none ∧ (0x3e : Word).toNat < 256 ∧ 256 ≤ (0x100 : Word).toNat ∧
    (4 : Word) = BitVec.ofNat 64 ((s.spos.toNat + 1) % 2 ^ s.cfg.lw) ∧
    (s.wcnt = 3 ∧ [s.win0, s.win1, s.win2, BitVec.ofNat 8 (0x3e : Word).toNat]
      = ser32 s.cfg.byteOrder magic) ∧ 4 ≤ (4 : Word).toNat ∧
    (0 : Word) = BitVec.ofNat 64 ((0xFFFFFFFFFFFFFFFF : Word).toNat + 1) := by decide

/-- The refusals: a start one above the length, a length one above PBUF_CAP. -/
theorem witness_MscanFindFirstOccurrence_refused :
    State.reset.fault = .none ∧ (9 : Word).toNat < (10 : Word).toNat ∧
    ({ Config.standard with pbufCap := 8 } : Config).pbufCap < (9 : Word).toNat := by decide

/-- A start on the occurrence meets the first clause with `i` = 2, one beyond it the second. -/
theorem witness_MscanFindFirstOccurrence :
    (loadedWith payload9).fault = .none ∧ (9 : Word).toNat ≤ (loadedWith payload9).cfg.pbufCap ∧
    (2 : Word).toNat ≤ (9 : Word).toNat ∧ (3 : Word).toNat ≤ (9 : Word).toNat ∧
    payload9.length = (9 : Word).toNat ∧ (loadedWith payload9).PayloadIs payload9 ∧
    ((2 : Word).toNat ≤ 2 ∧ MagicAt .little payload9 2 ∧
      ∀ j, (2 : Word).toNat ≤ j → MagicAt .little payload9 j → 2 ≤ j) ∧
    ∀ i, (3 : Word).toNat ≤ i → ¬ MagicAt .little payload9 i :=
  ⟨by decide, by decide, by decide, by decide, by decide, loadedWith_payloadIs _,
    ⟨by decide, by decide, fun _ h _ => h⟩,
    fun i h h2 => by rw [magicAt_payload9] at h2; subst h2; exact absurd h (by decide)⟩

theorem witness_StreamingScanAgreesWithOcc :
    State.reset.fault = .none ∧ State.reset.cfg.lw ≤ 64 ∧
    payload9.length ≤ State.reset.cfg.lwMax := by decide

theorem witness_SplitStartOpens :
    State.reset.fault = .none ∧ (9 : Word).toNat ≤ State.reset.cfg.pbufCap ∧
    ¬ (9 : Word).toNat ≤ ({ Config.standard with pbufCap := 8 } : Config).pbufCap := by decide

/-- No open iteration. -/
theorem witness_SplitNextDeliversChunk_idle :
    State.reset.fault = .none ∧ State.reset.spActive = false := by decide

/-- The first chunk of E2, which ends at the occurrence. -/
theorem witness_SplitNextDeliversChunk_first :
    let s : State := { loadedWith payload9 with spLen := 9, spFirst := true, spActive := true }
    s.fault = .none ∧ s.spActive = true ∧ s.cfg.ChunkLimitOk ∧
    payload9.length = s.spLen.toNat ∧ s.PayloadIs payload9 ∧ s.spCur.toNat ≤ s.spLen.toNat ∧
    IsNextCut s.cfg.byteOrder payload9 s.spFirst s.spCur.toNat (some 2) ∧
    2 = ((some 2).getD s.spLen.toNat ⊓ (s.spCur.toNat + s.cfg.chunkLimit)) ⊓ s.spLen.toNat := by
  refine ⟨by decide, by decide, by decide, by decide, loadedWith_payloadIs _, by decide,
    ⟨by decide, by decide, fun j h _ => ?_⟩, by decide⟩
  exact (magicAt_payload9 j |>.1 h).ge

/-- The last chunk of E2. -/
theorem witness_SplitNextDeliversChunk_last :
    let s : State := { loadedWith payload9 with spLen := 9, spCur := 2, spActive := true }
    s.fault = .none ∧ s.spActive = true ∧ s.cfg.ChunkLimitOk ∧
    payload9.length = s.spLen.toNat ∧ s.PayloadIs payload9 ∧ s.spCur.toNat ≤ s.spLen.toNat ∧
    IsNextCut s.cfg.byteOrder payload9 s.spFirst s.spCur.toNat none ∧
    9 = ((none : Option Nat).getD s.spLen.toNat ⊓ (s.spCur.toNat + s.cfg.chunkLimit))
      ⊓ s.spLen.toNat := by
  refine ⟨by decide, by decide, by decide, by decide, loadedWith_payloadIs _, by decide,
    fun j h h2 => ?_, by decide⟩
  have := magicAt_payload9 j |>.1 h
  subst this
  exact absurd (h2 rfl) (by decide)

theorem witness_SplitPartitionsPayload :
    Config.standard.ChunkLimitOk ∧
    ∀ x ∈ spans 0 (occ Config.standard.byteOrder payload9) payload9.length,
      x.2 - x.1 ≤ Config.standard.chunkLimit := by decide

theorem witness_PatternOnlyAtChunkStart :
    Config.standard.ChunkLimitOk ∧ 4 ≤ Config.standard.chunkLimit ∧
    ({ Config.standard with chunkLimit := 1 } : Config).ChunkLimitOk := by decide

/-- For IterationEqualsSplit and WrrecWritesRecord. -/
theorem witness_loaded :
    (loadedWith payload9).fault = .none ∧ (loadedWith payload9).cfg.ChunkLimitOk ∧
    (9 : Word).toNat ≤ (loadedWith payload9).cfg.pbufCap ∧ payload9.length = (9 : Word).toNat ∧
    (loadedWith payload9).PayloadIs payload9 ∧ (loadedWith payload9).WritesOk ∧
    (loadedWith payload9).wpos + (encodeRecord (loadedWith payload9).cfg payload9).length
      ≤ (loadedWith payload9).cfg.lwMax ∧
    (loadedWith payload9).exceptCnt.toNat < 2 ^ (loadedWith payload9).cfg.cw :=
  ⟨by decide, by decide, by decide, by decide, loadedWith_payloadIs _, by decide, by decide,
    by decide⟩

/-- The write failure of 95_test_vectors: the seventh `StreamWrite` answers `fail`. -/
theorem witness_WrrecStopsAtFailedWrite :
    let s : State := { loadedWith payload9 with
      oracle := { writes := List.replicate 6 .ok ++ [.fail 3], reads := [], rpos := [] } }
    s.fault = .none ∧ s.cfg.ChunkLimitOk ∧ (9 : Word).toNat ≤ s.cfg.pbufCap ∧
    payload9.length = (9 : Word).toNat ∧ s.PayloadIs payload9 ∧
    s.wpos + (encodeRecord s.cfg payload9).length ≤ s.cfg.lwMax ∧
    s.oracle.writes = List.replicate 6 .ok ++ .fail 3 :: [] ∧
    (recordWrites s.cfg payload9)[6]? = some [0x0a, 0x23, 0xd7, 0x3e, 0x78, 0x79, 0x7a] :=
  ⟨by decide, by decide, by decide, by decide, loadedWith_payloadIs _, by decide, by decide,
    by decide⟩

theorem witness_RecordSize :
    Config.standard.ChunkLimitOk ∧ occ Config.standard.byteOrder [0x61, 0x62] = [] ∧
    [0x61, 0x62].length ≤ Config.standard.chunkLimit := by decide

theorem witness_UnwrittenPayloadStops :
    let s : State := { State.reset with spLen := 1, spActive := true, spFirst := true }
    s.fault = .none ∧ s.cfg.ChunkLimitOk ∧ s.pbuf.read 0 = none ∧ 0 < (1 : Word).toNat ∧
    (1 : Word).toNat ≤ s.cfg.pbufCap ∧ (1 : Word).toNat ≤ (1 : Word).toNat ∧
    0 < s.spLen.toNat ∧ s.spActive = true := by decide

theorem witness_OperandRanges :
    State.reset.fault = .none ∧ (Instr.mscanPush 0x100).wellFormed State.reset.cfg = false ∧
    (Instr.mscanPush 0xFF).wellFormed State.reset.cfg = true ∧
    (Instr.lrecEnc 4 0x3FFFFFFF).wellFormed State.reset.cfg = false ∧
    (Instr.lrecEnc 3 0x40000000).wellFormed State.reset.cfg = false ∧
    answerOf (.mscanPush 0xFF) State.reset = okAnswer 0 0 := by decide

/-- Two frames, flags 1 and 3, with pad bytes that are not zero. -/
theorem witness_RdrecReadsLegalFrames :
    let fs : List WireFrame := [openFrame, { flag := 3, data := [0x63], padding := [1, 2, 3] }]
    let s := readingFrom (wireBytes .little fs ++ [0xff])
    s.fault = .none ∧ s.eos = false ∧ s.ReadsFull ∧ (∀ f ∈ fs, f.Wf) ∧
    legalRecord (fs.map (·.flag)) = true ∧
    s.istream.drop s.rpos = wireBytes s.cfg.byteOrder fs ++ [0xff] ∧
    (wireData fs).length ≤ s.cfg.rbufCap := by decide

theorem witness_RdrecCleanEnd :
    State.reset.fault = .none ∧ State.reset.eos = false ∧ State.reset.ReadsFull ∧
    State.reset.supply = [] ∧ State.reset.istream.length ≤ State.reset.rpos := by decide

theorem witness_RdrecAfterEndIsIdempotent :
    ({ State.reset with eos := true } : State).fault = .none ∧
    ({ State.reset with eos := true } : State).eos = true := by decide

/-- What RdrecRaisesCorruption assumes besides the fault itself, of frames `fs` and then `rest`. -/
theorem witness_RdrecRaisesCorruption_state :
    ∀ x ∈ ([([], [0x0a]), ([openFrame], [])] : List (List WireFrame × List Byte)),
      let s := readingFrom (wireBytes .little x.1 ++ x.2)
      s.fault = .none ∧ s.eos = false ∧ s.ReadsFull ∧ (∀ f ∈ x.1, f.Wf) ∧
      openRecordFlags (x.1.map (·.flag)) = true ∧
      s.istream.drop s.rpos = wireBytes s.cfg.byteOrder x.1 ++ x.2 ∧ s.supply = [] ∧
      (wireData x.1).length + (x.2.length - 8) ≤ s.cfg.rbufCap := by decide

theorem witness_RdrecRaisesCorruption_short :
    FrameFault .little .awaitingContinuation [] 0 .eosMidRecord ∧
    FrameFault .little .start [0x0a] 1 .shortMagic ∧
    FrameFault .little .start [0x0a, 0x23, 0xd7] 3 .shortMagic ∧
    FrameFault .little .start [0x0b, 0x23, 0xd7, 0x3e, 0x00] 4 .badMagic ∧
    FrameFault .little .start [0x0a, 0x23, 0xd7, 0x3e] 4 .shortHeader :=
  ⟨⟨rfl, rfl, rfl⟩, ⟨by decide, by decide, rfl⟩, ⟨by decide, by decide, rfl⟩,
    ⟨by decide, by decide, rfl⟩, ⟨[], by decide, by decide, rfl⟩⟩

theorem witness_RdrecRaisesCorruption_shortData :
    FrameFault .little .start [0x0a, 0x23, 0xd7, 0x3e, 0x05, 0x00, 0x00, 0x00, 0x68, 0x65] 10
      .shortData := ⟨0, 5, [0x68, 0x65], by decide, by decide, by decide, rfl⟩

theorem witness_RdrecRaisesCorruption_shortPad :
    FrameFault .little .start [0x0a, 0x23, 0xd7, 0x3e, 0x01, 0x00, 0x00, 0x00, 0x68, 0x00, 0x00] 11
      .shortPad := ⟨0, [0x68], [0x00, 0x00], by decide, by decide, by decide, rfl⟩

theorem witness_RdrecRaisesCorruption_contWithoutStart :
    FrameFault .little .start [0x0a, 0x23, 0xd7, 0x3e, 0x00, 0x00, 0x00, 0x80, 0x0a] 8
      .contWithoutStart :=
  ⟨rfl, { flag := 2, data := [], padding := [] }, by decide, by decide, by decide, by decide⟩

theorem witness_RdrecRaisesCorruption_startBeforeEnd :
    FrameFault .little .awaitingContinuation openBytes 12 .startBeforeEnd :=
  ⟨rfl, openFrame, by decide, by decide, by decide, by decide⟩

/-- The reads of a frame whose data is answered short in mid-stream, after an open frame. -/
def shortDataReads : List StreamEvent := headReads .little 3 5 ++ [.read 5 (some [0x68])]

theorem witness_RdrecRaisesUnderAnyAnswers :
    let s : State := { readingFrom (openBytes ++ helloBytes) with
      istream := openBytes ++ [0x0a, 0x23, 0xd7, 0x3e, 0x05, 0x00, 0x00, 0xc0, 0x68, 0x65, 0x6c, 0x6c]
      oracle := { writes := [], reads := List.replicate 6 .full ++ [.short 0], rpos := [] } }
    s.fault = .none ∧ s.eos = false ∧ openFrame.Wf ∧
    openRecordFlags ([openFrame].map (·.flag)) = true ∧ Cause.shortData.kind = .corruption ∧
    (s.answering (wireReads s.cfg.byteOrder [openFrame] ++ shortDataReads)).isSome = true ∧
    (wireData [openFrame] ++ []).length ≤ s.cfg.rbufCap := by decide

theorem witness_RdrecRaisesUnderAnyAnswers_bad :
    BadFrame .little .awaitingContinuation [] shortDataReads .shortData ∧
    BadFrame .little .awaitingContinuation [] [.read 4 (some [])] .eosMidRecord ∧
    BadFrame .little .start [] [.read 4 (some [0x0a])] .shortMagic ∧
    BadFrame .little .start [] [.read 4 (some [0x0b, 0x23, 0xd7, 0x3e])] .badMagic ∧
    BadFrame .little .start [] [.read 4 (some (ser32 .little magic)), .read 4 (some [])]
      .shortHeader ∧
    BadFrame .little .start [0x68]
      (headReads .little 0 1 ++ fieldReads [0x68] ++ [.read 3 (some [0x00, 0x00])]) .shortPad :=
  ⟨⟨rfl, 3, 5, [0x68], by decide, by decide, rfl⟩, ⟨rfl, rfl, rfl⟩,
    ⟨rfl, [0x0a], by decide, by decide, rfl⟩, ⟨rfl, _, by decide, by decide, rfl⟩,
    ⟨rfl, [], by decide, rfl⟩, ⟨0, [0x00, 0x00], by decide, by decide, rfl⟩⟩

theorem witness_RdrecRaisesUnderAnyAnswers_flags :
    BadFrame .little .start [] (WireFrame.reads .little { flag := 2, data := [], padding := [] })
      .contWithoutStart ∧
    BadFrame .little .awaitingContinuation openFrame.data (openFrame.reads .little)
      .startBeforeEnd :=
  ⟨⟨rfl, _, by decide, by decide, rfl, rfl⟩, ⟨rfl, openFrame, by decide, by decide, rfl, rfl⟩⟩

/-- A `fail` at the data of the second frame. -/
theorem witness_RdrecReadFailure :
    let s : State := { readingFrom (openBytes ++ helloBytes) with
      oracle := { writes := [], reads := List.replicate 6 .full ++ [.fail], rpos := [] } }
    s.fault = .none ∧ s.eos = false ∧ openFrame.Wf ∧
    openRecordFlags ([openFrame].map (·.flag)) = true ∧
    (s.answering (wireReads s.cfg.byteOrder [openFrame]
      ++ (headReads .little 0 5 ++ [.read 5 none]))).isSome = true ∧
    (wireData [openFrame] ++ []).length ≤ s.cfg.rbufCap := by decide

theorem witness_RdrecReadFailure_fields :
    BadFrame .little .start [] [.read 4 none] .rdFail ∧
    BadFrame .little .start [] [.read 4 (some (ser32 .little magic)), .read 4 none] .rdFail ∧
    BadFrame .little .awaitingContinuation [] (headReads .little 0 5 ++ [.read 5 none]) .rdFail ∧
    BadFrame .little .start [0x68] (headReads .little 0 1 ++ fieldReads [0x68] ++ [.read 3 none])
      .rdFail :=
  ⟨.inl ⟨rfl, rfl⟩, .inr (.inl ⟨rfl, rfl⟩),
    .inr (.inr (.inl ⟨rfl, 0, 5, by decide, by decide, rfl⟩)),
    .inr (.inr (.inr ⟨0, by decide, by decide, rfl⟩))⟩

/-- After one open frame the stream gives an empty frame of cflag 2 for ever. -/
theorem witness_RdrecRunsForEver :
    let g : WireFrame := { flag := 2, data := [], padding := [] }
    let s : State := { readingFrom openBytes with supply := wireBytes .little [g] }
    s.fault = .none ∧ s.eos = false ∧ s.ReadsFull ∧ openFrame.Wf ∧
    openRecordFlags ([openFrame].map (·.flag)) = true ∧ g.Wf ∧ g.flag = 2 ∧
    s.istream.drop s.rpos = wireBytes s.cfg.byteOrder [openFrame] ∧
    s.supply = wireBytes s.cfg.byteOrder [g] ∧ (wireData [openFrame]).length ≤ s.cfg.rbufCap ∧
    wireData [g] = [] := by decide

/-- R206's hang. -/
theorem test_rdrec_hangs :
    faultOf .rdrec
      { readingFrom openBytes with supply := [0x0a, 0x23, 0xd7, 0x3e, 0x00, 0x00, 0x00, 0x80] }
      = some .readerNeverEnds := by decide +kernel

theorem witness_RdrecNeverDeliversPartialRecord :
    ∃ t, exec .rdrec (readingFrom helloBytes) = .next t ∧
      (readingFrom helloBytes).fault = .none ∧ t.rsp = some { st := .ok, r1 := 5, r0 := 1 } :=
  ⟨_, rfl, rfl, by decide⟩

theorem witness_RdrecTerminates :
    (readingFrom helloBytes).supply = [] ∧
    ReadAnswer.never ∉ (readingFrom helloBytes).oracle.reads ∧
    (readingFrom helloBytes).istream.length ≤ (readingFrom helloBytes).cfg.rbufCap := by decide

theorem witness_WrittenRecordsReadBack :
    State.reset.cfg.Wf ∧ State.reset.ostream = [] ∧ State.reset.eos = false ∧
    State.reset.fault = .none ∧ State.reset.ReadsFull ∧
    (∀ p ∈ [payload9, []], p.length ≤ State.reset.cfg.rbufCap) ∧
    (writeAll [payload9, []] State.reset).isSome = true := by decide

theorem witness_FaultIsSticky :
    let s : State := { State.reset with fault := .ioError, cause := .wrFail }
    s.fault ≠ .none ∧ s.inbox.head? ≠ some .reset ∧ step s = .next s :=
  ⟨by decide, by decide, rfl⟩

theorem witness_OnlyListedFaultsRaised :
    ∃ t, exec (.lrecEnc 4 0) State.reset = .next t ∧ State.reset.fault = .none ∧ t.fault ≠ .none :=
  ⟨_, rfl, rfl, by decide⟩

theorem witness_ResetSignalClearsBlock :
    (State.reset.queue [.reset]).inbox = .reset :: [] := rfl

theorem witness_ResetInCallAbandonsOperation_write :
    let s : State := { loadedWith payload9 with
      oracle := { writes := [.ok, .reset 1], reads := [], rpos := [] } }
    s.fault = .none ∧ s.cfg.ChunkLimitOk ∧ (9 : Word).toNat ≤ s.cfg.pbufCap ∧
    payload9.length = (9 : Word).toNat ∧ s.PayloadIs payload9 ∧
    s.wpos + (encodeRecord s.cfg payload9).length ≤ s.cfg.lwMax ∧
    s.oracle.writes = List.replicate 1 .ok ++ .reset 1 :: [] ∧
    (recordWrites s.cfg payload9)[1]? = some [0x02, 0x00, 0x00, 0x40] :=
  ⟨by decide, by decide, by decide, by decide, loadedWith_payloadIs _, by decide, by decide,
    by decide⟩

theorem witness_ResetInCallAbandonsOperation_read :
    let s : State :=
      { readingFrom helloBytes with oracle := { writes := [], reads := [.reset 4], rpos := [] } }
    s.fault = .none ∧ s.eos = false ∧ s.oracle.reads = .reset 4 :: [] := by decide

theorem witness_HostDirectives :
    (State.reset.queue [.loopback]).inbox = .loopback :: [] ∧
    (State.reset.queue [.istreamSet [1]]).inbox = .istreamSet [1] :: [] ∧
    (State.reset.queue [.istreamEndless [1] [2]]).inbox = .istreamEndless [1] [2] :: [] ∧
    (State.reset.queue [.splitAll 9]).inbox = .splitAll 9 :: [] ∧
    (State.reset.queue [.splitRest]).inbox = .splitRest :: [] := ⟨rfl, rfl, rfl, rfl, rfl⟩

theorem witness_HostWritesPbuf :
    let s := State.reset.queue [.pbufLoad payload9]
    s.inbox = .pbufLoad payload9 :: [] ∧ s.spActive = false ∧
    0 + payload9.length ≤ s.cfg.pbufCap := by decide

/-- A write just past PBUF[0..SP_LEN) of an open iteration. -/
theorem witness_HostWritesPbuf_open :
    let s := State.queue { State.reset with spLen := 9, spActive := true } [.pbufWrite 9 [1]]
    s.inbox = .pbufWrite 9 [1] :: [] ∧ s.spLen.toNat ≤ 9 ∧ 9 + [1].length ≤ s.cfg.pbufCap := by
  decide

/-- The stops: the last byte of an open iteration's payload, and the first cell that does not exist. -/
theorem witness_HostWritesPbuf_stops :
    let s := State.queue { State.reset with spLen := 9, spActive := true } [.pbufWrite 8 [1]]
    s.inbox = .pbufWrite 8 [1] :: [] ∧ ([1] : List Byte) ≠ [] ∧ s.spActive = true ∧
    8 < s.spLen.toNat ∧ ¬ s.cfg.pbufCap < 8 + [1].length ∧
    s.cfg.pbufCap < 18446744073709551615 + [1].length := by decide

/-- A state that meets the invariant and has PBUF and an open iteration in use. -/
theorem witness_StepKeepsInvariant :
    let s : State := { loadedWith payload9 with spLen := 9, spCur := 2, spActive := true }
    s.Inv ∧ step s = .next s := by
  refine ⟨?_, rfl⟩
  constructor <;> decide

/-- For the three frame statements. -/
theorem witness_frames :
    ∃ t, exec .cntGet State.reset = .next t ∧ State.reset.NoResetInCalls ∧
      Instr.cntGet ≠ .splitNext ∧ (∀ len, Instr.cntGet ≠ .wrrec len) ∧ Instr.cntGet ≠ .rdrec ∧
      Instr.cntGet ≠ .mscanClr ∧ (∀ b, Instr.cntGet ≠ .mscanPush b) ∧
      ∀ len, Instr.cntGet ≠ .splitStart len :=
  ⟨_, rfl, ⟨fun _ => List.not_mem_nil, fun _ => List.not_mem_nil⟩, by decide, by simp, by decide, by decide,
    by simp, by simp⟩

theorem witness_OutputIsAppendOnly : step State.reset = .next State.reset := rfl
end

section
/-! PROOFS. The family 10_state: what an operation leaves alone (the scanner, the iterator, EXCEPT_CNT, a
latched fault), and the invariant of the machine, kept by every update an operation or a host's move
makes and so by every step. -/

namespace Sys2Proof.Machine

/-! ### Causes and faults -/

theorem none_not_mem_mayRaise (i : Instr) : Cause.none ∉ mayRaise i := by
  cases i with
  | lrecEnc => exact (by decide : Cause.none ∉ [Cause.lenRange, .flagRange])
  | frmSize => exact (by decide : Cause.none ∉ [Cause.lenRange])
  | wrrec => exact (by decide : Cause.none ∉ [Cause.wrFail])
  | rdrec => decide
  | _ => exact List.not_mem_nil

/-- Only the cause of no fault is of no kind (R231). -/
theorem Cause.kind_eq_none {c : Cause} : c.kind = .none ↔ c = .none := by
  cases c <;> simp [Cause.kind]

theorem kind_ne_none_of_mayRaise {i : Instr} {c : Cause} (h : c ∈ mayRaise i) : c.kind ≠ .none :=
  fun hc => none_not_mem_mayRaise i (Cause.kind_eq_none.1 hc ▸ h)

/-- With a fault latched an operation does nothing but answer (R237). -/
theorem exec_of_faulted {i : Instr} {s t : State} (hf : s.fault ≠ .none) (h : exec i s = .next t) :
    ∃ st r0 r1, t = s.respond st r0 r1 := by
  have refused : ∀ {b}, runOp s b = .next t → ∃ st r0 r1, t = s.respond st r0 r1 := by
    intro b hb
    rw [runOp_of_faulted hf] at hb
    cases hb
    exact ⟨_, _, _, rfl⟩
  cases i with
  | cntGet | statGet => cases h; exact ⟨_, _, _, rfl⟩
  | _ => exact refused h

/-! ### Frames: the scanner's registers, the iterator's, and EXCEPT_CNT -/

/-- WIN, WCNT and SPOS (R29). -/
def State.scanner (s : State) : Byte × Byte × Byte × BitVec 2 × Word :=
  (s.win0, s.win1, s.win2, s.wcnt, s.spos)

/-- SP_LEN, SP_CUR, SP_FIRST and SP_ACTIVE (R30). -/
def State.iterator (s : State) : Word × Word × Bool × Bool :=
  (s.spLen, s.spCur, s.spFirst, s.spActive)

@[simp] theorem State.respond_scanner (s : State) (st : Status) (r0 r1 : Word) :
    (s.respond st r0 r1).scanner = s.scanner := rfl

@[simp] theorem State.respond_iterator (s : State) (st : Status) (r0 r1 : Word) :
    (s.respond st r0 r1).iterator = s.iterator := rfl

@[simp] theorem State.raise_scanner (s : State) (c : Cause) : (s.raise c).scanner = s.scanner := by
  simp [State.raise, State.scanner]

@[simp] theorem State.raise_iterator (s : State) (c : Cause) : (s.raise c).iterator = s.iterator := by
  simp [State.raise, State.iterator]

@[simp] theorem State.raise_exceptCnt (s : State) (c : Cause) :
    (s.raise c).exceptCnt = s.exceptCnt := by
  simp [State.raise]

theorem State.Wrote.scanner_iterator {s t : State} (h : s.Wrote t) :
    t.scanner = s.scanner ∧ t.iterator = s.iterator := by
  obtain ⟨_, _, _, rfl, -⟩ := h; exact ⟨rfl, rfl⟩

theorem State.Took.scanner_iterator {s t : State} (h : s.Took t) :
    t.scanner = s.scanner ∧ t.iterator = s.iterator := by
  obtain ⟨_, _, _, _, _, rfl, -⟩ := h; exact ⟨rfl, rfl⟩

theorem State.Took.exceptCnt {s t : State} (h : s.Took t) : t.exceptCnt = s.exceptCnt := by
  obtain ⟨_, _, _, _, _, rfl, -⟩ := h; rfl

/-- R24, R141. -/
theorem exec_keeps_exceptCnt {i : Instr} {s t : State} (h : exec i s = .next t)
    (hn : s.NoResetInCalls) (hs : i ≠ .splitNext) (hw : ∀ len, i ≠ .wrrec len) :
    t.exceptCnt = s.exceptCnt := by
  cases exec_next h with
  | answered | cleared | pushed | pushedFree | opened => rfl
  | argument | readFailed => rw [State.raise_exceptCnt]
  | advanced _ _ _ hi | delivered _ _ _ _ hi => exact absurd hi hs
  | wrote len _ _ _ _ hi | wrFailed len _ _ hi | wrCut len _ _ _ hi => exact absurd hi (hw len)
  | readDone _ _ _ _ hu => exact hu.exceptCnt
  | readCut k _ _ _ hk => exact absurd hk (hn.2 k)

/-- R29, R222. -/
theorem exec_keeps_scanner {i : Instr} {s t : State} (h : exec i s = .next t)
    (hn : s.NoResetInCalls) (hc : i ≠ .mscanClr) (hp : ∀ b, i ≠ .mscanPush b) :
    t.scanner = s.scanner := by
  cases exec_next h with
  | answered | opened | advanced | delivered => rfl
  | argument => rw [State.raise_scanner]
  | readFailed => rw [State.raise_scanner]; rfl
  | cleared hi => exact absurd hi hc
  | pushed byte _ _ hi | pushedFree byte _ _ hi => exact absurd hi (hp byte)
  | wrote _ _ _ _ _ _ hu => exact hu.scanner_iterator.1
  | wrFailed _ _ _ _ _ hu => rw [State.raise_scanner]; exact hu.scanner_iterator.1
  | wrCut _ _ k _ _ _ hk => exact absurd hk (hn.1 k)
  | readDone _ _ _ _ hu => exact hu.scanner_iterator.1
  | readCut k _ _ _ hk => exact absurd hk (hn.2 k)

/-- R30, R222. -/
theorem exec_keeps_iterator {i : Instr} {s t : State} (h : exec i s = .next t)
    (hn : s.NoResetInCalls) (hs : ∀ len, i ≠ .splitStart len) (hx : i ≠ .splitNext) :
    t.iterator = s.iterator := by
  cases exec_next h with
  | answered | cleared | pushed | pushedFree => rfl
  | argument => rw [State.raise_iterator]
  | readFailed => rw [State.raise_iterator]; rfl
  | opened len hi => exact absurd hi (hs len)
  | advanced _ _ _ hi | delivered _ _ _ _ hi => exact absurd hi hx
  | wrote _ _ _ _ _ _ hu => exact hu.scanner_iterator.2
  | wrFailed _ _ _ _ _ hu => rw [State.raise_iterator]; exact hu.scanner_iterator.2
  | wrCut _ _ k _ _ _ hk => exact absurd hk (hn.1 k)
  | readDone _ _ _ _ hu => exact hu.scanner_iterator.2
  | readCut k _ _ _ hk => exact absurd hk (hn.2 k)

/-! ### The streams and the position in them -/

theorem State.Took.rpos_le {s t : State} (h : s.Took t) (hr : s.rpos ≤ s.istream.length) :
    t.rpos ≤ t.istream.length := by
  obtain ⟨m, k, _, _, _, rfl, -, hk⟩ := h
  simp at hk ⊢; omega

theorem State.Took.output {s t : State} (h : s.Took t) :
    t.ostream = s.ostream ∧ t.wpos = s.wpos := by
  obtain ⟨_, _, _, _, _, rfl, -⟩ := h; exact ⟨rfl, rfl⟩

/-! ### The invariant under each update

An update that leaves the fields a clause speaks of alone keeps the clause as it stands (`h with`). -/

namespace State.Inv

variable {s : State}

theorem respond (h : s.Inv) (st : Status) (r0 r1 : Word) : (s.respond st r0 r1).Inv := { h with }

theorem withInbox (h : s.Inv) (l : List HostAction) : (s.withInbox l).Inv := { h with }

theorem drawFree (h : s.Inv) : s.drawFree.Inv := { h with }

theorem setIn (h : s.Inv) (bytes supply : List Byte) : (s.setIn bytes supply).Inv :=
  { h with rpos := Nat.zero_le _ }

/-- The reset signal sets every register right: only the streams and the configuration matter. -/
theorem hwReset_of (hc : s.cfg.Wf) (hw : s.wpos ≤ s.ostream.length) (hm : s.wpos ≤ s.cfg.lwMax)
    (hr : s.rpos ≤ s.istream.length) : s.hwReset.Inv where
  cfgWf := hc
  pbufWf := List.Pairwise.nil
  pbufCap _ hx := absurd hx List.not_mem_nil
  faultKind := rfl
  cursor := le_rfl
  splitCap := Nat.zero_le _
  splitFirst hf := Bool.noConfusion hf
  splitLeft ha := Bool.noConfusion ha
  exceptCnt := Nat.two_pow_pos _
  spos := Nat.two_pow_pos _
  window _ := (Nat.zero_mod _).symm
  rbufCap := Nat.zero_le _
  awaiting ha := RState.noConfusion ha
  ended he := Bool.noConfusion he
  wpos := hw
  wposMax := hm
  rpos := hr

theorem hwReset (h : s.Inv) : s.hwReset.Inv := hwReset_of h.cfgWf h.wpos h.wposMax h.rpos

theorem clearWindow (h : s.Inv) : s.clearWindow.Inv :=
  { h with spos := Nat.two_pow_pos _, window := fun _ => (Nat.zero_mod _).symm }

/-- While WCNT has not saturated, it and SPOS go up together. -/
theorem pushWindow (h : s.Inv) (b : Byte) : (s.pushWindow b).Inv :=
  { h with
    spos := wrapTo_lt _ _
    window := by
      rw [State.pushWindow_wcnt, State.pushWindow_spos, State.pushWindow_cfg]
      intro hw
      split at hw
      · exact absurd rfl hw
      · rename_i h3
        obtain ⟨-, hlw, -⟩ := h.cfgWf
        have hsum : (s.wcnt + 1).toNat = s.wcnt.toNat + 1 := by bv_omega
        rw [if_neg h3, hsum, wrapTo_toNat hlw, h.window h3, Nat.mod_add_mod] }

theorem openSplit (h : s.Inv) {len : Word} (hl : len.toNat ≤ s.cfg.pbufCap) :
    (s.openSplit len).Inv :=
  { h with
    cursor := Nat.zero_le _
    splitCap := hl
    splitFirst := fun _ => ⟨rfl, rfl⟩
    splitLeft := fun _ hf => Bool.noConfusion hf }

/-- The iteration closes exactly when the chunk reaches SP_LEN, so an open one has a chunk left. -/
theorem advanceSplit (h : s.Inv) {e : Nat} (he : e ≤ s.spLen.toNat) :
    (s.advanceSplit e (decide (e = s.spLen.toNat))).Inv := by
  have hcur : (BitVec.ofNat 64 e).toNat = e := by
    rw [BitVec.toNat_ofNat, Nat.mod_eq_of_lt (lt_of_le_of_lt he s.spLen.isLt)]
  exact
    { h with
      cursor := hcur.trans_le he
      splitFirst := fun hf => Bool.noConfusion hf
      splitLeft := fun ha _ => by
        have hne : e ≠ s.spLen.toNat := fun heq => by simp [heq] at ha
        exact hcur.trans_lt (lt_of_le_of_ne he hne) }

theorem addExcept (h : s.Inv) (n : Nat) : (s.addExcept n).Inv :=
  { h with exceptCnt := wrapTo_lt _ _ }

theorem writePbuf (h : s.Inv) {offset : Nat} {bytes : List Byte}
    (hc : offset + bytes.length ≤ s.cfg.pbufCap) :
    { s with pbuf := s.pbuf.writeRange offset bytes }.Inv :=
  { h with
    pbufWf := Memory.wf_writeRange bytes h.pbufWf offset
    pbufCap := fun x hx => (Memory.mem_writeRange bytes hx).elim (h.pbufCap x) (·.trans_le hc) }

theorem wrote (h : s.Inv) {t : State} (ht : s.Wrote t) : t.Inv := by
  obtain ⟨bs, _, _, rfl, -, hmax⟩ := ht
  exact
    { h with
      wpos := by have := h.wpos; simp; omega
      wposMax := hmax h.wposMax }

/-- Reads that RDREC ends with a record, or at a clean end of stream (R198). -/
theorem took (h : s.Inv) {t : State} {r : RState} {e : Bool}
    (ht : State.Took { s with rbuf := [], rstate := r, eos := e } t)
    (hb : t.rbuf.length ≤ s.cfg.rbufCap) (ha : r ≠ .awaitingContinuation)
    (he : e = true → r = .start ∧ t.rbuf = []) : t.Inv := by
  have hr := ht.rpos_le h.rpos
  obtain ⟨_, _, _, _, _, rfl, -⟩ := ht
  exact
    { h with
      rbufCap := hb
      awaiting := fun hr => absurd hr ha
      ended := fun h1 => ⟨(he h1).1, fun _ => (he h1).2⟩
      rpos := hr }

theorem raise (h : s.Inv) (hf : s.fault = .none) {c : Cause} (hc : c.kind ≠ .none) :
    (s.raise c).Inv := by
  rw [State.raise_of_clean hf]
  exact
    { h with
      faultKind := rfl
      rbufCap := List.length_take_le _ _
      awaiting := fun _ => hc
      ended := fun he => ⟨(h.ended he).1, fun hn => absurd hn hc⟩ }

/-- A fault of RDREC: RSTATE and RBUF may be left at anything, but EOS is not set (R236). -/
theorem raise_read (h : s.Inv) (hf : s.fault = .none) (he : s.eos = false) {c : Cause}
    (hc : c.kind ≠ .none) (r : RState) {i : List Byte} {n : Nat} (hn : n ≤ i.length)
    (es : List StreamEvent) (o : Oracle) (b : List Byte) :
    (State.raise { s with
      rstate := r, istream := i, rpos := n, history := es, oracle := o, rbuf := b } c).Inv := by
  rw [State.raise_of_clean]
  · exact
      { h with
        faultKind := rfl
        rbufCap := List.length_take_le _ _
        awaiting := fun _ => hc
        ended := fun h1 => absurd (he.symm.trans h1) Bool.false_ne_true
        rpos := hn }
  · exact hf

/-- Every operation keeps the invariant, whatever the streams answer. -/
theorem exec (h : s.Inv) {i : Instr} {t : State} (hx : exec i s = .next t) : t.Inv := by
  cases exec_next hx with
  | answered => exact h.respond _ _ _
  | argument c hc hf => exact h.raise hf (kind_ne_none_of_mayRaise hc)
  | cleared => exact h.clearWindow.respond _ _ _
  | pushed => exact (h.pushWindow _).respond _ _ _
  | pushedFree => exact (h.pushWindow _).drawFree.respond _ _ _
  | opened _ _ hl => exact (h.openSplit hl).respond _ _ _
  | advanced _ _ _ _ _ he => exact (h.advanceSplit he).respond _ _ _
  | delivered n _ _ _ _ _ he => exact ((h.addExcept n).advanceSplit he).respond _ _ _
  | wrote _ m _ _ _ _ hu => exact ((h.addExcept m).wrote hu).respond _ _ _
  | wrFailed _ m _ _ hf hu =>
    refine ((h.addExcept m).wrote hu).raise ?_ FaultKind.noConfusion
    obtain ⟨_, _, _, rfl, -⟩ := hu
    exact hf
  | wrCut _ m _ _ _ hu => exact ((h.addExcept m).wrote hu).hwReset
  | readDone _ _ u _ hu hb hr =>
    refine (h.took hu hb ?_ ?_).respond _ _ _
    · rcases hr with ⟨hr, -⟩ | ⟨hr, -⟩ <;> simp [hr]
    · intro he
      rcases hr with ⟨hr, -, hempty⟩ | ⟨-, -, hopen⟩
      · exact ⟨hr, hempty⟩
      · exact absurd (hopen.symm.trans he) Bool.false_ne_true
  | readFailed c r m k es o b _ hf he hc hk =>
    refine h.raise_read hf he (kind_ne_none_of_mayRaise hc) r ?_ es o b
    have := h.rpos
    simp at hk ⊢; omega
  | readCut _ u _ hu =>
    obtain ⟨hout, hwpos⟩ := hu.output
    obtain ⟨hcfg, -⟩ := hu.same
    refine hwReset_of ?_ ?_ ?_ (hu.rpos_le h.rpos)
    · rw [hcfg]; exact h.cfgWf
    · rw [hout, hwpos]; exact h.wpos
    · rw [hcfg, hwpos]; exact h.wposMax

end State.Inv

/-! ### The obligations -/

/-- Settles O56: every host move is an update that keeps the invariant, or an operation, which does. -/
theorem stepKeepsInvariant : Obligations.StepKeepsInvariant := by
  intro s t h hstep
  rcases step_next hstep with ⟨-, rfl⟩ | ⟨a, rest, -, hmove⟩
  · exact h
  have h' := h.withInbox rest
  rcases hmove with ⟨_, i, -, -, hx⟩ | ⟨_, -, rfl⟩ | ⟨-, rfl⟩ | ⟨o, b, rfl, hc⟩ | ⟨b, l, rfl⟩ | ⟨m, rfl⟩
  · exact h'.exec hx
  · exact h'.respond _ _ _
  · exact h'.hwReset
  · exact h'.writePbuf hc
  · exact h'.setIn b l
  · exact h.withInbox m

/-- Settles O48: a faulted block only answers, and of the host's other moves only the reset signal
writes FAULT and CAUSE. -/
theorem faultIsSticky : Obligations.FaultIsSticky := by
  intro s t hf hr hstep
  rcases step_next hstep with ⟨-, rfl⟩ | ⟨a, rest, hin, hmove⟩
  · exact ⟨rfl, rfl⟩
  rcases hmove with ⟨_, i, -, -, hx⟩ | ⟨_, -, rfl⟩ | ⟨rfl, -⟩ | ⟨_, _, rfl, -⟩ | ⟨_, _, rfl⟩ | ⟨_, rfl⟩
  · obtain ⟨_, _, _, rfl⟩ := exec_of_faulted (s := s.withInbox rest) hf hx
    exact ⟨rfl, rfl⟩
  · exact ⟨rfl, rfl⟩
  · exact absurd (by rw [hin]; rfl) hr
  · exact ⟨rfl, rfl⟩
  · exact ⟨rfl, rfl⟩
  · exact ⟨rfl, rfl⟩

/-- Settles O57. -/
theorem counterWrittenBySplitNextAndWrrec : Obligations.CounterWrittenBySplitNextAndWrrec :=
  fun _ _ _ h hn hs hw => exec_keeps_exceptCnt h hn hs hw

/-- Settles O59. -/
theorem scannerAndIteratorFrames : Obligations.ScannerAndIteratorFrames := by
  intro i s t h hn
  refine ⟨fun hc hp => ?_, fun hs hx => ?_⟩
  · simpa [State.scanner] using exec_keeps_scanner h hn hc hp
  · simpa [State.iterator] using exec_keeps_iterator h hn hs hx

/-- A payload that covers a cell nothing has written is not read (R31, U9). -/
theorem readPayload_unwritten {s : State} {n k : Nat} (hk : k < n) (h : s.pbuf.read k = none) :
    readPayload n s = .stuck .pbufUnwritten := by
  rw [readPayload, Memory.readRange_eq_none hk h]

/-- Settles O33: each of the three operations reads the payload first, once its operands are judged. -/
theorem unwrittenPayloadStops : Obligations.UnwrittenPayloadStops := by
  intro s start len k hf hlim hcell
  refine ⟨fun hk hcap hstart => ?_, fun hk hcap => ?_, fun hk hact => ?_⟩
  · simp [exec, execMscanFind, runOp_of_clean hf, mscanFindBody, hcap, hstart,
      readPayload_unwritten hk hcell]
  · simp [exec, execWrrec, runOp_of_clean hf, wrrecBody, hcap, if_pos hlim,
      readPayload_unwritten hk hcell]
  · simp [exec, execSplitNext, runOp_of_clean hf, splitNextBody, hact, if_pos hlim,
      readPayload_unwritten hk hcell]

/-- Settles O47: three finite tables. -/
theorem statusCodes : Obligations.StatusCodes := ⟨by decide, by decide, by decide⟩

/-- Settles O50: one fixed state. -/
theorem resetValues : Obligations.ResetValues := by
  unfold Obligations.ResetValues; decide

/-- The reset signal clears every field of STATUS (R25, R41). -/
@[simp] theorem State.hwReset_status (s : State) : s.hwReset.status = 0 := by
  simp [State.status, RState.code, Cause.code, FaultKind.code]

/-- Settles O51: the step is the reset signal, with the move off the host's list. -/
theorem resetSignalClearsBlock : Obligations.ResetSignalClearsBlock := by
  intro s rest hin
  refine ⟨(s.withInbox rest).hwReset, by rw [step, hin]; rfl, ?_⟩
  simp [State.reg, magic]

/-- Settles O55: the state after reset is one the reset signal leaves as it is. -/
theorem resetMeetsInvariant : Obligations.ResetMeetsInvariant :=
  State.Inv.hwReset_of (s := State.reset) (by decide) le_rfl (Nat.zero_le _) le_rfl

end Sys2Proof.Machine
end

section
/-! PROOFS. The family 20_memory: the command port and the host's writes to PBUF, whose memory each
operation may touch, OSTREAM's growth, and what RDREC leaves behind a frame at fault. -/

namespace Sys2Proof.Machine

/-! ### The command port -/

theorem step_of_idle {s : State} (h : s.inbox = []) : step s = .next s := by rw [step, h]

theorem step_of_pending {s : State} {a : HostAction} {rest : List HostAction}
    (h : s.inbox = a :: rest) : step s = runAction a (s.withInbox rest) := by rw [step, h]

theorem runPacket_of_decode {p : Packet} {i : Instr} (h : decode p = .ok i) (s : State) :
    runPacket p s = exec i s := by rw [runPacket, h]

/-- Settles O6. -/
theorem stepRunsDecodedCommand : Obligations.StepRunsDecodedCommand := by
  intro s p rest i hin hd
  rw [step_of_pending hin]
  exact runPacket_of_decode hd _

/-- Settles O7. -/
theorem idleBlockWaits : Obligations.IdleBlockWaits := fun _ h => step_of_idle h

/-! ### The host's writes to PBUF -/

/-- A write of at least one byte: the two stops of log 16 in their order, else the write. -/
theorem hostWrite_of_ne_nil {bytes : List Byte} (hb : bytes ≠ []) (offset : Nat) (s : State) :
    hostWrite offset bytes s =
      if s.cfg.pbufCap < offset + bytes.length then .fault .pbufNoSuchCell
      else if s.spActive = true ∧ offset < s.spLen.toNat then .refused .pbufWrittenWhileSplitOpen
      else .next { s with pbuf := s.pbuf.writeRange offset bytes } := if_neg hb

/-- A write the host has (R50): within PBUF_CAP and clear of an open iteration's payload. -/
theorem hostWrite_of_clear {s : State} {offset : Nat} {bytes : List Byte}
    (hs : s.spActive = false ∨ s.spLen.toNat ≤ offset)
    (hc : offset + bytes.length ≤ s.cfg.pbufCap) :
    hostWrite offset bytes s = .next { s with pbuf := s.pbuf.writeRange offset bytes } := by
  rcases eq_or_ne bytes [] with rfl | hb
  · rfl
  · have hclear : ¬ (s.spActive = true ∧ offset < s.spLen.toNat) := by
      rintro ⟨hactive, hlt⟩
      rcases hs with hs | hs
      · exact Bool.false_ne_true (hs.symm.trans hactive)
      · omega
    rw [hostWrite_of_ne_nil hb, if_neg (Nat.not_lt.2 hc), if_neg hclear]

/-- Settles O54: both moves are a host write at their offset, in the state with the move taken off. -/
theorem hostWritesPbuf : Obligations.HostWritesPbuf := by
  intro s rest offset bytes hin
  have hstep : step s = hostWrite offset bytes (s.withInbox rest) := by
    rcases hin with hin | ⟨hin, rfl⟩ <;> exact step_of_pending hin
  rw [hstep]
  refine ⟨fun hs hc => ?_, fun hb => hostWrite_of_ne_nil hb offset _⟩
  exact ⟨_, hostWrite_of_clear hs hc, Memory.read_writeRange bytes s.pbuf offset⟩

/-! ### Whose memory an operation touches -/

/-- What no operation writes (R50): PBUF, the parameters, the host's list, and ISTREAM's source. -/
def State.unowned (s : State) : Memory × Config × List HostAction × List Byte :=
  (s.pbuf, s.cfg, s.inbox, s.supply)

/-- OSTREAM and WPOS, WRREC's (R33). -/
def State.output (s : State) : List Byte × Nat := (s.ostream, s.wpos)

/-- ISTREAM, RPOS, EOS and RSTATE, RDREC's (R27, R28, R34). -/
def State.reader (s : State) : List Byte × Nat × Bool × RState :=
  (s.istream, s.rpos, s.eos, s.rstate)

@[simp] theorem State.raise_unowned (s : State) (c : Cause) : (s.raise c).unowned = s.unowned := by
  simp [State.raise, State.unowned]

@[simp] theorem State.raise_output (s : State) (c : Cause) : (s.raise c).output = s.output := by
  simp [State.raise, State.output]

@[simp] theorem State.raise_reader (s : State) (c : Cause) : (s.raise c).reader = s.reader := by
  simp [State.raise, State.reader]

/-- A fault raised where none was latched shows in FAULT (R236). -/
theorem State.raise_fault_ne {s : State} (hf : s.fault = .none) {c : Cause} (hc : c.kind ≠ .none) :
    (s.raise c).fault ≠ .none := by
  rw [State.raise_of_clean hf]; exact hc

theorem State.Wrote.unowned_reader {s t : State} (h : s.Wrote t) :
    t.unowned = s.unowned ∧ t.reader = s.reader := by
  obtain ⟨_, _, _, rfl, -⟩ := h; exact ⟨rfl, rfl⟩

theorem State.Wrote.fault_rbuf {s t : State} (h : s.Wrote t) :
    t.fault = s.fault ∧ t.rbuf = s.rbuf := by
  obtain ⟨_, _, _, rfl, -⟩ := h; exact ⟨rfl, rfl⟩

theorem State.Took.unowned {s t : State} (h : s.Took t) : t.unowned = s.unowned := by
  obtain ⟨_, _, _, _, _, rfl, -⟩ := h; rfl

theorem State.Took.istream_handed {s t : State} (h : s.Took t) :
    ∃ m, t.istream = s.istream ++ handed s.supply m := by
  obtain ⟨m, _, _, _, _, rfl, -⟩ := h; exact ⟨m, rfl⟩

theorem exec_keeps_unowned {i : Instr} {s t : State} (h : exec i s = .next t)
    (hn : s.NoResetInCalls) : t.unowned = s.unowned := by
  cases exec_next h with
  | answered | cleared | pushed | pushedFree | opened | advanced | delivered => rfl
  | argument => rw [State.raise_unowned]
  | readFailed => rw [State.raise_unowned]; rfl
  | wrote _ _ _ _ _ _ hu => exact hu.unowned_reader.1
  | wrFailed _ _ _ _ _ hu => rw [State.raise_unowned]; exact hu.unowned_reader.1
  | wrCut _ _ k _ _ _ hk => exact absurd hk (hn.1 k)
  | readDone _ _ _ _ hu => exact hu.unowned
  | readCut k _ _ _ hk => exact absurd hk (hn.2 k)

/-- Resets in RDREC's calls included: the reset signal leaves the streams alone (R262). -/
theorem exec_keeps_output {i : Instr} {s t : State} (h : exec i s = .next t)
    (hw : ∀ len, i ≠ .wrrec len) : t.output = s.output := by
  cases exec_next h with
  | answered | cleared | pushed | pushedFree | opened | advanced | delivered => rfl
  | argument => rw [State.raise_output]
  | readFailed => rw [State.raise_output]; rfl
  | wrote len _ _ _ _ hi | wrFailed len _ _ hi | wrCut len _ _ _ hi => exact absurd hi (hw len)
  | readDone _ _ _ _ hu | readCut _ _ _ hu => exact Prod.ext hu.output.1 hu.output.2

theorem exec_keeps_reader {i : Instr} {s t : State} (h : exec i s = .next t)
    (hn : s.NoResetInCalls) (hr : i ≠ .rdrec) : t.reader = s.reader := by
  cases exec_next h with
  | answered | cleared | pushed | pushedFree | opened | advanced | delivered => rfl
  | argument => rw [State.raise_reader]
  | wrote _ _ _ _ _ _ hu => exact hu.unowned_reader.2
  | wrFailed _ _ _ _ _ hu => rw [State.raise_reader]; exact hu.unowned_reader.2
  | wrCut _ _ k _ _ _ hk => exact absurd hk (hn.1 k)
  | readDone _ _ _ hi | readFailed _ _ _ _ _ _ _ hi | readCut _ _ hi => exact absurd hi hr

/-- What an operation may do to ISTREAM is have its source hand over more. -/
theorem exec_extends_istream {i : Instr} {s t : State} (h : exec i s = .next t)
    (hn : s.NoResetInCalls) : ∃ m, t.istream = s.istream ++ handed s.supply m := by
  by_cases hr : i = .rdrec
  · subst hr
    cases exec_next h with
    | answered => exact ⟨0, by simp⟩
    | argument _ _ _ _ hne => exact absurd rfl hne
    | readDone _ _ _ _ hu => exact hu.istream_handed
    | readFailed _ _ m => exact ⟨m, by simp [State.raise]⟩
    | readCut k _ _ _ hk => exact absurd hk (hn.2 k)
    | _ => contradiction
  · have hk : t.istream = s.istream := congrArg Prod.fst (exec_keeps_reader h hn hr)
    exact ⟨0, by simp [hk]⟩

/-- Of the operations other than RDREC those that raise a fault lose RBUF, and only they (R238). -/
theorem exec_keeps_rbuf {i : Instr} {s t : State} (h : exec i s = .next t)
    (hn : s.NoResetInCalls) (hr : i ≠ .rdrec) (hfault : t.fault = s.fault) : t.rbuf = s.rbuf := by
  cases exec_next h with
  | answered | cleared | pushed | pushedFree | opened | advanced | delivered => rfl
  | argument c hc hf =>
    exact absurd (hfault.trans hf) (State.raise_fault_ne hf (kind_ne_none_of_mayRaise hc))
  | wrote _ _ _ _ _ _ hu => exact hu.fault_rbuf.2
  | wrFailed _ _ _ _ hf hu =>
    exact absurd (hfault.trans hf)
      (State.raise_fault_ne (hu.fault_rbuf.1.trans hf) FaultKind.noConfusion)
  | wrCut _ _ k _ _ _ hk => exact absurd hk (hn.1 k)
  | readDone _ _ _ hi | readFailed _ _ _ _ _ _ _ hi | readCut _ _ hi => exact absurd hi hr

/-- Settles O58. -/
theorem memoriesTouchedByTheirOwnersOnly : Obligations.MemoriesTouchedByTheirOwnersOnly := by
  intro i s t h hn
  obtain ⟨hpbuf, hcfg, hinbox, hsupply⟩ :
      t.pbuf = s.pbuf ∧ t.cfg = s.cfg ∧ t.inbox = s.inbox ∧ t.supply = s.supply := by
    simpa [State.unowned] using exec_keeps_unowned h hn
  refine ⟨hpbuf, hcfg, hinbox, hsupply, exec_extends_istream h hn, fun hw => ?_, fun hr => ?_⟩
  · simpa [State.output] using exec_keeps_output h hw
  · obtain ⟨histream, hrpos, heos, hrstate⟩ :
        t.istream = s.istream ∧ t.rpos = s.rpos ∧ t.eos = s.eos ∧ t.rstate = s.rstate := by
      simpa [State.reader] using exec_keeps_reader h hn hr
    exact ⟨histream, hrpos, heos, hrstate, exec_keeps_rbuf h hn hr⟩

/-! ### OSTREAM only grows -/

/-- From `s` to `t` OSTREAM got longer by some bytes, and WPOS by as many (R33, R56). -/
def State.OutputGrows (s t : State) : Prop :=
  ∃ bs, t.ostream = s.ostream ++ bs ∧ t.wpos = s.wpos + bs.length

theorem State.OutputGrows.of_output_eq {s t : State} (h : t.output = s.output) :
    s.OutputGrows t :=
  ⟨[], by rw [List.append_nil]; exact congrArg Prod.fst h, congrArg Prod.snd h⟩

theorem State.Wrote.outputGrows {s t : State} (h : s.Wrote t) : s.OutputGrows t := by
  obtain ⟨bs, _, _, rfl, -⟩ := h; exact ⟨bs, rfl, rfl⟩

/-- Failed and cut writes keep what they appended: neither a fault nor the reset signal touches
OSTREAM (R236, R262). -/
theorem exec_outputGrows {i : Instr} {s t : State} (h : exec i s = .next t) : s.OutputGrows t := by
  by_cases hw : ∀ len, i ≠ .wrrec len
  · exact .of_output_eq (exec_keeps_output h hw)
  · obtain ⟨len, rfl⟩ : ∃ len, i = .wrrec len := by simpa using hw
    cases exec_next h with
    | answered => exact .of_output_eq rfl
    | argument _ _ _ hne => exact absurd rfl (hne len)
    | wrote _ _ _ _ _ _ hu => exact hu.outputGrows
    | wrFailed _ _ u _ _ hu =>
      have hgrows : (s.addExcept _).OutputGrows u := hu.outputGrows
      simpa [State.OutputGrows, State.raise] using hgrows
    | wrCut _ _ _ _ _ hu => exact hu.outputGrows
    | _ => contradiction

/-- Settles O60: of the host's moves only an operation reaches OSTREAM. -/
theorem outputIsAppendOnly : Obligations.OutputIsAppendOnly := by
  intro s t hstep
  show s.OutputGrows t
  rcases step_next hstep with ⟨-, rfl⟩ | ⟨a, rest, -, hmove⟩
  · exact .of_output_eq rfl
  rcases hmove with ⟨_, i, -, -, hx⟩ | ⟨_, -, rfl⟩ | ⟨-, rfl⟩ | ⟨_, _, rfl, -⟩ | ⟨_, _, rfl⟩ | ⟨_, rfl⟩
  · exact exec_outputGrows (s := s.withInbox rest) hx
  all_goals exact .of_output_eq rfl

/-! ### RDREC and a frame at fault -/

/-- RPOS after a fault: from the frame's start to where the reads had come (U6). -/
theorem State.faultRpos_mem {s : State} {start : Nat} (h : start ≤ s.rpos) :
    start ≤ s.faultRpos start ∧ s.faultRpos start ≤ s.rpos := by
  unfold State.faultRpos
  split <;> omega

theorem State.Answered.same {s u : State} {es : List StreamEvent} (h : s.Answered es u) :
    u.cfg = s.cfg ∧ u.fault = s.fault := by
  obtain ⟨⟨_, _, rfl⟩, -⟩ := h; exact ⟨rfl, rfl⟩

/-- RDREC's loop on an open record whose next frame is at fault, under RDREC's own bound: the frames
before it are read, the frame at fault is where RPOS may fall back to. -/
theorem rdrecLoop_raises {s t u : State} {fs : List WireFrame} {d : List Byte}
    {es : List StreamEvent} {c : Cause} (hw : ∀ f ∈ fs, f.Wf)
    (hopen : openRecordFlags (fs.map (·.flag)) = true)
    (hbad : BadFrame s.cfg.byteOrder (openState fs) d es c)
    (hfs : State.answering (wireReads s.cfg.byteOrder fs) s = some t)
    (hes : State.answering es t = some u) (hcap : (wireData fs ++ d).length ≤ s.cfg.rbufCap) :
    rdrecLoop (rdrecBound s) s.openRecord =
      .raised c ((u.amid (wireData fs ++ d) (openState fs)).afterReadFault t.rpos) := by
  have hcfg : t.cfg = s.cfg := (State.answering_answered hfs).same.1
  rw [List.length_append] at hcap
  refine rdrecLoop_of_ends (n := fs.length + 1) ?_ (by rintro (h | h) <;> cases h)
  rw [rdrecLoop_open 1 hw hopen rfl hfs (by omega)]
  refine rdrecLoop_bad ?_ (by rw [hcfg]) hbad hes (by rwa [hcfg]) 0
  unfold openState
  split
  · exact .inl rfl
  · exact .inr rfl

/-- What RDREC answers, and leaves, when the frames of an open record, or none, are followed by reads at
which it raises `c` (R236): RBUF and RPOS are open (U5, U6). -/
theorem exec_rdrec_raises {s u : State} {fs : List WireFrame} {d : List Byte}
    {es : List StreamEvent} {c : Cause} (hf : s.fault = .none) (he : s.eos = false)
    (hw : ∀ f ∈ fs, f.Wf) (hopen : openRecordFlags (fs.map (·.flag)) = true)
    (hbad : BadFrame s.cfg.byteOrder (openState fs) d es c)
    (hans : State.answering (wireReads s.cfg.byteOrder fs ++ es) s = some u)
    (hcap : (wireData fs ++ d).length ≤ s.cfg.rbufCap) :
    ∃ (b : List Byte) (n : Nat),
      s.rpos + (wireBytes s.cfg.byteOrder fs).length ≤ n ∧ n ≤ u.rpos ∧
      exec .rdrec s = .next
        ({ s with
            fault := c.kind, cause := c, rstate := openState fs
            istream := u.istream, rbuf := b, rpos := n
            history := s.history ++ (wireReads s.cfg.byteOrder fs ++ es)
            oracle := { s.oracle with
              reads := s.oracle.reads.drop (wireReads s.cfg.byteOrder fs ++ es).length
              rpos := s.oracle.rpos.tail }
            freeCtr := s.freeCtr + 1 }.respond c.kind.status 0 0) := by
  obtain ⟨t, hfs, hes⟩ := State.answering_append.1 hans
  have hstart : t.rpos = s.rpos + (wireBytes s.cfg.byteOrder fs).length := by
    rw [(State.answering_answered hfs).2.1, wireReads_bytes]
  have hreached : t.rpos ≤ u.rpos := by
    rw [(State.answering_answered hes).2.1]; omega
  have hrun : exec .rdrec s =
      .next (((u.amid (wireData fs ++ d) (openState fs)).afterReadFault t.rpos).raise c) := by
    rw [exec, execRdrec, runOp_of_clean hf, rdrecBody, he, if_neg Bool.false_ne_true,
      rdrecLoop_raises hw hopen hbad hfs hes hcap, conclude_raised]
  have hclean :
      ((u.amid (wireData fs ++ d) (openState fs)).afterReadFault t.rpos).fault = .none :=
    (State.answering_answered hans).same.2.trans hf
  obtain ⟨hlow, hhigh⟩ :=
    State.faultRpos_mem (s := u.amid (wireData fs ++ d) (openState fs)) hreached
  refine ⟨(Config.freeRbuf s.freeCtr).take s.cfg.rbufCap, _, hstart ▸ hlow, hhigh, ?_⟩
  rw [hrun, State.raise_of_clean hclean]
  obtain ⟨⟨_, _, rfl⟩, -⟩ := State.answering_answered hans
  rfl

/-- Settles O39. -/
theorem rdrecRaisesUnderAnyAnswers : Obligations.RdrecRaisesUnderAnyAnswers := by
  intro s u fs d es c hf he hw hopen hkind hbad hans hcap
  have hraise := exec_rdrec_raises hf he hw hopen hbad hans hcap
  rw [hkind] at hraise
  exact hraise

/-- Settles O40: a failing read is one more way for a frame to be at fault. -/
theorem rdrecReadFailure : Obligations.RdrecReadFailure := by
  intro s u fs d es hf he hw hopen hbad hans hcap
  exact exec_rdrec_raises hf he hw hopen hbad hans hcap

end Sys2Proof.Machine
end

section
/-! PROOFS. The family 30_encoding: what the decoder reads from a packet, the two packet layouts, R91's
operand ranges, and the host's directives. -/

namespace Sys2Proof.Machine

/-! ### The decoder -/

/-- A packet decodes to `i` exactly when it holds `i`'s opcode and, in the fields `i` uses, `i`'s
operands (R88, R90). -/
theorem decode_eq_ok {p : Packet} {i : Instr} :
    decode p = .ok i ↔ p.op = i.opcode ∧ (∀ w ∈ i.arg0, p.a0 = w) ∧ ∀ w ∈ i.arg1, p.a1 = w := by
  constructor
  · intro h
    unfold decode at h
    split at h <;> cases h
    all_goals rename_i hop; simp [hop, Instr.opcode, Instr.arg0, Instr.arg1]
  · rintro ⟨hop, ha0, ha1⟩
    cases i with
    | mscanClr | splitNext | rdrec | cntGet | statGet => simp [decode, hop, Instr.opcode]
    | lrecEnc | mscanFind => simp [decode, hop, Instr.opcode, ha0 _ rfl, ha1 _ rfl]
    | _ => simp [decode, hop, Instr.opcode, ha0 _ rfl]

/-- Whatever stands in a field `i` does not use (R88). -/
theorem decode_mkPacket (i : Instr) (a1 a0 : Word) :
    decode (mkPacket i.opcode (i.arg1.getD a1) (i.arg0.getD a0)) = .ok i :=
  decode_eq_ok.2 ⟨mkPacket_op .., fun w hw => by simp [Option.mem_def.1 hw],
    fun w hw => by simp [Option.mem_def.1 hw]⟩

/-- R92: every other branch of the decoder is for an opcode of the map. -/
theorem decode_of_reserved {p : Packet} (h : p.op ∉ opcodes) :
    decode p = .error (.reservedOpcode p.op) := by
  unfold decode
  split
  case h_16 => rfl
  all_goals rename_i hop; exact absurd (by rw [hop]; decide) h

theorem runPacket_of_reserved {p : Packet} (h : p.op ∉ opcodes) (s : State) :
    runPacket p s = .next (s.respond .refused 0 0) := by
  rw [runPacket, decode_of_reserved h]; rfl

/-- Settles O3: the fields the encoder sends as 0 are ones the operation does not use. -/
theorem decodeEncodeRoundTrip : Obligations.DecodeEncodeRoundTrip := fun i => decode_mkPacket i 0 0

/-- Settles O1: ten closed packets. -/
theorem specPacketsDecode : Obligations.SpecPacketsDecode := by
  unfold Obligations.SpecPacketsDecode; decide

/-- Settles O2. -/
theorem opcodeMapDecodes : Obligations.OpcodeMapDecodes := fun a0 a1 =>
  ⟨decode_mkPacket (.lrecEnc a0 a1) a1 a0, decode_mkPacket (.lrecFlag a0) a1 a0,
    decode_mkPacket (.lrecLen a0) a1 a0, decode_mkPacket (.padCalc a0) a1 a0,
    decode_mkPacket (.frmSize a0) a1 a0, decode_mkPacket (.mscanCmp a0) a1 a0,
    decode_mkPacket .mscanClr a1 a0, decode_mkPacket (.mscanPush a0) a1 a0,
    decode_mkPacket (.mscanFind a0 a1) a1 a0, decode_mkPacket (.splitStart a0) a1 a0,
    decode_mkPacket .splitNext a1 a0, decode_mkPacket (.wrrec a0) a1 a0,
    decode_mkPacket .rdrec a1 a0, decode_mkPacket .cntGet a1 a0, decode_mkPacket .statGet a1 a0,
    fun op hop => by
      have hreserved := decode_of_reserved (p := mkPacket op a1 a0) (by rwa [mkPacket_op])
      rwa [mkPacket_op] at hreserved⟩

/-- Settles O8. -/
theorem reservedOpcodeRefused : Obligations.ReservedOpcodeRefused := by
  intro s p rest hin hop
  rw [step_of_pending hin]
  exact runPacket_of_reserved hop _

/-! ### The packet layouts -/

/-- A packet is its three fields (R88). -/
theorem packet_toNat (p : Packet) :
    p.toNat = p.op.toNat * 2 ^ 128 + p.a1.toNat * 2 ^ 64 + p.a0.toNat := by
  have hp : p.toNat < 2 ^ 136 := p.isLt
  simp only [Packet.op, Packet.a1, Packet.a0, BitVec.extractLsb'_toNat, Nat.shiftRight_eq_div_pow]
  omega

theorem Response.packet_toNat (r : Response) :
    r.packet.toNat = r.st.code.toNat * 2 ^ 128 + r.r1.toNat * 2 ^ 64 + r.r0.toNat := by
  have happend : r.packet.toNat =
      (r.st.code.toNat * 2 ^ 64 + r.r1.toNat) * 2 ^ 64 + r.r0.toNat := by
    rw [Response.packet, toNat_append_eq, toNat_append_eq]
  rw [happend]; ring

/-- Settles O4: what a packet decodes to depends on the opcode and the fields in use. -/
theorem packetLayoutAndIgnoredFields : Obligations.PacketLayoutAndIgnoredFields := by
  refine ⟨packet_toNat, fun p q i hp hop ha0 ha1 => ?_⟩
  obtain ⟨hpop, hpa0, hpa1⟩ := decode_eq_ok.1 hp
  refine decode_eq_ok.2 ⟨hop.trans hpop, fun w hw => ?_, fun w hw => ?_⟩
  · exact (ha0 (by simp [Option.mem_def.1 hw])).trans (hpa0 w hw)
  · exact (ha1 (by simp [Option.mem_def.1 hw])).trans (hpa1 w hw)

/-- Settles O5. -/
theorem responsePacketLayout : Obligations.ResponsePacketLayout := by
  rintro ⟨st, r1, r0⟩
  rw [Response.packet_toNat]
  cases st <;> rfl

/-! ### Operand ranges -/

/-- What an operation does once it is accepted. -/
def bodyOf : Instr → State → Res (Word × Word)
  | .lrecEnc cflag length => lrecEncBody cflag length
  | .lrecFlag word => lrecFlagBody word
  | .lrecLen word => lrecLenBody word
  | .padCalc length => padCalcBody length
  | .frmSize length => frmSizeBody length
  | .mscanCmp word => mscanCmpBody word
  | .mscanClr => mscanClrBody
  | .mscanPush byte => mscanPushBody byte
  | .mscanFind start len => mscanFindBody start len
  | .splitStart len => splitStartBody len
  | .splitNext => splitNextBody
  | .wrrec len => wrrecBody len
  | .rdrec => rdrecBody
  | .cntGet => fun s => .ok (s.exceptCnt, 0) s
  | .statGet => fun s => .ok (s.status, 0) s

theorem exec_of_clean {s : State} (hf : s.fault = .none) (i : Instr) :
    exec i s = conclude s (bodyOf i s) := by
  cases i with
  | cntGet | statGet => rfl
  | _ => exact runOp_of_clean hf _

/-- How a body ends that has an operand outside its range (R91, R234). -/
def operandFault (i : Instr) (s : State) : Res (Word × Word) :=
  match i with
  | .lrecEnc _ length => .raised (if length.toNat < 2 ^ 30 then .flagRange else .lenRange) s
  | .frmSize _ => .raised .lenRange s
  | _ => .refuse

/-- The body neither refuses nor raises an ArgumentError. -/
def Res.Accepts {α : Type} : Res α → Prop
  | .refuse => False
  | .raised c _ => c.kind ≠ .argumentError
  | _ => True

/-- The body accepts operands that are `legal`, and ends in `fault` on others. -/
def Res.Judges {α : Type} (legal : Bool) (fault body : Res α) : Prop :=
  (legal = true → body.Accepts) ∧ (legal = false → body = fault)

theorem Res.judges_ite {α : Type} {legal : Bool} {fault body : Res α} (h : body.Accepts) :
    Res.Judges legal fault (if legal then body else fault) :=
  ⟨fun hlegal => by rwa [if_pos hlegal], fun hill => by rw [hill]; rfl⟩

theorem Res.Accepts.judges {α : Type} {fault body : Res α} (h : body.Accepts) :
    Res.Judges true fault body := ⟨fun _ => h, Bool.noConfusion⟩

theorem readPayload_bind_accepts {n : Nat} {s : State} {k : List Byte → State → Res (Word × Word)}
    (hk : ∀ p, (k p s).Accepts) : ((readPayload n s).bind k).Accepts := by
  unfold readPayload
  split
  · exact hk _
  · trivial

theorem hitOffset_accepts (t : State) : (hitOffset t).Accepts := by
  unfold hitOffset
  split <;> trivial

/-- RDREC's faults are of what stands on ISTREAM (R232). -/
theorem kind_ne_argumentError_of_mayRaise_rdrec {c : Cause} (h : c ∈ mayRaise .rdrec) :
    c.kind ≠ .argumentError := by
  revert c; decide

theorem wrrecBody_accepts {len : Word} {s : State} (h : len.toNat ≤ s.cfg.pbufCap) :
    (wrrecBody len s).Accepts := by
  have hends := wrrecBody_ends len s
  cases hbody : wrrecBody len s with
  | refuse => rw [hbody] at hends; exact absurd h (Nat.not_le.2 hends)
  | raised c => rw [hbody] at hends; rw [hends.1]; exact FaultKind.noConfusion
  | _ => trivial

theorem rdrecBody_accepts (s : State) : (rdrecBody s).Accepts := by
  unfold rdrecBody
  split
  · trivial
  · have hends := rdrecLoop_ends (rdrecBound s) s.openRecord [] rfl rfl
    cases hloop : rdrecLoop (rdrecBound s) s.openRecord with
    | refuse => rw [hloop] at hends; exact hends.elim
    | raised c => rw [hloop] at hends; exact kind_ne_argumentError_of_mayRaise_rdrec hends.1
    | _ => trivial

theorem splitNextBody_accepts (s : State) : (splitNextBody s).Accepts := by
  unfold splitNextBody
  split
  · split
    · exact readPayload_bind_accepts fun _ => trivial
    · trivial
  · trivial

/-- The length is judged first (R234). -/
theorem lrecEncBody_judges (cflag length : Word) (s : State) :
    Res.Judges (fitsFlag cflag && fitsLength length) (operandFault (.lrecEnc cflag length) s)
      (lrecEncBody cflag length s) := by
  rw [lrecEncBody, operandFault]
  by_cases hlen : fitsLength length = true
  · rw [if_pos hlen, hlen, Bool.and_true, if_pos ((fitsLength_iff _).1 hlen)]
    exact Res.judges_ite trivial
  · rw [if_neg hlen, if_neg (mt (fitsLength_iff _).2 hlen), Bool.eq_false_of_not_eq_true hlen,
      Bool.and_false]
    exact ⟨Bool.noConfusion, fun _ => rfl⟩

/-- R91's table is the checks the bodies make. -/
theorem bodyOf_judges (i : Instr) (s : State) :
    Res.Judges (i.wellFormed s.cfg) (operandFault i s) (bodyOf i s) := by
  cases i with
  | lrecEnc cflag length => exact lrecEncBody_judges cflag length s
  | lrecFlag | lrecLen | frmSize | mscanCmp | splitStart => exact Res.judges_ite trivial
  | mscanPush byte =>
    have hbyte : (Instr.mscanPush byte).wellFormed s.cfg = fitsByte byte :=
      decide_eq_decide.2 Nat.lt_succ_iff.symm
    rw [hbyte]
    refine Res.judges_ite ?_
    split
    · exact hitOffset_accepts _
    · trivial
  | mscanFind start len =>
    exact Res.judges_ite (readPayload_bind_accepts fun p => by split <;> trivial)
  | wrrec len =>
    exact ⟨fun h => wrrecBody_accepts ((fitsPbuf_iff _ _).1 h), fun h =>
      if_neg (ne_true_of_eq_false h)⟩
  | rdrec => exact (rdrecBody_accepts s).judges
  | splitNext => exact (splitNextBody_accepts s).judges
  | padCalc | mscanClr | cntGet | statGet => exact Res.Accepts.judges trivial

/-- Only an ArgumentError is answered as one, and no fault as a refusal (R89). -/
theorem FaultKind.status_ne {k : FaultKind} (h : k ≠ .argumentError) :
    k.status ≠ .refused ∧ k.status ≠ .argumentError := by
  cases k <;> simp_all [FaultKind.status]

/-- A reset during a call leaves no response; a fault's response is its kind's (R236). -/
theorem Res.Accepts.response {s t : State} {b : Res (Word × Word)} (hb : b.Accepts)
    (h : conclude s b = .next t) {r : Response} (hr : t.rsp = some r) :
    r.st ≠ .refused ∧ r.st ≠ .argumentError := by
  rcases conclude_next h with ⟨r0, r1, u, rfl, rfl⟩ | ⟨rfl, -⟩ | ⟨c, u, rfl, rfl⟩ | ⟨u, rfl, rfl⟩
  · cases hr; exact ⟨Status.noConfusion, Status.noConfusion⟩
  · exact hb.elim
  · cases hr
    exact FaultKind.status_ne hb
  · cases hr

/-- Settles O34: outside the ranges the body ends in its operand fault, inside them it accepts. -/
theorem operandRanges : Obligations.OperandRanges := by
  intro i s hf
  rw [exec_of_clean hf]
  refine ⟨fun hill => ⟨(Config.freeRbuf s.freeCtr).take s.cfg.rbufCap, ?_⟩,
    fun hwf t r h hr => ((bodyOf_judges i s).1 hwf).response h hr⟩
  rw [(bodyOf_judges i s).2 hill]
  cases i with
  | lrecEnc cflag length =>
    rw [operandFault, conclude_raised, State.raise_of_clean hf]
    by_cases hlen : length.toNat < 2 ^ 30
    · simp only [if_pos hlen]; rfl
    · simp only [if_neg hlen]; rfl
  | frmSize length => rw [operandFault, conclude_raised, State.raise_of_clean hf]; rfl
  | _ => rfl

/-! ### The host's directives -/

/-- The response that ends SPLIT.ALL (R96). -/
theorem State.lastSeen_iff {s : State} :
    s.lastSeen = true ↔ ∃ r, s.rsp = some r ∧ r.st = .ok ∧ r.r0.getLsbD 36 = true := by
  unfold State.lastSeen
  split <;> simp [*]

/-- Settles O53: a step takes the directive off the list and does the one update it stands for. -/
theorem hostDirectives : Obligations.HostDirectives := by
  intro s rest bytes supply len
  refine ⟨step_of_pending, step_of_pending, step_of_pending, step_of_pending, fun hin => ?_,
    State.lastSeen_iff⟩
  rw [step_of_pending hin]
  show Host.Outcome.next (if s.lastSeen then _ else _) = _
  split <;> rfl

end Sys2Proof.Machine
end

section
/-! PROOFS. The family 40_lrecord_codec: the codec's three functions are inverse to each other, and what
LREC.ENC, LREC.FLAG and LREC.LEN answer, as numbers. -/

namespace Sys2Proof.Machine

/-! ### The codec's functions -/

@[simp] theorem lrecFlagOf_lrecEncode (c : CFlag) (n : LenField) :
    lrecFlagOf (lrecEncode c n) = c := by
  apply BitVec.eq_of_toNat_eq
  have := LenField.toNat_lt n
  rw [lrecFlagOf_toNat, lrecEncode_toNat]
  omega

@[simp] theorem lrecLenOf_lrecEncode (c : CFlag) (n : LenField) :
    lrecLenOf (lrecEncode c n) = n := by
  apply BitVec.eq_of_toNat_eq
  have := LenField.toNat_lt n
  rw [lrecLenOf_toNat, lrecEncode_toNat]
  omega

@[simp] theorem lrecEncode_lrecOf (w : Word32) : lrecEncode (lrecFlagOf w) (lrecLenOf w) = w := by
  apply BitVec.eq_of_toNat_eq
  rw [lrecEncode_toNat, lrecFlagOf_toNat, lrecLenOf_toNat]
  omega

/-- Settles O13. -/
theorem lrecordCodecBijection : Obligations.LrecordCodecBijection :=
  ⟨fun c n => ⟨lrecEncode_toNat c n, lrecFlagOf_lrecEncode c n, lrecLenOf_lrecEncode c n⟩,
    lrecEncode_lrecOf⟩

/-! ### What the operations answer -/

/-- A field of a result, widened to the 64 bits of r0, is its number. -/
theorem setWidth_word_eq_ofNat {w n : Nat} {x : BitVec w} (h : x.toNat = n) :
    x.setWidth 64 = BitVec.ofNat 64 n := by
  rw [← h, BitVec.ofNat_toNat]

/-- An operand that fits a field goes into it unchanged. -/
theorem toNat_setWidth_of_lt {w : Nat} {a : Word} (h : a.toNat < 2 ^ w) :
    (a.setWidth w).toNat = a.toNat := by
  rw [BitVec.toNat_setWidth, Nat.mod_eq_of_lt h]

/-- R110: the length is judged first (R234). -/
theorem lrecEncBody_eq (cflag length : Word) (s : State) :
    lrecEncBody cflag length s =
      if 2 ^ 30 ≤ length.toNat then .raised .lenRange s
      else if 4 ≤ cflag.toNat then .raised .flagRange s
      else .ok (BitVec.ofNat 64 (cflag.toNat * 2 ^ 30 + length.toNat), 0) s := by
  by_cases hlen : length.toNat < 2 ^ 30
  case neg => rw [lrecEncBody, if_neg (mt (fitsLength_iff _).1 hlen), if_pos (not_lt.1 hlen)]
  rw [lrecEncBody, if_pos ((fitsLength_iff _).2 hlen), if_neg (not_le.2 hlen)]
  by_cases hflag : cflag.toNat < 4
  case neg => rw [if_neg (mt (fitsFlag_iff _).1 hflag), if_pos (not_lt.1 hflag)]
  rw [if_pos ((fitsFlag_iff _).2 hflag), if_neg (not_le.2 hflag)]
  have hword : (lrecEncode (cflag.setWidth flagBits) (length.setWidth lenBits)).toNat =
      cflag.toNat * 2 ^ 30 + length.toNat := by
    rw [lrecEncode_toNat, toNat_setWidth_of_lt hflag, toNat_setWidth_of_lt hlen]
  rw [setWidth_word_eq_ofNat hword]

/-- R111, R112: an operation that answers a field of its word operand refuses a wider one. -/
theorem conclude_wordField {w : Nat} {field : Word32 → BitVec w} {value : Nat → Nat}
    (hvalue : ∀ x, (field x).toNat = value x.toNat) (word : Word) (s : State) :
    conclude s (if fitsWord32 word then .ok ((field (word.setWidth wordBits)).setWidth 64, 0) s
      else .refuse) =
      if word.toNat < 2 ^ 32 then .next (s.respond .ok (BitVec.ofNat 64 (value word.toNat)) 0)
      else .next (s.respond .refused 0 0) := by
  by_cases hword : word.toNat < 2 ^ 32
  case neg => rw [if_neg (mt (fitsWord32_iff _).1 hword), if_neg hword, conclude_refuse]
  rw [if_pos ((fitsWord32_iff _).2 hword), if_pos hword, conclude_ok,
    setWidth_word_eq_ofNat (hvalue _), toNat_setWidth_of_lt hword]

/-- Settles O10: RBUF holds what the model draws for it at a fault (R238). -/
theorem lrecEncPacks : Obligations.LrecEncPacks := by
  intro s cflag length hf
  refine ⟨(Config.freeRbuf s.freeCtr).take s.cfg.rbufCap, ?_⟩
  rw [exec_of_clean hf, bodyOf, lrecEncBody_eq]
  split
  · rw [conclude_raised, State.raise_of_clean hf]; rfl
  split
  · rw [conclude_raised, State.raise_of_clean hf]; rfl
  · rfl

/-- Settles O11. -/
theorem lrecFlagExtracts : Obligations.LrecFlagExtracts := fun s word hf =>
  (exec_of_clean hf _).trans (conclude_wordField (value := (· / 2 ^ 30)) lrecFlagOf_toNat word s)

/-- Settles O12. -/
theorem lrecLenExtracts : Obligations.LrecLenExtracts := fun s word hf =>
  (exec_of_clean hf _).trans (conclude_wordField (value := (· % 2 ^ 30)) lrecLenOf_toNat word s)

end Sys2Proof.Machine
end

section
/-! PROOFS. The family 41_frame_aligner: the filler and the frame size as numbers, and what PAD.CALC and
FRM.SIZE answer. -/

namespace Sys2Proof.Machine

/-! ### The pure functions -/

theorem pad_eq (n : Nat) : pad n = (4 - n % 4) % 4 := rfl

theorem frameSize_eq (n : Nat) : frameSize n = 8 + n + (4 - n % 4) % 4 := rfl

theorem pad_le_three (n : Nat) : pad n ≤ 3 := by
  rw [pad_eq]; omega

theorem add_pad_mod_four (n : Nat) : (n + pad n) % 4 = 0 := by
  rw [pad_eq]; omega

theorem pad_le_of_add_mod_four {n k : Nat} (h : (n + k) % 4 = 0) : pad n ≤ k := by
  rw [pad_eq]; omega

/-- `8 + 4 * ceil(n / 4)` (R122). -/
theorem frameSize_eq_ceil (n : Nat) : frameSize n = 8 + 4 * ((n + 3) / 4) := by
  rw [frameSize_eq]; omega

/-- The filler is the negation of the two low bits (R122). -/
theorem ofNat_pad (n : Nat) : BitVec.ofNat 2 (pad n) = -BitVec.ofNat 2 n := by
  apply BitVec.eq_of_toNat_eq
  rw [BitVec.toNat_neg, BitVec.toNat_ofNat, BitVec.toNat_ofNat, pad_eq]
  omega

/-- Settles O16. -/
theorem padIsLeastFiller : Obligations.PadIsLeastFiller := by
  refine fun n => ⟨pad_le_three n, add_pad_mod_four n, fun _ => pad_le_of_add_mod_four, ?_,
    frameSize_eq_ceil n, (ofNat_pad n).trans (BitVec.neg_eq_not_add _)⟩
  rw [frameSize_eq_ceil]; omega

/-! ### What the operations answer -/

/-- Settles O14: PAD.CALC judges no operand (R120). -/
theorem padCalcAnswers : Obligations.PadCalcAnswers := by
  intro s length hf
  rw [exec_of_clean hf, bodyOf, padCalcBody, conclude_ok, pad_eq]

/-- Settles O15: RBUF holds what the model draws for it at a fault (R238). -/
theorem frmSizeAnswers : Obligations.FrmSizeAnswers := by
  intro s length hf
  refine ⟨(Config.freeRbuf s.freeCtr).take s.cfg.rbufCap, ?_⟩
  rw [exec_of_clean hf, bodyOf, frmSizeBody]
  by_cases hlen : length.toNat < 2 ^ 30
  · rw [if_pos ((fitsLength_iff _).2 hlen), if_pos hlen, conclude_ok, frameSize_eq, pad_eq]
  · rw [if_neg (mt (fitsLength_iff _).1 hlen), if_neg hlen, conclude_raised,
      State.raise_of_clean hf]
    rfl

end Sys2Proof.Machine
end

section
/-! PROOFS. The family 42_magic_scanner: the occurrences of a payload, and what MSCAN.CMP, MSCAN.CLR,
MSCAN.PUSH and MSCAN.FIND answer, one by one and over a whole payload. -/

namespace Sys2Proof.Machine

/-! ### Occurrences (R132, R133) -/

theorem occFrom_pairwise (o : ByteOrder) (p : List Byte) (i : Nat) :
    (occFrom o i p).Pairwise (· < ·) := by
  induction p generalizing i with
  | nil => exact List.Pairwise.nil
  | cons b p ih =>
    rw [occFrom]
    split
    · exact List.pairwise_cons.2 ⟨fun j hj => ((mem_occFrom o p _ j).1 hj).1, ih _⟩
    · exact ih _

theorem occ_pairwise (o : ByteOrder) (p : List Byte) : (occ o p).Pairwise (· < ·) :=
  occFrom_pairwise o p 0

/-- Settles O21. -/
theorem occListsEveryOccurrence : Obligations.OccListsEveryOccurrence := fun o p =>
  ⟨occ_pairwise o p, fun _ => mem_occ.trans ⟨fun h => ⟨h.length_le, h⟩, And.right⟩⟩

theorem MagicAt.getElem? {o : ByteOrder} {p : List Byte} {i k : Nat} (h : MagicAt o p i)
    (hk : k < 4) : p[i + k]? = (ser32 o magic)[k]? := by
  rw [← h, List.getElem?_take_of_lt hk, List.getElem?_drop]

/-- The four bytes of the pattern are pairwise different, so its first one stands at no other
place of it (R133). -/
theorem magic_first_ne (o : ByteOrder) {k : Nat} (h1 : 1 ≤ k) (h4 : k < 4) :
    (ser32 o magic)[k]? ≠ (ser32 o magic)[0]? := by
  interval_cases k <;> cases o <;> decide

theorem MagicAt.add_four_le {o : ByteOrder} {p : List Byte} {i j : Nat} (hi : MagicAt o p i)
    (hj : MagicAt o p j) (hij : i < j) : i + 4 ≤ j := by
  by_contra hclose
  obtain ⟨k, rfl⟩ := Nat.exists_eq_add_of_lt hij
  have hk : k + 1 < 4 := by omega
  exact magic_first_ne o (Nat.le_add_left 1 k) hk
    ((hi.getElem? hk).symm.trans (hj.getElem? (k := 0) (by decide)))

theorem occ_spaced (o : ByteOrder) (p : List Byte) :
    (occ o p).Pairwise (fun i j => i + 4 ≤ j) :=
  (occ_pairwise o p).imp_of_mem fun hi hj => (mem_occ.1 hi).add_four_le (mem_occ.1 hj)

/-- Offsets 4 apart in `a` to `n`, each with 4 bytes of its own. -/
theorem four_mul_length_le_of_spaced {l : List Nat} {a n : Nat}
    (hl : l.Pairwise (fun i j => i + 4 ≤ j)) (hrange : ∀ i ∈ l, a ≤ i ∧ i + 4 ≤ n) (han : a ≤ n) :
    a + 4 * l.length ≤ n := by
  induction l generalizing a with
  | nil => exact han
  | cons i l ih =>
    obtain ⟨hfirst, hrest⟩ := List.pairwise_cons.1 hl
    obtain ⟨hai, hin⟩ := hrange i List.mem_cons_self
    have := ih hrest (fun j hj => ⟨hfirst j hj, (hrange j (List.mem_cons_of_mem i hj)).2⟩) hin
    rw [List.length_cons]
    omega

/-- Settles O22. -/
theorem occurrencesNeverOverlap : Obligations.OccurrencesNeverOverlap := by
  refine fun o p => ⟨occ_spaced o p, ?_⟩
  have := four_mul_length_le_of_spaced (a := 0) (occ_spaced o p)
    (fun i hi => ⟨Nat.zero_le i, (mem_occ.1 hi).length_le⟩) (Nat.zero_le p.length)
  omega

/-! ### MSCAN.FIND (R138) -/

/-- In an increasing list the first element of a kind is the least. -/
theorem find?_eq_some_of_least {l : List Nat} {q : Nat → Bool} {i : Nat}
    (hl : l.Pairwise (· < ·)) (hi : i ∈ l) (hq : q i = true)
    (hleast : ∀ j ∈ l, q j = true → i ≤ j) : l.find? q = some i := by
  obtain ⟨as, bs, rfl⟩ := List.append_of_mem hi
  refine List.find?_eq_some_iff_append.2 ⟨hq, as, bs, rfl, fun j hj => ?_⟩
  have hji : j < i := (List.pairwise_append.1 hl).2.2 j hj i List.mem_cons_self
  have := mt (hleast j (List.mem_append_left _ hj)) (not_le.2 hji)
  simpa using this

theorem find?_occ_eq_some {o : ByteOrder} {p : List Byte} {q : Nat → Bool} {i : Nat}
    (hi : MagicAt o p i) (hq : q i = true) (hleast : ∀ j, q j = true → MagicAt o p j → i ≤ j) :
    (occ o p).find? q = some i :=
  find?_eq_some_of_least (occ_pairwise o p) (mem_occ.2 hi) hq
    fun j hj hqj => hleast j hqj (mem_occ.1 hj)

theorem find?_occ_eq_none {o : ByteOrder} {p : List Byte} {q : Nat → Bool}
    (h : ∀ j, q j = true → ¬ MagicAt o p j) : (occ o p).find? q = none :=
  List.find?_eq_none.2 fun j hj hqj => h j hqj (mem_occ.1 hj)

theorem mscanFindBody_eq {s : State} {start len : Word} {p : List Byte}
    (hcap : len.toNat ≤ s.cfg.pbufCap) (hstart : start.toNat ≤ len.toNat)
    (hlen : p.length = len.toNat) (hp : s.PayloadIs p) :
    mscanFindBody start len s =
      .ok (((occ s.cfg.byteOrder p).find? fun i => decide (start.toNat ≤ i)).elim (0, len)
        fun i => (1, BitVec.ofNat 64 i)) s := by
  rw [mscanFindBody, if_pos (by simp [hcap, hstart]), readPayload_eq hlen hp, Res.bind_ok]
  cases (occ s.cfg.byteOrder p).find? _ <;> rfl

theorem mscanFindBody_refuses {s : State} {start len : Word}
    (h : s.cfg.pbufCap < len.toNat ∨ len.toNat < start.toNat) :
    mscanFindBody start len s = .refuse := by
  rw [mscanFindBody, if_neg]
  rw [Bool.and_eq_true, fitsPbuf_iff, decide_eq_true_eq]
  omega

/-- Settles O20. -/
theorem mscanFindFirstOccurrence : Obligations.MscanFindFirstOccurrence := by
  intro s start len hf
  rw [exec_of_clean hf, bodyOf]
  refine ⟨fun hout => by rw [mscanFindBody_refuses hout, conclude_refuse],
    fun p hcap hstart hlen hp => ?_⟩
  rw [mscanFindBody_eq hcap hstart hlen hp]
  constructor
  · intro i hi hmagic hleast
    rw [find?_occ_eq_some hmagic (decide_eq_true hi) fun j hj => hleast j (of_decide_eq_true hj)]
    exact conclude_ok ..
  · intro hnone
    rw [find?_occ_eq_none fun j hj => hnone j (of_decide_eq_true hj)]
    exact conclude_ok ..

/-! ### MSCAN.CMP (R135) -/

theorem extractByte_eq_iff (w : Word) (k : Nat) (b : Byte) :
    w.extractLsb' k 8 = b ↔ w.toNat / 2 ^ k % 256 = b.toNat := by
  rw [← BitVec.toNat_inj, BitVec.extractLsb'_toNat, Nat.shiftRight_eq_div_pow]

/-- A lane's comparator on this hardware, against its byte of `0a 23 d7 3e` (R130). -/
theorem lane_little_iff (b : Byte) :
    (lane .little 0 b = true ↔ b = 0x0a#8) ∧ (lane .little 1 b = true ↔ b = 0x23#8) ∧
    (lane .little 2 b = true ↔ b = 0xd7#8) ∧ (lane .little 3 b = true ↔ b = 0x3e#8) :=
  ⟨beq_iff_eq, beq_iff_eq, beq_iff_eq, beq_iff_eq⟩

/-- `is_magic = (u32le(b0 b1 b2 b3) = MAGIC)` (R130). -/
theorem isMagic_little_iff {w : Word} (hw : w.toNat < 2 ^ 32) :
    isMagic .little (w.extractLsb' 0 8) (w.extractLsb' 8 8) (w.extractLsb' 16 8)
      (w.extractLsb' 24 8) = true ↔ w = 0x3ed7230a := by
  have hmagic : w = 0x3ed7230a ↔ w.toNat = 0x3ed7230a := BitVec.toNat_inj.symm
  simp only [isMagic, Bool.and_eq_true, lane_little_iff, extractByte_eq_iff, BitVec.toNat_ofNat,
    hmagic]
  omega

theorem setWidth_ofBool (e : Bool) :
    (BitVec.ofBool e).setWidth 64 = if e then (1 : Word) else 0 := by
  cases e <;> rfl

theorem laneMask_eq (e0 e1 e2 e3 : Bool) :
    (BitVec.ofBool e3 ++ BitVec.ofBool e2 ++ BitVec.ofBool e1 ++ BitVec.ofBool e0).setWidth 64 =
      (if e0 then (1 : Word) else 0) + (if e1 then 2 else 0) + (if e2 then 4 else 0)
        + (if e3 then 8 else 0) := by
  revert e0 e1 e2 e3; decide

/-- Settles O17. -/
theorem mscanCmpMatchesLanes : Obligations.MscanCmpMatchesLanes := by
  intro s word hf horder
  rw [exec_of_clean hf, bodyOf, mscanCmpBody, horder]
  by_cases hword : word.toNat < 2 ^ 32
  case neg => rw [if_neg (mt (fitsWord32_iff _).1 hword), if_neg hword, conclude_refuse]
  rw [if_pos ((fitsWord32_iff _).2 hword), if_pos hword]
  have hhit := isMagic_little_iff hword
  rw [isMagic] at hhit
  simp only [conclude_ok, setWidth_ofBool, laneMask_eq, hhit, lane_little_iff]

/-! ### MSCAN.CLR and MSCAN.PUSH (R136, R137) -/

theorem exec_mscanClr {s : State} (hf : s.fault = .none) :
    exec .mscanClr s = .next (s.clearWindow.respond .ok 0 0) := exec_of_clean hf _

/-- Settles O18. -/
theorem mscanClrEmptiesWindow : Obligations.MscanClrEmptiesWindow := fun _ hf => exec_mscanClr hf

theorem pushHits_iff {s : State} {b : Byte} :
    s.pushHits b = true ↔
      s.wcnt = 3 ∧ [s.win0, s.win1, s.win2, b] = ser32 s.cfg.byteOrder magic := by
  rw [State.pushHits, Bool.and_eq_true, decide_eq_true_eq]
  exact and_congr_right fun _ => startsMagic_iff _ [s.win0, s.win1, s.win2, b]

/-- WCNT saturates at 3. -/
theorem pushWindow_wcnt_eq (s : State) (b : Byte) :
    (s.pushWindow b).wcnt = BitVec.ofNat 2 (min 3 (s.wcnt.toNat + 1)) := by
  rw [State.pushWindow_wcnt]
  generalize s.wcnt = w
  revert w; decide

theorem mscanPushBody_of_byte {byte : Word} (h : byte.toNat < 256) (s : State) :
    mscanPushBody byte s =
      if s.pushHits (byte.setWidth 8) then hitOffset (s.pushWindow (byte.setWidth 8))
      else .ok (0, 0) (s.pushWindow (byte.setWidth 8)) :=
  if_pos ((fitsByte_iff _).2 h)

theorem hitOffset_of_le {t : State} (h : 4 ≤ t.spos.toNat) : hitOffset t = .ok (1, t.spos - 4) t :=
  if_pos h

theorem hitOffset_of_lt {t : State} (h : t.spos.toNat < 4) :
    hitOffset t = .ok (1, Config.freeOffset t.freeCtr) t.drawFree :=
  if_neg (not_le.2 h)

/-- The state MSCAN.PUSH leaves, with its fields in numbers. -/
theorem pushWindow_eq (s : State) (b : Byte) :
    s.pushWindow b =
      { s with
        win0 := s.win1, win1 := s.win2, win2 := b
        wcnt := BitVec.ofNat 2 (min 3 (s.wcnt.toNat + 1))
        spos := wrapTo s.cfg.lw (s.spos.toNat + 1) } := by
  rw [← pushWindow_wcnt_eq s b]; rfl

/-- Settles O19: the offset of a hit is a free value where SPOS is below 4. -/
theorem mscanPushShiftsWindow : Obligations.MscanPushShiftsWindow := by
  intro s byte hf
  rw [exec_of_clean hf, bodyOf]
  refine ⟨fun hwide => ?_, fun hbyte spos hit hspos hhit => ?_⟩
  · rw [mscanPushBody, if_neg (mt (fitsByte_iff _).1 (not_lt.2 hwide)), conclude_refuse]
  rw [BitVec.ofNat_toNat, ← pushHits_iff, ← Bool.eq_iff_iff] at hhit
  subst hhit hspos
  rw [BitVec.ofNat_toNat, mscanPushBody_of_byte hbyte]
  cases s.pushHits (byte.setWidth 8) with
  | false => exact ⟨_, fun _ => rfl, by simp [pushWindow_eq, wrapTo]⟩
  | true =>
    rw [if_pos rfl]
    rcases lt_or_ge (wrapTo s.cfg.lw (s.spos.toNat + 1)).toNat 4 with hlow | hhigh
    · refine ⟨Config.freeOffset s.freeCtr, fun h => absurd hlow (not_lt.2 h), ?_⟩
      rw [hitOffset_of_lt hlow, pushWindow_eq, if_pos ⟨rfl, hlow⟩]
      rfl
    · refine ⟨_, fun _ => rfl, ?_⟩
      rw [hitOffset_of_le hhigh, pushWindow_eq, if_neg fun h => not_lt.2 hhigh h.2]
      rfl

/-! ### The streaming scan (R139) -/

/-- The scanner has been cleared and has then taken in the bytes `pre`: WCNT and SPOS count them, and
the window's newest bytes are the last of them. -/
structure State.Scanned (s : State) (pre : List Byte) : Prop where
  clean : s.fault = .none
  wcnt : s.wcnt.toNat = min 3 pre.length
  spos : s.spos.toNat = pre.length
  window : pre.reverse.take 3 = [s.win2, s.win1, s.win0].take pre.length

theorem State.Scanned.of_clearWindow {s : State} (hf : s.fault = .none) :
    s.clearWindow.Scanned [] :=
  ⟨hf, rfl, rfl, rfl⟩

theorem State.Scanned.respond {s : State} {pre : List Byte} (h : s.Scanned pre) (st : Status)
    (r0 r1 : Word) : (s.respond st r0 r1).Scanned pre :=
  ⟨h.clean, h.wcnt, h.spos, h.window⟩

theorem State.Scanned.pushWindow {s : State} {pre : List Byte} (h : s.Scanned pre) (b : Byte)
    (hlw : s.cfg.lw ≤ 64) (hlen : pre.length + 1 ≤ s.cfg.lwMax) :
    (s.pushWindow b).Scanned (pre ++ [b]) := by
  refine ⟨h.clean, ?_, ?_, ?_⟩
  · have hmin : min 3 (min 3 pre.length + 1) < 2 ^ 2 := by omega
    rw [pushWindow_wcnt_eq, h.wcnt, BitVec.toNat_ofNat, Nat.mod_eq_of_lt hmin, List.length_append,
      List.length_singleton]
    omega
  · have hwrap : pre.length + 1 < 2 ^ s.cfg.lw := by rw [Config.lwMax] at hlen; omega
    rw [State.pushWindow_spos, wrapTo_toNat hlw, h.spos, Nat.mod_eq_of_lt hwrap, List.length_append,
      List.length_singleton]
  · have hlast : pre.reverse.take 2 = [s.win2, s.win1].take pre.length := by
      have htwo := congrArg (List.take 2) h.window
      rwa [List.take_take, List.take_take, min_comm _ pre.length,
        ← List.take_take (i := pre.length)] at htwo
    rw [List.reverse_append, List.length_append]
    exact congrArg (b :: ·) hlast

/-- The window is full from the third byte on, and then holds the last three bytes. -/
theorem State.Scanned.pushHits_iff {s : State} {pre : List Byte} (h : s.Scanned pre) (b : Byte)
    (post : List Byte) :
    s.pushHits b = true ↔
      3 ≤ pre.length ∧ MagicAt s.cfg.byteOrder (pre ++ b :: post) (pre.length - 3) := by
  have hfull : s.wcnt = 3 ↔ 3 ≤ pre.length := by
    rw [← BitVec.toNat_inj, h.wcnt]
    exact min_eq_left_iff
  rw [Machine.pushHits_iff, hfull]
  refine and_congr_right fun hlen => ?_
  have hwindow : pre.drop (pre.length - 3) = [s.win0, s.win1, s.win2] := by
    have hlast : [s.win2, s.win1, s.win0].take pre.length = [s.win2, s.win1, s.win0] :=
      List.take_of_length_le hlen
    have hrev := congrArg List.reverse (h.window.trans hlast)
    rwa [List.reverse_take, List.reverse_reverse, List.length_reverse] at hrev
  rw [MagicAt, List.drop_append_of_le_length (Nat.sub_le _ _), hwindow]
  rfl

/-- R137 for an operand that is one byte. -/
theorem exec_mscanPush {s : State} (hf : s.fault = .none) (b : Byte) :
    exec (.mscanPush (b.setWidth 64)) s = conclude s
      (if s.pushHits b then hitOffset (s.pushWindow b) else .ok (0, 0) (s.pushWindow b)) := by
  have hbyte : (b.setWidth 64).toNat < 256 := by
    rw [BitVec.toNat_setWidth_of_le (by decide)]
    exact b.isLt
  rw [exec_of_clean hf, bodyOf, mscanPushBody_of_byte hbyte,
    BitVec.setWidth_setWidth_of_le b (by decide), BitVec.setWidth_eq]

/-- What the push of byte `k` of `p` answers (R139). -/
def pushAnswer (o : ByteOrder) (p : List Byte) (k : Nat) : Option Response :=
  if 3 ≤ k ∧ MagicAt o p (k - 3) then
    some { st := .ok, r1 := BitVec.ofNat 64 (k - 3), r0 := 1 }
  else some { st := .ok, r1 := 0, r0 := 0 }

theorem State.Scanned.exec_push {s : State} {pre : List Byte} (h : s.Scanned pre) (b : Byte)
    (post : List Byte) (hlw : s.cfg.lw ≤ 64) (hlen : pre.length + 1 ≤ s.cfg.lwMax) :
    ∃ t, exec (.mscanPush (b.setWidth 64)) s = .next t ∧ t.Scanned (pre ++ [b]) ∧
      t.cfg = s.cfg ∧ t.rsp = pushAnswer s.cfg.byteOrder (pre ++ b :: post) pre.length := by
  have hnext := h.pushWindow b hlw hlen
  rw [exec_mscanPush h.clean, pushAnswer]
  by_cases hhit : s.pushHits b = true
  · have hspos : (s.pushWindow b).spos.toNat = pre.length + 1 := by simpa using hnext.spos
    have hstands := (h.pushHits_iff b post).1 hhit
    have hthree := hstands.1
    have hoffset : (s.pushWindow b).spos - 4 = BitVec.ofNat 64 (pre.length - 3) := by
      bv_omega
    rw [if_pos hhit, if_pos hstands, hitOffset_of_le (by omega), hoffset]
    exact ⟨_, rfl, hnext.respond .ok _ _, rfl, rfl⟩
  · rw [if_neg hhit, if_neg (mt (h.pushHits_iff b post).2 hhit)]
    exact ⟨_, rfl, hnext.respond .ok 0 0, rfl, rfl⟩

/-- A run goes on from the state its first operation leaves. -/
theorem runAll_cons {i : Instr} {is : List Instr} {s t u : State} {rs : List (Option Response)}
    (h : exec i s = .next t) (hrest : runAll is t = some (rs, u)) :
    runAll (i :: is) s = some (t.rsp :: rs, u) := by
  simp [runAll, h, hrest]

/-- The pushes of the bytes after `pre` answer in turn, from byte `pre.length` on. -/
theorem State.Scanned.runAll_push {s : State} {pre : List Byte} (post : List Byte)
    (h : s.Scanned pre) (hlw : s.cfg.lw ≤ 64) (hlen : (pre ++ post).length ≤ s.cfg.lwMax) :
    ∃ t, runAll (post.map fun b => .mscanPush (b.setWidth 64)) s =
      some ((List.range' pre.length post.length).map
        (pushAnswer s.cfg.byteOrder (pre ++ post)), t) := by
  induction post generalizing s pre with
  | nil => exact ⟨s, rfl⟩
  | cons b post ih =>
    obtain ⟨t, hexec, ht, hcfg, hrsp⟩ :=
      h.exec_push b post hlw (by rw [List.length_append, List.length_cons] at hlen; omega)
    obtain ⟨u, hu⟩ := ih ht (hcfg ▸ hlw) (by rw [hcfg, List.append_assoc]; exact hlen)
    rw [hcfg, List.append_assoc, List.length_append] at hu
    rw [List.length_cons, List.range'_succ, List.map_cons, List.map_cons, ← hrsp]
    exact ⟨u, runAll_cons hexec hu⟩

/-- Settles O23. -/
theorem streamingScanAgreesWithOcc : Obligations.StreamingScanAgreesWithOcc := by
  intro s p hf hlw hlen
  obtain ⟨t, ht⟩ := ((State.Scanned.of_clearWindow hf).respond .ok 0 0).runAll_push p hlw hlen
  rw [List.range_eq_range']
  exact ⟨t, runAll_cons (exec_mscanClr hf) ht⟩

end Sys2Proof.Machine
end

section
/-! PROOFS. The family 43_frame_splitter: the chunks of a payload as one walk over it, where they stand
and what their flags are, and the iteration of SPLIT.START and SPLIT.NEXT that delivers them. -/

namespace Sys2Proof.Machine

/-! ### SPLIT.START (R158) -/

/-- Settles O24. -/
theorem splitStartOpens : Obligations.SplitStartOpens := by
  intro s len hf
  rw [exec_of_clean hf, bodyOf, splitStartBody]
  by_cases hlen : len.toNat ≤ s.cfg.pbufCap
  · rw [if_pos ((fitsPbuf_iff _ _).2 hlen), if_pos hlen]; rfl
  · rw [if_neg (mt (fitsPbuf_iff _ _).1 hlen), if_neg hlen]; rfl

/-! ### The chunks as a walk over the payload (R150 to R153) -/

/-- `cs` are chunks of `P[cur .. len)` that are cut as R159 cuts: at the occurrences `is` that are left,
and after `limit` bytes where the next cut is further away. `first` says whether the first of them
starts the record (R154). -/
inductive ChunksFrom (limit len : Nat) : Bool → Nat → List Nat → List Chunk → Prop where
  /-- the last chunk -/
  | last {first : Bool} {cur n : Nat} (hend : cur + n = len) (hn : n ≤ limit) :
      ChunksFrom limit len first cur [] [⟨cur, n, cflagOf first true⟩]
  /-- a chunk that ends at an occurrence, which lies inside the payload and 4 before the next -/
  | cut {first : Bool} {cur n : Nat} {is : List Nat} {cs : List Chunk} (hn : n ≤ limit)
      (hnext : cur + n + 4 ≤ is.headD len) (h : ChunksFrom limit len false (cur + n) is cs) :
      ChunksFrom limit len first cur ((cur + n) :: is) (⟨cur, n, cflagOf first false⟩ :: cs)
  /-- a chunk of `limit` bytes of a longer span -/
  | full {first : Bool} {cur : Nat} {is : List Nat} {cs : List Chunk}
      (hnext : cur + limit < is.headD len) (h : ChunksFrom limit len false (cur + limit) is cs) :
      ChunksFrom limit len first cur is (⟨cur, limit, cflagOf first false⟩ :: cs)

/-- Induction over R152's recursion: a piece that reaches the span's end, or a full one before more. -/
theorem pieces_induction {limit e : Nat} (hlimit : 1 ≤ limit)
    {motive : Nat → List (Nat × Nat) → Prop}
    (short : ∀ b n, b + n = e → n ≤ limit → motive b [(b, n)])
    (long : ∀ b l, b + limit < e → motive (b + limit) l → motive b ((b, limit) :: l))
    {b : Nat} (hb : b ≤ e) : motive b (pieces limit b e) := by
  induction hd : e - b using Nat.strong_induction_on generalizing b with
  | _ d ih =>
    rw [pieces_eq hlimit]
    by_cases hshort : e - b ≤ limit
    · rw [if_pos hshort]
      exact short b _ (by omega) hshort
    · rw [if_neg hshort]
      exact long b _ (by omega) (ih _ (by omega) (by omega) rfl)

section Walk

variable {limit len : Nat}

theorem ChunksFrom.ne_nil {first : Bool} {cur : Nat} {is : List Nat} {cs : List Chunk}
    (h : ChunksFrom limit len first cur is cs) : cs ≠ [] := by
  cases h <;> exact List.cons_ne_nil _ _

/-- Flags before more chunks (R154). -/
theorem withFlags_cons_of_ne_nil {f : Bool} {l : List (Nat × Nat)} (x : Nat × Nat)
    (hl : withFlags false l ≠ []) :
    withFlags f (x :: l) = ⟨x.1, x.2, cflagOf f false⟩ :: withFlags false l := by
  cases l with
  | nil => exact absurd rfl hl
  | cons y l => rfl

/-- The pieces of the last span. -/
theorem chunksFrom_pieces (hlimit : 1 ≤ limit) {cur : Nat} (hcur : cur ≤ len) (first : Bool) :
    ChunksFrom limit len first cur [] (withFlags first (pieces limit cur len)) := by
  refine pieces_induction hlimit (motive := fun b l =>
    ∀ first, ChunksFrom limit len first b [] (withFlags first l)) ?_ ?_ hcur first
  · exact fun b n hend hn _ => .last hend hn
  · intro b l hb hrest first
    rw [withFlags_cons_of_ne_nil _ (hrest false).ne_nil]
    exact .full hb (hrest false)

/-- The pieces of a span that ends at an occurrence, before the chunks from there. -/
theorem ChunksFrom.pieces_append (hlimit : 1 ≤ limit) {cur i : Nat} {is : List Nat}
    {l : List (Nat × Nat)} (h : ChunksFrom limit len false i is (withFlags false l))
    (hcur : cur ≤ i) (hnext : i + 4 ≤ is.headD len) (first : Bool) :
    ChunksFrom limit len first cur (i :: is) (withFlags first (pieces limit cur i ++ l)) := by
  refine pieces_induction hlimit (motive := fun b k =>
    ∀ first, ChunksFrom limit len first b (i :: is) (withFlags first (k ++ l))) ?_ ?_ hcur first
  · rintro b n rfl hn first
    rw [List.singleton_append, withFlags_cons_of_ne_nil _ h.ne_nil]
    exact .cut hn hnext h
  · intro b k hb hrest first
    rw [List.cons_append, withFlags_cons_of_ne_nil _ (hrest false).ne_nil]
    exact .full hb (hrest false)

/-- The pieces of the spans (R153) are the walk from the first span's start. -/
theorem chunksFrom_spans (hlimit : 1 ≤ limit) {is : List Nat} {cur : Nat}
    (hspaced : is.Pairwise (fun i j => i + 4 ≤ j)) (hin : ∀ i ∈ is, cur ≤ i ∧ i + 4 ≤ len)
    (hcur : cur ≤ len) (first : Bool) :
    ChunksFrom limit len first cur is
      (withFlags first ((spans cur is len).flatMap fun x => pieces limit x.1 x.2)) := by
  induction is generalizing cur first with
  | nil =>
    rw [spans, List.flatMap_singleton]
    exact chunksFrom_pieces hlimit hcur first
  | cons i is ih =>
    obtain ⟨hfirst, hrest⟩ := List.pairwise_cons.1 hspaced
    obtain ⟨hi, hil⟩ := hin i List.mem_cons_self
    have hlater : ∀ j ∈ is, i + 4 ≤ j ∧ j + 4 ≤ len := fun j hj =>
      ⟨hfirst j hj, (hin j (List.mem_cons_of_mem i hj)).2⟩
    have hnext : i + 4 ≤ is.headD len := by
      cases is with
      | nil => exact hil
      | cons j is => exact hfirst j List.mem_cons_self
    rw [spans, List.flatMap_cons]
    exact (ih hrest (fun j hj => ⟨by have := hlater j hj; omega, (hlater j hj).2⟩)
      (by omega) false).pieces_append hlimit hi hnext first

end Walk

/-- `split(P)` is the walk over the whole payload that cuts at every occurrence (R133, R153). -/
theorem chunksFrom_split {c : Config} (p : List Byte) (hc : c.ChunkLimitOk) :
    ChunksFrom c.chunkLimit p.length true 0 (occ c.byteOrder p) (split c p) :=
  chunksFrom_spans hc.1 (occ_spaced _ p)
    (fun i hi => ⟨Nat.zero_le i, (mem_occ.1 hi).length_le⟩) (Nat.zero_le _) true

/-! ### Flags (R154) -/

theorem withFlags_false_closesRecord (x : Nat × Nat) (l : List (Nat × Nat)) :
    closesRecord ((withFlags false (x :: l)).map (·.cflag)) = true := by
  induction l generalizing x with
  | nil => rfl
  | cons y l ih => simpa [withFlags_cons, closesRecord, cflagOf] using ih y

theorem withFlags_true_legalRecord {l : List (Nat × Nat)} (hl : l ≠ []) :
    legalRecord ((withFlags true l).map (·.cflag)) = true := by
  cases l with
  | nil => exact absurd rfl hl
  | cons x l =>
    cases l with
    | nil => rfl
    | cons y l =>
      simpa [withFlags_cons, legalRecord, cflagOf] using withFlags_false_closesRecord y l

theorem pieces_ne_nil (limit b e : Nat) : pieces limit b e ≠ [] := by
  unfold pieces
  cases (e - b) / limit with
  | zero => exact List.cons_ne_nil _ _
  | succ n => rw [piecesUpTo]; split <;> exact List.cons_ne_nil _ _

/-- Every span has a piece, and there is a span (R151, R152). -/
theorem spans_pieces_ne_nil (limit start : Nat) (is : List Nat) (len : Nat) :
    (spans start is len).flatMap (fun x => pieces limit x.1 x.2) ≠ [] := by
  cases is <;> simp [spans, pieces_ne_nil]

/-- Settles O27. -/
theorem splitFlagsSpellOneRecord : Obligations.SplitFlagsSpellOneRecord :=
  ⟨fun _ _ => withFlags_true_legalRecord (spans_pieces_ne_nil _ _ _ _), by decide⟩

/-! ### The partition (R150, R152, R153) -/

/-- The chunks stand end to end from `a` to `b`. -/
def Covers : Nat → Nat → List Chunk → Prop
  | a, b, [] => a = b
  | a, b, x :: cs => x.off = a ∧ Covers (a + x.len) b cs

namespace Covers

variable {a b : Nat} {x : Chunk} {cs : List Chunk}

theorem isChain (h : Covers a b cs) : cs.IsChain (fun x y => y.off = x.off + x.len) := by
  induction cs generalizing a with
  | nil => exact .nil
  | cons x cs ih =>
    obtain ⟨rfl, hrest⟩ := h
    refine List.IsChain.cons (ih hrest) fun y hy => ?_
    obtain ⟨ds, rfl⟩ := List.head?_eq_some_iff.1 hy
    exact hrest.1

theorem getLast?_end (h : Covers a b cs) (hcs : cs ≠ []) :
    cs.getLast?.map (fun x => x.off + x.len) = some b := by
  induction cs generalizing a with
  | nil => exact absurd rfl hcs
  | cons x cs ih =>
    obtain ⟨rfl, hrest⟩ := h
    cases cs with
    | nil => exact congrArg some hrest
    | cons y cs => exact ih hrest (List.cons_ne_nil _ _)

theorem flatMap_slice {p : List Byte} (h : Covers a p.length cs) :
    cs.flatMap (fun x => x.slice p) = p.drop a := by
  induction cs generalizing a with
  | nil => rw [show a = p.length from h, List.drop_length]; rfl
  | cons x cs ih =>
    obtain ⟨rfl, hrest⟩ := h
    rw [List.flatMap_cons, ih hrest, Chunk.slice, ← List.drop_drop, List.take_append_drop]

end Covers

theorem headD_mem_spans (start : Nat) (is : List Nat) (len : Nat) :
    (start, is.headD len) ∈ spans start is len := by
  cases is <;> exact List.mem_cons_self

namespace ChunksFrom

variable {limit len : Nat} {first : Bool} {cur : Nat} {is : List Nat} {cs : List Chunk}

theorem covers (h : ChunksFrom limit len first cur is cs) : Covers cur len cs := by
  induction h with
  | last hend => exact ⟨rfl, hend⟩
  | cut _ _ _ ih | full _ _ ih => exact ⟨rfl, ih⟩

theorem head?_off (h : ChunksFrom limit len first cur is cs) :
    cs.head?.map (·.off) = some cur := by
  cases h <;> rfl

theorem len_le (h : ChunksFrom limit len first cur is cs) : ∀ x ∈ cs, x.len ≤ limit := by
  induction h with
  | last _ hn => exact List.forall_mem_singleton.2 hn
  | cut hn _ _ ih => exact List.forall_mem_cons.2 ⟨hn, ih⟩
  | full _ _ ih => exact List.forall_mem_cons.2 ⟨le_rfl, ih⟩

/-- From a cursor before the next cut no chunk is empty. -/
theorem len_pos (h : ChunksFrom limit len first cur is cs) (hlimit : 1 ≤ limit)
    (hcur : cur < is.headD len) : ∀ x ∈ cs, 0 < x.len := by
  induction h with
  | @last _ cur n hend =>
    have hn : 0 < n := by rw [List.headD_nil] at hcur; omega
    exact List.forall_mem_singleton.2 hn
  | @cut _ cur n _ _ _ hnext _ ih =>
    have hn : 0 < n := by rw [List.headD_cons] at hcur; omega
    exact List.forall_mem_cons.2 ⟨hn, ih (by omega)⟩
  | full hnext _ ih => exact List.forall_mem_cons.2 ⟨hlimit, ih hnext⟩

theorem tail_len_pos (h : ChunksFrom limit len first cur is cs) (hlimit : 1 ≤ limit) :
    ∀ x ∈ cs.tail, 0 < x.len := by
  cases h with
  | last => exact List.forall_mem_nil _
  | cut _ hnext h => exact h.len_pos hlimit (by omega)
  | full hnext h => exact h.len_pos hlimit hnext

theorem lt_length (h : ChunksFrom limit len first cur is cs) : is.length < cs.length := by
  induction h with
  | last => exact Nat.one_pos
  | cut _ _ _ ih => exact Nat.succ_lt_succ ih
  | full _ _ ih => exact Nat.lt_succ_of_lt ih

/-- One chunk for each span exactly when no span is longer than the limit. -/
theorem length_eq_iff (h : ChunksFrom limit len first cur is cs) :
    cs.length = is.length + 1 ↔ ∀ x ∈ spans cur is len, x.2 - x.1 ≤ limit := by
  induction h with
  | @last _ cur n hend hn =>
    refine iff_of_true rfl (List.forall_mem_singleton.2 ?_)
    show len - cur ≤ limit
    omega
  | @cut _ cur n is cs hn _ _ ih =>
    rw [spans, List.forall_mem_cons, ← ih, List.length_cons, List.length_cons, Nat.succ_inj]
    exact (and_iff_right (show cur + n - cur ≤ limit by omega)).symm
  | @full _ cur is cs hnext h _ =>
    have hlong : ¬ is.headD len - cur ≤ limit := by omega
    refine iff_of_false ?_ fun hspans => hlong (hspans _ (headD_mem_spans cur is len))
    have := h.lt_length
    rw [List.length_cons]
    omega

end ChunksFrom

/-- Settles O26. -/
theorem splitPartitionsPayload : Obligations.SplitPartitionsPayload := by
  intro c p hc
  have hwalk := chunksFrom_split p hc
  have hcovers := hwalk.covers
  exact ⟨hcovers.flatMap_slice, hwalk.head?_off, hcovers.isChain,
    hcovers.getLast?_end hwalk.ne_nil, hwalk.len_le, hwalk.tail_len_pos hc.1, hwalk.lt_length,
    hwalk.length_eq_iff⟩

/-! ### The pattern in a chunk (R156) -/

theorem magicAt_slice (o : ByteOrder) (x : Chunk) (p : List Byte) (d : Nat) :
    MagicAt o (x.slice p) d ↔ d + 4 ≤ x.len ∧ MagicAt o p (x.off + d) := by
  have hslice : d + 4 ≤ x.len → (MagicAt o (x.slice p) d ↔ MagicAt o p (x.off + d)) := by
    intro hd
    rw [MagicAt, Chunk.slice, List.drop_take, List.take_take, List.drop_drop,
      Nat.min_eq_left (by omega)]
  constructor
  · intro h
    have hd : d + 4 ≤ x.len := h.length_le.trans (List.length_take_le _ _)
    exact ⟨hd, (hslice hd).1 h⟩
  · exact fun h => (hslice h.1).2 h.2

namespace ChunksFrom

variable {limit len : Nat} {first : Bool} {cur : Nat} {is : List Nat} {cs : List Chunk}

theorem headD_le (h : ChunksFrom limit len first cur is cs) : ∀ i ∈ is, is.headD len ≤ i := by
  induction h with
  | last => exact List.forall_mem_nil _
  | cut _ hnext _ ih =>
    exact List.forall_mem_cons.2 ⟨le_rfl, fun i hi => by
      have := ih i hi
      rw [List.headD_cons]
      omega⟩
  | full _ _ ih => exact ih

theorem headD_le_len (h : ChunksFrom limit len first cur is cs) : is.headD len ≤ len := by
  induction h with
  | last => exact le_rfl
  | cut _ hnext _ ih => rw [List.headD_cons]; omega
  | full _ _ ih => exact ih

theorem le_off (h : ChunksFrom limit len first cur is cs) : ∀ x ∈ cs, cur ≤ x.off := by
  induction h with
  | last => exact List.forall_mem_singleton.2 le_rfl
  | cut _ _ _ ih | full _ _ ih =>
    exact List.forall_mem_cons.2 ⟨le_rfl, fun x hx => (Nat.le_add_right _ _).trans (ih x hx)⟩

/-- No occurrence begins inside a chunk. -/
theorem end_le (h : ChunksFrom limit len first cur is cs) :
    ∀ x ∈ cs, ∀ i ∈ is, x.off < i → x.off + x.len ≤ i := by
  induction h with
  | last => exact fun _ _ => List.forall_mem_nil _
  | cut _ hnext h ih =>
    refine List.forall_mem_cons.2 ⟨List.forall_mem_cons.2 ⟨fun _ => le_rfl, fun i hi _ => ?_⟩,
      fun x hx => List.forall_mem_cons.2 ⟨fun hlt => ?_, ih x hx⟩⟩
    · exact (Nat.le_add_right _ 4).trans (hnext.trans (h.headD_le i hi))
    · exact absurd (h.le_off x hx) (by omega)
  | full hnext h ih =>
    exact List.forall_mem_cons.2 ⟨fun i hi _ => hnext.le.trans (h.headD_le i hi), ih⟩

/-- The chunk that starts at an occurrence has the pattern's four bytes, and is not the record's
first. -/
theorem exists_start (h : ChunksFrom limit len false cur is cs) (hlimit : 4 ≤ limit)
    (hcur : cur + 4 ≤ is.headD len) :
    ∃ x ∈ cs, x.off = cur ∧ 4 ≤ x.len ∧ (x.cflag = 2 ∨ x.cflag = 3) := by
  cases h with
  | @last _ _ n hend =>
    have hn : 4 ≤ n := by rw [List.headD_nil] at hcur; omega
    exact ⟨_, List.mem_cons_self, rfl, hn, .inr rfl⟩
  | @cut _ _ n =>
    have hn : 4 ≤ n := by rw [List.headD_cons] at hcur; omega
    exact ⟨_, List.mem_cons_self, rfl, hn, .inl rfl⟩
  | full => exact ⟨_, List.mem_cons_self, rfl, hlimit, .inl rfl⟩

theorem exists_at_cut (h : ChunksFrom limit len first cur is cs) (hlimit : 4 ≤ limit) :
    ∀ i ∈ is, ∃ x ∈ cs, x.off = i ∧ 4 ≤ x.len ∧ (x.cflag = 2 ∨ x.cflag = 3) := by
  induction h with
  | last => exact List.forall_mem_nil _
  | cut _ hnext h ih =>
    exact List.forall_mem_cons.2 ⟨(h.exists_start hlimit hnext).imp fun _ =>
      And.imp_left (List.mem_cons_of_mem _), fun i hi => (ih i hi).imp fun _ =>
      And.imp_left (List.mem_cons_of_mem _)⟩
  | full _ _ ih =>
    exact fun i hi => (ih i hi).imp fun _ => And.imp_left (List.mem_cons_of_mem _)

end ChunksFrom

/-- Settles O28. -/
theorem patternOnlyAtChunkStart : Obligations.PatternOnlyAtChunkStart := by
  intro c p hc
  have hwalk := chunksFrom_split p hc
  refine ⟨fun x hx d => ?_, hwalk.exists_at_cut⟩
  rw [magicAt_slice, ← mem_occ]
  constructor
  · rintro ⟨hlen, hocc⟩
    have hd : d = 0 := by
      by_contra hne
      have := hwalk.end_le x hx _ hocc (by omega)
      omega
    subst hd
    exact ⟨rfl, hocc, by omega⟩
  · rintro ⟨rfl, hocc, hlen⟩
    exact ⟨by omega, hocc⟩

/-! ### SPLIT.NEXT (R159) -/

theorem descriptor_eq (last atOcc : Bool) (flag : CFlag) {n : Nat} (hn : n ≤ lenMax) :
    descriptor last atOcc flag n =
      BitVec.ofNat 64 (flag.toNat * 2 ^ 30 + n + 2 ^ 32 * pad n + 2 ^ 34
        + (if atOcc then 2 ^ 35 else 0) + (if last then 2 ^ 36 else 0)) := by
  have hflag := CFlag.toNat_lt flag
  have hpad := pad_le_three n
  rw [lenMax_eq] at hn
  apply BitVec.eq_of_toNat_eq
  have hfields : (BitVec.ofBool last ++ BitVec.ofBool atOcc ++ 1#1 ++ BitVec.ofNat 2 (pad n)
      ++ lrecEncode flag (BitVec.ofNat lenBits n)).toNat =
      (((last.toNat * 2 + atOcc.toNat) * 2 + 1) * 4 + pad n) * 2 ^ 32
        + (flag.toNat * 2 ^ 30 + n) := by
    simp only [toNat_append_eq, lrecEncode_toNat, lenField_toNat hn, BitVec.toNat_ofNat,
      BitVec.toNat_ofBool, Nat.mod_eq_of_lt (show pad n < 2 ^ 2 by omega), pow_one]
    rfl
  rw [descriptor, BitVec.toNat_setWidth, hfields, BitVec.toNat_ofNat]
  refine congrArg (· % 2 ^ 64) ?_
  cases last <;> cases atOcc <;>
    simp only [Bool.toNat_true, Bool.toNat_false, if_true, Bool.false_eq_true, if_false] <;> omega

/-- The state SPLIT.NEXT leaves, and its answer, when the next cut is at `q` and the chunk ends at
`e` (R159). -/
def State.deliver (s : State) (q : Option Nat) (e : Nat) : State :=
  ((if q = some e then s.addExcept 1 else s).advanceSplit e (decide (e = s.spLen.toNat))).respond .ok
    (descriptor (decide (e = s.spLen.toNat)) (decide (q = some e))
      (cflagOf s.spFirst (decide (e = s.spLen.toNat))) (e - s.spCur.toNat)) s.spCur

theorem exec_splitNext_idle {s : State} (hf : s.fault = .none) (hact : s.spActive = false) :
    exec .splitNext s = .next (s.respond .ok 0 0) := by
  rw [exec_of_clean hf, bodyOf, splitNextBody, hact]
  rfl

theorem exec_splitNext_active {s : State} {p : List Byte} (hf : s.fault = .none)
    (hact : s.spActive = true) (hlimit : s.cfg.ChunkLimitOk) (hlen : p.length = s.spLen.toNat)
    (hp : s.PayloadIs p) :
    exec .splitNext s = .next
      (s.deliver (nextOcc s.cfg.byteOrder s.spFirst s.spCur.toNat p)
        (chunkEnd s.cfg.chunkLimit s.spCur.toNat s.spLen.toNat
          (nextOcc s.cfg.byteOrder s.spFirst s.spCur.toNat p))) := by
  rw [exec_of_clean hf, bodyOf, splitNextBody, if_pos hact, if_pos hlimit, readPayload_eq hlen hp,
    Res.bind_ok, conclude_ok, State.deliver]
  simp only [decide_eq_true_eq]

/-- The first occurrence that can be cut at is the least one (R159). -/
theorem nextOcc_eq {o : ByteOrder} {p : List Byte} {first : Bool} {cur : Nat} {q : Option Nat}
    (h : IsNextCut o p first cur q) : nextOcc o first cur p = q := by
  have hcut : ∀ j, (first || decide (cur < j)) = true ↔ (first = false → cur < j) := by
    cases first <;> simp
  cases q with
  | none => exact find?_occ_eq_none fun j hj hmagic => h j hmagic ((hcut j).1 hj)
  | some i =>
    obtain ⟨hmagic, hi, hleast⟩ := h
    exact find?_occ_eq_some hmagic ((hcut i).2 hi) fun j hj hjm => hleast j hjm ((hcut j).1 hj)

/-- Settles O25. -/
theorem splitNextDeliversChunk : Obligations.SplitNextDeliversChunk := by
  intro s hf
  refine ⟨exec_splitNext_idle hf, fun p q e hact hlimit hlen hp hcur hq he => ?_⟩
  have hn : e - s.spCur.toNat ≤ lenMax := by
    have := hlimit.2
    omega
  have hstate :
      (if q = some e then s.addExcept 1 else s).advanceSplit e (decide (e = s.spLen.toNat)) =
        { s with
          exceptCnt := if q = some e then BitVec.ofNat 64 ((s.exceptCnt.toNat + 1) % 2 ^ s.cfg.cw)
            else s.exceptCnt
          spCur := BitVec.ofNat 64 e, spFirst := false
          spActive := decide (e ≠ s.spLen.toNat) } := by
    by_cases hat : q = some e <;>
      simp [State.advanceSplit, State.addExcept, wrapTo, hact, hat]
  rw [exec_splitNext_active hf hact hlimit hlen hp, nextOcc_eq hq, chunkEnd_eq, ← he, State.deliver,
    hstate, descriptor_eq _ _ _ hn, cflagOf_toNat]
  simp only [decide_eq_true_eq]

/-! ### A whole iteration (R160) -/

theorem wrapTo_wrapTo_add (w n k : Nat) : wrapTo w ((wrapTo w n).toNat + k) = wrapTo w (n + k) := by
  have hval : ∀ m, (wrapTo w m).toNat = m % 2 ^ min w 64 := fun m => by
    rw [wrapTo, BitVec.toNat_ofNat]
    rcases le_total w 64 with hw | hw
    · have := Nat.mod_lt m (Nat.two_pow_pos w)
      have := Nat.pow_le_pow_right Nat.two_pos hw
      rw [min_eq_left hw, Nat.mod_eq_of_lt (by omega)]
    · rw [min_eq_right hw, Nat.mod_mod_of_dvd m (Nat.pow_dvd_pow 2 hw)]
  apply BitVec.eq_of_toNat_eq
  rw [hval, hval, hval, Nat.mod_add_mod]

/-- The occurrences an iteration may still cut at (R159). -/
def occsLeft (o : ByteOrder) (p : List Byte) (first : Bool) (cur : Nat) : List Nat :=
  (occ o p).filter fun i => first || decide (cur < i)

theorem occsLeft_first (o : ByteOrder) (p : List Byte) (cur : Nat) :
    occsLeft o p true cur = occ o p := List.filter_true _

theorem nextOcc_eq_head? (o : ByteOrder) (p : List Byte) (first : Bool) (cur : Nat) :
    nextOcc o first cur p = (occsLeft o p first cur).head? := List.head?_filter.symm

theorem occsLeft_advance (o : ByteOrder) (p : List Byte) (first : Bool) {cur e : Nat}
    (h : cur ≤ e) :
    occsLeft o p false e = (occsLeft o p first cur).filter fun i => decide (e < i) := by
  rw [occsLeft, occsLeft, List.filter_filter]
  refine List.filter_congr fun i _ => ?_
  by_cases hi : e < i
  · simp [hi, h.trans_lt hi]
  · simp [hi]

theorem mem_occsLeft {o : ByteOrder} {p : List Byte} {first : Bool} {cur e : Nat}
    (h : first = false → cur < e) : e ∈ occsLeft o p first cur ↔ e ∈ occ o p := by
  rw [occsLeft, List.mem_filter]
  exact and_iff_left (by cases first <;> simp_all)

/-- Up to the least element only that one is in the list. -/
theorem head?_eq_some_iff_mem {is : List Nat} {len e : Nat} (hmin : ∀ i ∈ is, is.headD len ≤ i)
    (he : e ≤ is.headD len) : is.head? = some e ↔ e ∈ is := by
  refine ⟨List.mem_of_mem_head?, fun hmem => ?_⟩
  cases is with
  | nil => exact absurd hmem List.not_mem_nil
  | cons i is => exact congrArg some (le_antisymm (hmin e hmem) he)

theorem filter_lt_eq_self {is : List Nat} {len e : Nat} (hmin : ∀ i ∈ is, is.headD len ≤ i)
    (he : e < is.headD len) : is.filter (fun i => decide (e < i)) = is :=
  List.filter_eq_self.2 fun i hi => decide_eq_true (he.trans_le (hmin i hi))

/-- An open iteration over `p` with its cursor at `cur`, the occurrences `is` left to cut at and `n` in
the counter, of which EXCEPT_CNT keeps CW bits (R24, R30). -/
structure State.Iterating (s : State) (c : Config) (p : List Byte) (first : Bool) (cur : Nat)
    (is : List Nat) (n : Nat) : Prop where
  cfg : s.cfg = c
  limit : c.ChunkLimitOk
  clean : s.fault = .none
  active : s.spActive = true
  start : s.spFirst = first
  cursor : s.spCur.toNat = cur
  length : p.length = s.spLen.toNat
  payload : s.PayloadIs p
  left : occsLeft c.byteOrder p first cur = is
  later : first = false → cur < is.headD p.length
  counted : s.exceptCnt = wrapTo c.cw n

section Deliver

variable (s : State) (q : Option Nat) (e : Nat)

@[simp] theorem State.deliver_cfg : (s.deliver q e).cfg = s.cfg := by
  unfold State.deliver; split <;> rfl
@[simp] theorem State.deliver_fault : (s.deliver q e).fault = s.fault := by
  unfold State.deliver; split <;> rfl
@[simp] theorem State.deliver_pbuf : (s.deliver q e).pbuf = s.pbuf := by
  unfold State.deliver; split <;> rfl
@[simp] theorem State.deliver_spLen : (s.deliver q e).spLen = s.spLen := by
  unfold State.deliver; split <;> rfl
@[simp] theorem State.deliver_spCur : (s.deliver q e).spCur = BitVec.ofNat 64 e := rfl
@[simp] theorem State.deliver_spFirst : (s.deliver q e).spFirst = false := rfl
@[simp] theorem State.deliver_spActive :
    (s.deliver q e).spActive = (s.spActive && !decide (e = s.spLen.toNat)) := by
  unfold State.deliver; split <;> rfl
@[simp] theorem State.deliver_exceptCnt :
    (s.deliver q e).exceptCnt =
      if q = some e then wrapTo s.cfg.cw (s.exceptCnt.toNat + 1) else s.exceptCnt := by
  unfold State.deliver; split <;> rfl

end Deliver

namespace State.Iterating

variable {s : State} {c : Config} {p : List Byte} {first : Bool} {cur : Nat} {is : List Nat}
  {n : Nat}

theorem exec_splitNext (hs : s.Iterating c p first cur is n) {e : Nat}
    (he : e = (is.headD p.length ⊓ (cur + c.chunkLimit)) ⊓ p.length) :
    exec .splitNext s = .next (s.deliver is.head? e) := by
  obtain ⟨rfl, hlimit, hclean, hactive, rfl, rfl, hlen, hp, rfl, -, -⟩ := hs
  rw [exec_splitNext_active hclean hactive hlimit hlen hp, nextOcc_eq_head?, chunkEnd_eq, he,
    List.headD_eq_head?_getD, hlen]

/-- A chunk that ends no later than the next cut is answered as R159 says, by where it ends. -/
theorem deliver_rsp (hs : s.Iterating c p first cur is n) {k : Nat}
    (hmin : ∀ i ∈ is, is.headD p.length ≤ i) (hk : cur + k ≤ is.headD p.length)
    (hpos : first = false → 0 < k) :
    (s.deliver is.head? (cur + k)).rsp = some
      { st := .ok, r1 := BitVec.ofNat 64 cur
        r0 := descriptor (decide (cur + k = p.length)) (decide (cur + k ∈ occ c.byteOrder p))
          (cflagOf first (decide (cur + k = p.length))) k } := by
  have hat : is.head? = some (cur + k) ↔ cur + k ∈ occ c.byteOrder p := by
    rw [head?_eq_some_iff_mem hmin hk, ← hs.left]
    exact mem_occsLeft fun hf => Nat.lt_add_of_pos_right (hpos hf)
  have hcur : s.spCur = BitVec.ofNat 64 cur := by
    rw [← hs.cursor, BitVec.ofNat_toNat, BitVec.setWidth_eq]
  simp only [State.deliver, State.respond, hat, hs.start, hs.cursor, hs.length,
    Nat.add_sub_cancel_left]
  rw [hcur]

theorem deliver_exceptCnt (hs : s.Iterating c p first cur is n) (q : Option Nat) (e : Nat) :
    (s.deliver q e).exceptCnt = wrapTo c.cw (n + if q = some e then 1 else 0) := by
  rw [State.deliver_exceptCnt, hs.counted, hs.cfg, wrapTo_wrapTo_add]
  split <;> rfl

/-- A chunk that is not the last leaves the iteration open behind it. -/
theorem deliver (hs : s.Iterating c p first cur is n) {e : Nat} {js : List Nat} (hcur : cur ≤ e)
    (hleft : is.filter (fun i => decide (e < i)) = js) (hlater : e < js.headD p.length)
    (hlast : e < p.length) :
    (s.deliver is.head? e).Iterating c p false e js
      (n + if is.head? = some e then 1 else 0) where
  cfg := by rw [State.deliver_cfg, hs.cfg]
  limit := hs.limit
  clean := by rw [State.deliver_fault, hs.clean]
  active := by
    rw [State.deliver_spActive, hs.active, ← hs.length, decide_eq_false hlast.ne]; rfl
  start := rfl
  cursor := by
    have := hs.length
    rw [State.deliver_spCur, BitVec.toNat_ofNat]
    omega
  length := by rw [State.deliver_spLen, hs.length]
  payload := fun k hk => by rw [State.deliver_pbuf, hs.payload k hk]
  left := by rw [occsLeft_advance _ _ first hcur, hs.left, hleft]
  later := fun _ => hlater
  counted := hs.deliver_exceptCnt _ _

/-- The next chunk, and then what the state it leaves answers. -/
theorem runAll_chunk (hs : s.Iterating c p first cur is n) {k : Nat} {last : Bool}
    {cs : List Chunk} {js : List Instr} {t : State} (hmin : ∀ i ∈ is, is.headD p.length ≤ i)
    (hend : cur + k = (is.headD p.length ⊓ (cur + c.chunkLimit)) ⊓ p.length)
    (hpos : first = false → 0 < k) (hlast : decide (cur + k = p.length) = last)
    (hcs : cs.isEmpty = last)
    (hrest : runAll js (s.deliver is.head? (cur + k)) =
      some (chunkAnswers (occ c.byteOrder p) cs, t)) :
    runAll (.splitNext :: js) s =
      some (chunkAnswers (occ c.byteOrder p) (⟨cur, k, cflagOf first last⟩ :: cs), t) := by
  rw [runAll_cons (hs.exec_splitNext hend) hrest, hs.deliver_rsp hmin (by omega) hpos, hlast,
    chunkAnswers, hcs]

/-- As many SPLIT.NEXT as there are chunks left deliver them, and close the iteration. -/
theorem runAll_splitNext {cs : List Chunk} (hs : s.Iterating c p first cur is n)
    (h : ChunksFrom c.chunkLimit p.length first cur is cs) :
    ∃ t, runAll (List.replicate cs.length .splitNext) s =
        some (chunkAnswers (occ c.byteOrder p) cs, t) ∧
      t.spActive = false ∧ t.fault = .none ∧ t.exceptCnt = wrapTo c.cw (n + is.length) := by
  have hlimit := hs.limit.1
  induction h generalizing s n with
  | @last first cur k hend hk =>
    have hpos : first = false → 0 < k := fun hf => by
      have : cur < p.length := hs.later hf
      omega
    refine ⟨s.deliver none (cur + k), hs.runAll_chunk (List.forall_mem_nil _) ?_ hpos
      (decide_eq_true hend) rfl rfl, ?_, ?_, hs.deliver_exceptCnt none _⟩
    · rw [List.headD_nil]; omega
    · rw [State.deliver_spActive, ← hs.length, decide_eq_true hend, Bool.not_true, Bool.and_false]
    · rw [State.deliver_fault, hs.clean]
  | @cut first cur k is cs hk hnext h ih =>
    have hin := h.headD_le_len
    have hpos : first = false → 0 < k := fun hf => by
      have : cur < cur + k := hs.later hf
      omega
    have hleft : ((cur + k) :: is).filter (fun i => decide (cur + k < i)) = is := by
      rw [List.filter_cons_of_neg (by simp), filter_lt_eq_self h.headD_le (by omega)]
    obtain ⟨t, hrun, hclosed, hclean, hcount⟩ :=
      ih (hs.deliver (Nat.le_add_right cur k) hleft (by omega) (by omega))
    refine ⟨t, hs.runAll_chunk (ChunksFrom.cut (first := first) hk hnext h).headD_le ?_ hpos
      (decide_eq_false (by omega)) (List.isEmpty_eq_false_iff.2 h.ne_nil) hrun,
      hclosed, hclean, ?_⟩
    · rw [List.headD_cons]; omega
    · rw [hcount, List.head?_cons, if_pos rfl, List.length_cons, Nat.add_right_comm, Nat.add_assoc]
  | @full first cur is cs hnext h ih =>
    have hin := h.headD_le_len
    have hmiss : is.head? ≠ some (cur + c.chunkLimit) := fun hhead => by
      rw [List.headD_eq_head?_getD, hhead] at hnext
      exact lt_irrefl _ hnext
    obtain ⟨t, hrun, hclosed, hclean, hcount⟩ :=
      ih (hs.deliver (Nat.le_add_right cur c.chunkLimit) (filter_lt_eq_self h.headD_le hnext) hnext
        (by omega))
    refine ⟨t, hs.runAll_chunk h.headD_le (by omega) (fun _ => hlimit)
      (decide_eq_false (by omega)) (List.isEmpty_eq_false_iff.2 h.ne_nil) hrun,
      hclosed, hclean, ?_⟩
    rw [hcount, if_neg hmiss, Nat.add_zero]

end State.Iterating

/-- SPLIT.START opens an iteration with every occurrence left to cut at (R158). -/
theorem State.iterating_openSplit {s : State} {len : Word} {p : List Byte} (hf : s.fault = .none)
    (hlimit : s.cfg.ChunkLimitOk) (hcount : s.exceptCnt.toNat < 2 ^ s.cfg.cw)
    (hlen : p.length = len.toNat) (hp : s.PayloadIs p) :
    ((s.openSplit len).respond .ok 0 0).Iterating s.cfg p true 0 (occ s.cfg.byteOrder p)
      s.exceptCnt.toNat where
  cfg := rfl
  limit := hlimit
  clean := hf
  active := rfl
  start := rfl
  cursor := rfl
  length := hlen
  payload := hp
  left := occsLeft_first _ _ _
  later := Bool.noConfusion
  counted := by
    rw [wrapTo, Nat.mod_eq_of_lt hcount, BitVec.ofNat_toNat, BitVec.setWidth_eq]; rfl

/-- Settles O29. -/
theorem iterationEqualsSplit : Obligations.IterationEqualsSplit := by
  intro s len p hf hlimit hcount hcap hlen hp
  have hopen : exec (.splitStart len) s = .next ((s.openSplit len).respond .ok 0 0) :=
    (splitStartOpens s len hf).trans (if_pos hcap)
  obtain ⟨t, hrun, hend⟩ := (State.iterating_openSplit hf hlimit hcount hlen hp).runAll_splitNext
    (chunksFrom_split p hlimit)
  exact ⟨t, runAll_cons hopen hrun, hend⟩

end Sys2Proof.Machine
end

section
/-! PROOFS. The family 44_frame_emitter: WRREC as the stream writes of its record, how it ends when one of
them fails, the record's size, and written records read back by RDREC. -/

namespace Sys2Proof.Machine

/-! ### The record's size (R161, R176) -/

theorem Covers.end_le {a b : Nat} {cs : List Chunk} (h : Covers a b cs) :
    a ≤ b ∧ ∀ x ∈ cs, x.off + x.len ≤ b := by
  induction cs generalizing a with
  | nil => exact ⟨le_of_eq h, List.forall_mem_nil _⟩
  | cons x cs ih =>
    obtain ⟨rfl, hrest⟩ := h
    obtain ⟨hle, hin⟩ := ih hrest
    exact ⟨by omega, List.forall_mem_cons.2 ⟨hle, hin⟩⟩

/-- A chunk's data has the chunk's length: it lies inside the payload. -/
theorem length_slice_of_mem_split {c : Config} {p : List Byte} (hc : c.ChunkLimitOk) {x : Chunk}
    (hx : x ∈ split c p) : (x.slice p).length = x.len := by
  have hin := (chunksFrom_split p hc).covers.end_le.2 x hx
  rw [Chunk.slice, List.length_take, List.length_drop]
  omega

theorem length_encodeRecord {c : Config} (p : List Byte) (hc : c.ChunkLimitOk) :
    (encodeRecord c p).length = ((split c p).map fun x => frameSize x.len).sum := by
  rw [encodeRecord, framesOf, List.length_flatMap]
  refine congrArg List.sum (List.map_congr_left fun x hx => ?_)
  rw [frameBytes_length, length_slice_of_mem_split hc hx]

theorem four_dvd_frameSize (n : Nat) : 4 ∣ frameSize n := by
  rw [frameSize_eq]; omega

/-- A payload of one span that is one piece is one chunk. -/
theorem split_of_single {c : Config} {p : List Byte} (hc : c.ChunkLimitOk)
    (hocc : occ c.byteOrder p = []) (hshort : p.length ≤ c.chunkLimit) :
    split c p = [⟨0, p.length, cflagOf true true⟩] := by
  rw [split, hocc, spans, List.flatMap_singleton]
  show withFlags true (pieces c.chunkLimit 0 p.length) = _
  rw [pieces_eq hc.1, if_pos (by simpa using hshort)]
  rfl

/-- Settles O32. -/
theorem recordSize : Obligations.RecordSize := by
  intro c p hc
  have hlength := length_encodeRecord p hc
  refine ⟨hlength, ?_, fun hocc hshort => ?_⟩
  · rw [hlength]
    refine Nat.mod_eq_zero_of_dvd (List.dvd_sum fun n hn => ?_)
    obtain ⟨x, -, rfl⟩ := List.mem_map.1 hn
    exact four_dvd_frameSize x.len
  · rw [hlength, split_of_single hc hocc hshort]
    exact frameSize_eq p.length

/-! ### WRREC as a sequence of writes (R171, R175) -/

/-- WRREC on a payload PBUF holds: the count first, then the record's writes. -/
theorem wrrecBody_eq {s : State} {len : Word} {p : List Byte} (hlimit : s.cfg.ChunkLimitOk)
    (hcap : len.toNat ≤ s.cfg.pbufCap) (hlen : p.length = len.toNat) (hp : s.PayloadIs p) :
    wrrecBody len s =
      (writeSeq (recordWrites s.cfg p) (s.addExcept (occ s.cfg.byteOrder p).length)).bind fun _ t =>
        .ok (BitVec.ofNat 64 (split s.cfg p).length,
          BitVec.ofNat 64 (encodeRecord s.cfg p).length) t := by
  rw [wrrecBody, if_pos ((fitsPbuf_iff _ _).2 hcap), if_pos hlimit, readPayload_eq hlen hp]
  show (emitAll p (split s.cfg p) 0 (s.addExcept (occ s.cfg.byteOrder p).length)).bind _ = _
  rw [emitAll_eq, Res.bind_assoc, Nat.zero_add, ← length_encodeRecord p hlimit]
  rfl

/-- Settles O30. -/
theorem wrrecWritesRecord : Obligations.WrrecWritesRecord := by
  intro s len p hf hlimit hcap hlen hp hok hroom
  have hwrites : writeSeq (recordWrites s.cfg p) (s.addExcept (occ s.cfg.byteOrder p).length) =
      .ok () ((s.addExcept (occ s.cfg.byteOrder p).length).afterWrites (recordWrites s.cfg p)) :=
    writeSeq_ok (fun a ha => hok a (List.mem_of_mem_take ha))
      (by rw [recordWrites_flatten]; exact hroom)
  rw [exec_of_clean hf, bodyOf, wrrecBody_eq hlimit hcap hlen hp, hwrites, Res.bind_ok, conclude_ok,
    State.afterWrites, recordWrites_flatten]
  rfl

/-! ### A write that fails (R56) -/

theorem eq_ok_of_mem_take_replicate {n : Nat} {a : WriteAnswer} {as : List WriteAnswer}
    (h : a ∈ (List.replicate n WriteAnswer.ok ++ as).take n) : a = .ok := by
  rw [List.take_left' List.length_replicate] at h
  exact List.eq_of_mem_replicate h

/-- A sequence whose first `n` writes are answered `ok` is its write `n`, from the state they leave, and
the rest. -/
theorem writeSeq_eq_of_getElem? {ws : List (List Byte)} {n : Nat} {b : List Byte} {s : State}
    (hb : ws[n]? = some b) (hok : ∀ a ∈ s.oracle.writes.take n, a = .ok)
    (hroom : s.wpos + (ws.take n).flatten.length ≤ s.cfg.lwMax) :
    writeSeq ws s = (streamWrite b (s.afterWrites (ws.take n))).bind fun _ t =>
      writeSeq (ws.drop (n + 1)) t := by
  obtain ⟨hn, rfl⟩ := List.getElem?_eq_some_iff.1 hb
  have hlength : (ws.take n).length = n := List.length_take_of_le hn.le
  conv_lhs => rw [← List.take_append_drop n ws, List.drop_eq_getElem_cons hn]
  rw [writeSeq_append, writeSeq_ok (by rwa [hlength]) hroom, Res.bind_ok, writeSeq]

/-- A call that answers `fail` has appended a proper front of its bytes (R56, U3). -/
theorem streamWrite_fail {s : State} {b : List Byte} {k : Nat} {as : List WriteAnswer}
    (h : s.oracle.writes = .fail k :: as) (hroom : s.wpos + b.length ≤ s.cfg.lwMax) :
    streamWrite b s = .raised .wrFail
      (State.extendOut { s with oracle := { s.oracle with writes := as } } (properFront k b)
        (.write b false)) := by
  have hfront : s.wpos + (properFront k b).length ≤ s.cfg.lwMax :=
    le_trans (Nat.add_le_add_left (List.length_take_le' _ _) _) hroom
  rw [streamWrite, State.nextWrite, h]
  exact if_pos hfront

theorem length_properFront (k : Nat) (b : List Byte) :
    (properFront k b).length = k ⊓ (b.length - 1) := by
  rw [properFront, List.length_take]
  omega

/-- The writes up to and including number `n` take no more room than all of them. -/
theorem length_take_flatten_add_le {ws : List (List Byte)} {n : Nat} {b : List Byte}
    (hb : ws[n]? = some b) : (ws.take n).flatten.length + b.length ≤ ws.flatten.length := by
  obtain ⟨hn, rfl⟩ := List.getElem?_eq_some_iff.1 hb
  conv_rhs => rw [← List.take_append_drop n ws, List.drop_eq_getElem_cons hn]
  simp only [List.flatten_append, List.flatten_cons, List.length_append]
  omega

/-- Settles O31. -/
theorem wrrecStopsAtFailedWrite : Obligations.WrrecStopsAtFailedWrite := by
  intro s len p n k as b hf hlimit hcap hlen hp hroom hanswers hb
  have hupto := length_take_flatten_add_le hb
  rw [recordWrites_flatten] at hupto
  have hcount : n = ((recordWrites s.cfg p).take n).length :=
    (List.length_take_of_le (List.getElem?_eq_some_iff.1 hb).1.le).symm
  have hnext : (((s.addExcept (occ s.cfg.byteOrder p).length).afterWrites
      ((recordWrites s.cfg p).take n)).oracle.writes) = .fail k :: as := by
    show s.oracle.writes.drop _ = _
    rw [← hcount, hanswers, List.drop_left' List.length_replicate]
  refine ⟨(Config.freeRbuf s.freeCtr).take s.cfg.rbufCap, ?_⟩
  rw [exec_of_clean hf, bodyOf, wrrecBody_eq hlimit hcap hlen hp, writeSeq_eq_of_getElem? hb ?_ ?_,
    streamWrite_fail hnext ?_, Res.bind_raised, Res.bind_raised, conclude_raised,
    State.raise_of_clean ?_, State.extendOut, length_properFront]
  · rfl
  · exact hf
  · show s.wpos + _ + _ ≤ s.cfg.lwMax
    omega
  · show ∀ a ∈ s.oracle.writes.take n, a = .ok
    rw [hanswers]
    exact fun a => eq_ok_of_mem_take_replicate
  · show s.wpos + _ ≤ s.cfg.lwMax
    omega

/-! ### RDREC on frames that answer in full (R198 to R201) -/

theorem closesRecord_append_singleton (l : List CFlag) (x : CFlag) :
    closesRecord (l ++ [x]) = true ↔ (∀ g ∈ l, g = 2) ∧ x = 3 := by
  induction l with
  | nil => simp [closesRecord]
  | cons y l ih =>
    have hcons : closesRecord (y :: (l ++ [x])) = (decide (y = 2) && closesRecord (l ++ [x])) := by
      cases l <;> rfl
    rw [List.cons_append, hcons, Bool.and_eq_true, decide_eq_true_eq, ih, List.forall_mem_cons,
      and_assoc]

/-- The frames of a record are those of an open one and one that ends it. -/
theorem openRecordFlags_of_legalRecord {pre : List WireFrame} {f : WireFrame}
    (h : legalRecord ((pre ++ [f]).map (·.flag)) = true) :
    openRecordFlags (pre.map (·.flag)) = true ∧ judge (openState pre) f.flag = .done := by
  cases pre with
  | nil =>
    have hflag : f.flag = 0 := of_decide_eq_true h
    exact ⟨rfl, by rw [hflag]; rfl⟩
  | cons g gs =>
    have hcons : legalRecord (((g :: gs) ++ [f]).map (·.flag)) =
        (decide (g.flag = 1) && closesRecord (gs.map (·.flag) ++ [f.flag])) := by
      cases gs with
      | nil => rfl
      | cons y ys => simp [legalRecord]
    rw [hcons, Bool.and_eq_true, decide_eq_true_eq, closesRecord_append_singleton] at h
    obtain ⟨hfirst, hmiddle, hlast⟩ := h
    refine ⟨?_, by rw [hlast]; rfl⟩
    rw [List.map_cons, openRecordFlags, Bool.and_eq_true]
    exact ⟨decide_eq_true hfirst, List.all_eq_true.2 fun x hx => decide_eq_true (hmiddle x hx)⟩

/-- The frame that ends a record. -/
theorem rdrecLoop_done {s t : State} {b : List Byte} {r : RState} {f : WireFrame} (hf : f.Wf)
    (h : State.answering (f.reads s.cfg.byteOrder) s = some t)
    (hc : b.length + f.data.length ≤ s.cfg.rbufCap) (hj : judge r f.flag = .done) (n : Nat) :
    rdrecLoop (n + 1) (s.amid b r) =
      .ok (1, BitVec.ofNat 64 (b ++ f.data).length) (t.amid (b ++ f.data) .done) := by
  rw [rdrecLoop, readFrame_answered hf rfl h hc]
  show (match judge r f.flag with
    | .done => _
    | .more => _
    | .bad c => _) = _
  rw [hj]; rfl

theorem exec_rdrec_of_open {s : State} (hf : s.fault = .none) (he : s.eos = false) :
    exec .rdrec s = conclude s (rdrecLoop (rdrecBound s) s.openRecord) := by
  rw [exec_of_clean hf, bodyOf, rdrecBody, he, if_neg Bool.false_ne_true]

/-- RDREC on a record's frames that its stream answers with one after the other. -/
theorem exec_rdrec_of_answering {s u : State} {fs : List WireFrame} (hf : s.fault = .none)
    (he : s.eos = false) (hw : ∀ f ∈ fs, f.Wf) (hlegal : legalRecord (fs.map (·.flag)) = true)
    (hans : State.answering (wireReads s.cfg.byteOrder fs) s = some u)
    (hcap : (wireData fs).length ≤ s.cfg.rbufCap) :
    exec .rdrec s = .next
      ((u.amid (wireData fs) .done).respond .ok 1 (BitVec.ofNat 64 (wireData fs).length)) := by
  rcases List.eq_nil_or_concat' fs with rfl | ⟨pre, f, rfl⟩
  · exact absurd hlegal Bool.false_ne_true
  obtain ⟨hopen, hdone⟩ := openRecordFlags_of_legalRecord hlegal
  have hreads : wireReads s.cfg.byteOrder (pre ++ [f]) =
      wireReads s.cfg.byteOrder pre ++ f.reads s.cfg.byteOrder := by
    rw [wireReads, List.flatMap_append, List.flatMap_singleton]; rfl
  have hdata : wireData (pre ++ [f]) = wireData pre ++ f.data := by
    rw [wireData, List.flatMap_append, List.flatMap_singleton]; rfl
  rw [hreads, State.answering_append] at hans
  obtain ⟨t, hpre, hlast⟩ := hans
  have hcfg : t.cfg = s.cfg := (State.answering_answered hpre).same.1
  rw [hdata, List.length_append] at hcap
  have hloop : rdrecLoop (pre.length + 1) s.openRecord =
      .ok (1, BitVec.ofNat 64 (wireData pre ++ f.data).length)
        (u.amid (wireData pre ++ f.data) .done) := by
    rw [rdrecLoop_open 1 (fun g hg => hw g (List.mem_append_left _ hg)) hopen rfl hpre (by omega)]
    exact rdrecLoop_done (hw f List.mem_concat_self) (hcfg ▸ hlast) (hcfg ▸ hcap) hdone 0
  rw [exec_rdrec_of_open hf he,
    rdrecLoop_of_ends hloop (by rintro (h | h) <;> cases h), conclude_ok, hdata]

/-- RDREC on a record's frames that stand at RPOS, with full answers (R58). -/
theorem exec_rdrec_of_frames {s : State} {fs : List WireFrame} {rest : List Byte}
    (hf : s.fault = .none) (he : s.eos = false) (hfull : s.ReadsFull) (hw : ∀ f ∈ fs, f.Wf)
    (hlegal : legalRecord (fs.map (·.flag)) = true)
    (hahead : s.istream.drop s.rpos = wireBytes s.cfg.byteOrder fs ++ rest)
    (hcap : (wireData fs).length ≤ s.cfg.rbufCap) :
    exec .rdrec s = .next
      (((s.afterReads (wireReads s.cfg.byteOrder fs)).amid (wireData fs) .done).respond .ok 1
        (BitVec.ofNat 64 (wireData fs).length)) :=
  exec_rdrec_of_answering hf he hw hlegal
    (State.answering_full hfull (wireReads_whole _ fs) (by rwa [wireReads_bytes])) hcap

/-- RDREC where a finite stream has ended (R191, R233). -/
theorem exec_rdrec_of_end {s : State} (hf : s.fault = .none) (he : s.eos = false)
    (hfull : s.ReadsFull) (hfinite : s.supply = []) (hahead : s.istream.drop s.rpos = []) :
    exec .rdrec s = .next
      ({ s.openRecord.afterReads [.read 4 (some [])] with eos := true }.respond .ok 0 0) := by
  have hloop : rdrecLoop 1 s.openRecord =
      .ok (0, 0) { s.openRecord.afterReads [.read 4 (some [])] with eos := true } := by
    rw [rdrecLoop, readFrame, readMagic,
      streamRead_last (s := s.openRecord) hfull hfinite (Nat.zero_le 4) hahead]
    rfl
  rw [exec_rdrec_of_open hf he, rdrecLoop_of_ends hloop (by rintro (h | h) <;> cases h),
    conclude_ok]

/-! ### The frames of a written record (R82, R170) -/

/-- The frames WRREC writes for a payload. -/
def recordFrames (c : Config) (p : List Byte) : List WireFrame :=
  (split c p).map fun x =>
    { flag := x.cflag, data := x.slice p, padding := zeros (pad (x.slice p).length) }

theorem wireBytes_recordFrames (c : Config) (p : List Byte) :
    wireBytes c.byteOrder (recordFrames c p) = encodeRecord c p := by
  rw [wireBytes, recordFrames, List.flatMap_map]; rfl

theorem wireData_recordFrames {c : Config} (p : List Byte) (hc : c.ChunkLimitOk) :
    wireData (recordFrames c p) = p := by
  rw [wireData, recordFrames, List.flatMap_map]
  exact (chunksFrom_split p hc).covers.flatMap_slice

theorem wf_of_mem_recordFrames {c : Config} {p : List Byte} (hc : c.ChunkLimitOk) :
    ∀ f ∈ recordFrames c p, f.Wf := by
  intro f hf
  obtain ⟨x, hx, rfl⟩ := List.mem_map.1 hf
  have hlen := (chunksFrom_split p hc).len_le x hx
  exact ⟨(length_slice_of_mem_split hc hx).trans_le (hlen.trans hc.2), List.length_replicate⟩

theorem legalRecord_recordFrames (c : Config) (p : List Byte) :
    legalRecord ((recordFrames c p).map (·.flag)) = true := by
  rw [recordFrames, List.map_map]
  exact splitFlagsSpellOneRecord.1 c p

/-! ### Writing payloads and reading them back (R178) -/

/-- Nothing has gone wrong, the reader has not come to its stream's end and gets full answers (R58), and
OSTREAM holds `out`. -/
structure State.Written (s : State) (c : Config) (out : List Byte) : Prop where
  cfg : s.cfg = c
  clean : s.fault = .none
  unended : s.eos = false
  full : s.ReadsFull
  output : s.ostream = out

/-- The same of a finite ISTREAM with the records of `ps` from RPOS to its end. -/
structure State.Holding (s : State) (c : Config) (ps : List (List Byte)) : Prop where
  cfg : s.cfg = c
  clean : s.fault = .none
  unended : s.eos = false
  full : s.ReadsFull
  finite : s.supply = []
  ahead : s.istream.drop s.rpos = ps.flatMap (encodeRecord c)

/-- An accepted host write leaves its bytes in PBUF, and fits it (R31, R50). -/
theorem hostWrite_eq_next {s t : State} {offset : Nat} {bytes : List Byte}
    (h : hostWrite offset bytes s = .next t) :
    t = { s with pbuf := s.pbuf.writeRange offset bytes } ∧
      (bytes = [] ∨ offset + bytes.length ≤ s.cfg.pbufCap) := by
  rcases eq_or_ne bytes [] with rfl | hb
  · cases h; exact ⟨rfl, .inl rfl⟩
  rw [hostWrite_of_ne_nil hb] at h
  split at h
  · cases h
  split at h
  · cases h
  cases h
  exact ⟨rfl, .inr (by omega)⟩

/-- An accepted PBUF.LOAD (R96). -/
theorem State.Written.load {s t : State} {c : Config} {out p : List Byte} (h : s.Written c out)
    (hload : hostWrite 0 p s = .next t) :
    t.Written c out ∧ t.PayloadIs p ∧ p.length ≤ c.pbufCap := by
  obtain ⟨rfl, hfits⟩ := hostWrite_eq_next hload
  refine ⟨⟨h.cfg, h.clean, h.unended, h.full, h.output⟩, fun k hk => ?_, ?_⟩
  · exact (Memory.read_writeRange p s.pbuf 0 k).trans (dif_pos (by omega))
  · rw [← h.cfg]
    rcases hfits with rfl | hfits
    · exact Nat.zero_le _
    · omega

theorem State.Written.wrote {s t : State} {c : Config} {out bs : List Byte} {m : Nat}
    (h : s.Written c out) (ht : (s.addExcept m).Wrote t) (hout : t.ostream = s.ostream ++ bs) :
    t.Written c (out ++ bs) := by
  rw [h.output] at hout
  obtain ⟨_, _, _, rfl, -⟩ := ht
  exact ⟨h.cfg, h.clean, h.unended, h.full, hout⟩

/-- Only a body that ends normally answers OK; WRREC's fault is an IOError (R89, R232). -/
theorem wrrecBody_of_rsp_ok {s t : State} {len : Word} (hf : s.fault = .none)
    (h : exec (.wrrec len) s = .next t) (hrsp : t.rsp.map (·.st) = some .ok) :
    ∃ r u, wrrecBody len s = .ok r u ∧ t = u.respond .ok r.1 r.2 := by
  rw [exec_of_clean hf, bodyOf] at h
  rcases conclude_next h with ⟨r0, r1, u, hbody, rfl⟩ | ⟨-, rfl⟩ | ⟨c, u, hbody, rfl⟩ | ⟨u, -, rfl⟩
  · exact ⟨_, u, hbody, rfl⟩
  · cases hrsp
  · have hends := wrrecBody_ends len s
    rw [hbody] at hends
    obtain ⟨rfl, -⟩ := hends
    cases hrsp
  · cases hrsp

/-- A WRREC that answers OK has appended the payload's record (R175). -/
theorem State.Written.wrrec {s t : State} {c : Config} {out p : List Byte} {len : Word}
    (h : s.Written c out) (hlimit : c.ChunkLimitOk) (hcap : p.length ≤ c.pbufCap)
    (hlen : p.length = len.toNat) (hp : s.PayloadIs p) (hexec : exec (.wrrec len) s = .next t)
    (hrsp : t.rsp.map (·.st) = some .ok) : t.Written c (out ++ encodeRecord c p) := by
  obtain ⟨r, u, hbody, rfl⟩ := wrrecBody_of_rsp_ok h.clean hexec hrsp
  obtain rfl := h.cfg
  rw [wrrecBody_eq hlimit (hlen ▸ hcap) hlen hp] at hbody
  obtain ⟨_, v, hwrites, hdone⟩ := Res.bind_eq_ok.1 hbody
  cases hdone
  have hends := writeSeq_ends (recordWrites s.cfg p) (s.addExcept (occ s.cfg.byteOrder p).length)
  rw [hwrites] at hends
  have hout := writeSeq_ostream hwrites
  rw [recordWrites_flatten] at hout
  have hv := h.wrote hends hout
  exact ⟨hv.cfg, hv.clean, hv.unended, hv.full, hv.output⟩

theorem toNat_ofNat_of_le_pbufCap {c : Config} (hc : c.Wf) {n : Nat} (hn : n ≤ c.pbufCap) :
    (BitVec.ofNat 64 n).toNat = n := by
  obtain ⟨-, hlw, -, hcap, -⟩ := hc
  have hword : c.lwMax < 2 ^ 64 :=
    (Nat.sub_lt (Nat.two_pow_pos _) Nat.one_pos).trans_le (Nat.pow_le_pow_right Nat.two_pos hlw)
  rw [BitVec.toNat_ofNat, Nat.mod_eq_of_lt (by omega)]

theorem State.Written.writeAll {c : Config} (hc : c.Wf) {ps : List (List Byte)} {s t : State}
    {out : List Byte} (h : s.Written c out) (hw : writeAll ps s = some t) :
    t.Written c (out ++ ps.flatMap (encodeRecord c)) := by
  induction ps generalizing s out with
  | nil => cases hw; rwa [List.flatMap_nil, List.append_nil]
  | cons p ps ih =>
    rw [Machine.writeAll] at hw
    split at hw
    case h_2 => cases hw
    rename_i s1 hload
    split at hw
    case h_2 => cases hw
    rename_i s2 hexec
    split at hw
    case isFalse => cases hw
    rename_i hrsp
    obtain ⟨h1, hp, hcap⟩ := h.load hload
    have hlen := (toNat_ofNat_of_le_pbufCap hc hcap).symm
    rw [List.flatMap_cons, ← List.append_assoc]
    exact ih (h1.wrrec hc.1 hcap hlen hp hexec hrsp) hw

/-- Reads that bring the first record leave the others, whatever RDREC then answers. -/
theorem State.Holding.afterReads {s : State} {c : Config} {p : List Byte} {ps : List (List Byte)}
    {es : List StreamEvent} (h : s.Holding c (p :: ps))
    (hes : es.flatMap (·.bytes) = encodeRecord c p) (b : List Byte) (r : RState) (st : Status)
    (r0 r1 : Word) : (((s.afterReads es).amid b r).respond st r0 r1).Holding c ps :=
  ⟨h.cfg, h.clean, h.unended, h.full.afterReads, h.finite,
    State.afterReads_ahead (by rw [hes, ← List.flatMap_cons]; exact h.ahead)⟩

/-- One RDREC for one record. -/
theorem State.Holding.exec_rdrec {s : State} {c : Config} {p : List Byte} {ps : List (List Byte)}
    (h : s.Holding c (p :: ps)) (hc : c.ChunkLimitOk) (hcap : p.length ≤ c.rbufCap) :
    ∃ t, exec .rdrec s = .next t ∧ t.Holding c ps ∧ t.rbuf = p ∧
      t.rsp = some { st := .ok, r1 := BitVec.ofNat 64 p.length, r0 := 1 } := by
  obtain rfl := h.cfg
  have hdata := wireData_recordFrames p hc
  have hahead : s.istream.drop s.rpos = wireBytes s.cfg.byteOrder (recordFrames s.cfg p) ++
      ps.flatMap (encodeRecord s.cfg) := by
    rw [wireBytes_recordFrames, ← List.flatMap_cons]; exact h.ahead
  have hexec := exec_rdrec_of_frames h.clean h.unended h.full (wf_of_mem_recordFrames hc)
    (legalRecord_recordFrames s.cfg p) hahead (by rwa [hdata])
  rw [hdata] at hexec
  exact ⟨_, hexec, h.afterReads (by rw [wireReads_bytes, wireBytes_recordFrames]) _ _ _ _ _, rfl, rfl⟩

theorem State.Holding.readAll {c : Config} (hc : c.ChunkLimitOk) {ps : List (List Byte)} {s : State}
    (h : s.Holding c ps) (hcap : ∀ p ∈ ps, p.length ≤ c.rbufCap) :
    ∃ u, readAll ps.length s = some (ps, u) ∧ u.Holding c [] := by
  induction ps generalizing s with
  | nil => exact ⟨s, rfl, h⟩
  | cons p ps ih =>
    obtain ⟨hp, hps⟩ := List.forall_mem_cons.1 hcap
    obtain ⟨t, hexec, ht, rfl, hrsp⟩ := h.exec_rdrec hc hp
    obtain ⟨u, hrest, hu⟩ := ih ht hps
    refine ⟨u, ?_, hu⟩
    rw [List.length_cons, Machine.readAll, hexec]
    simp [hrsp, hrest]

/-- Settles O44. -/
theorem writtenRecordsReadBack : Obligations.WrittenRecordsReadBack := by
  intro s t ps hc hout he hf hfull hcap hw
  have hwritten := State.Written.writeAll hc ⟨rfl, hf, he, hfull, hout⟩ hw
  have hholding : (t.setIn t.ostream []).Holding s.cfg ps :=
    ⟨hwritten.cfg, hwritten.clean, hwritten.unended, hwritten.full, rfl, hwritten.output⟩
  obtain ⟨u, hread, hu⟩ := hholding.readAll hc.1 hcap
  exact ⟨u, _, hread, exec_rdrec_of_end hu.clean hu.unended hu.full hu.finite hu.ahead, rfl, rfl, rfl⟩

end Sys2Proof.Machine
end

section
/-! PROOFS. The family 45_deframer: what RDREC answers on legal frames and at a clean end, on a frame at
fault where every call answers in full, and under any answers; when it ends, and when it never does. -/

namespace Sys2Proof.Machine

/-! ### Legal frames and the end of the stream (R198 to R201, R191, R205) -/

/-- Settles O35. -/
theorem rdrecReadsLegalFrames : Obligations.RdrecReadsLegalFrames := by
  intro s fs rest hf he hfull hw hlegal hahead hcap
  rw [exec_rdrec_of_frames hf he hfull hw hlegal hahead hcap, State.afterReads, wireReads_bytes]
  rfl

/-- Settles O36. -/
theorem rdrecCleanEnd : Obligations.RdrecCleanEnd := by
  intro s hf he hfull hfinite hlen
  rw [exec_rdrec_of_end hf he hfull hfinite (List.drop_eq_nil_of_le hlen), State.afterReads,
    List.length_singleton, List.drop_one]
  rfl

/-- Settles O37. -/
theorem rdrecAfterEndIsIdempotent : Obligations.RdrecAfterEndIsIdempotent := by
  intro s hf he
  rw [exec_of_clean hf, bodyOf, rdrecBody, if_pos he, conclude_ok]

/-! ### Under any answers (R204, R206) -/

/-- How RDREC's loop can end under its own bound. -/
theorem rdrecLoop_openRecord_ends (s : State) :
    LoopEnds s.openRecord [] (rdrecBound s) (rdrecLoop (rdrecBound s) s.openRecord) :=
  rdrecLoop_ends _ _ _ rfl rfl

/-- A response with found = 1 comes from the loop's normal end: neither EOS nor a refusal, a fault or a
reset answers it. -/
theorem exec_rdrec_found {s t : State} {n : Word} (hf : s.fault = .none)
    (h : exec .rdrec s = .next t) (hrsp : t.rsp = some { st := .ok, r1 := n, r0 := 1 }) :
    ∃ u, rdrecLoop (rdrecBound s) s.openRecord = .ok (1, n) u ∧ t = u.respond .ok 1 n := by
  have hfound : t.rsp.map (·.r0) = some 1 := by rw [hrsp]; rfl
  cases he : s.eos with
  | true =>
    rw [rdrecAfterEndIsIdempotent s hf he] at h
    cases h; cases hfound
  | false =>
    rw [exec_rdrec_of_open hf he] at h
    rcases conclude_next h with ⟨r0, r1, u, hloop, rfl⟩ | ⟨-, rfl⟩ | ⟨c, u, -, rfl⟩ | ⟨u, -, rfl⟩
    · cases hrsp; exact ⟨u, hloop, rfl⟩
    all_goals cases hfound

/-- Settles O41. -/
theorem rdrecNeverDeliversPartialRecord : Obligations.RdrecNeverDeliversPartialRecord := by
  intro s t n hf h hrsp
  obtain ⟨u, hloop, rfl⟩ := exec_rdrec_found hf h hrsp
  have hends := rdrecLoop_openRecord_ends s
  rw [hloop] at hends
  obtain ⟨htook, -, ⟨hzero, -⟩ | ⟨-, hn, hdone, -, fs, hw, hlegal, hpassed, hdata⟩⟩ := hends
  · cases hzero
  obtain ⟨m, _, _, _, _, hu, -⟩ := htook
  exact ⟨fs, hw, hlegal, ⟨m, congrArg State.istream hu⟩, hpassed.1, hpassed.eq, hdata, hn, hdone⟩

/-- Settles O42: a finite input is shorter than the loop's bound, and RBUF has room for it. -/
theorem rdrecTerminates : Obligations.RdrecTerminates := by
  intro s hfinite hnever hcap
  by_cases hf : s.fault = .none
  case neg => exact ⟨_, runOp_of_faulted hf _⟩
  cases he : s.eos with
  | true => exact ⟨_, rdrecAfterEndIsIdempotent s hf he⟩
  | false =>
    have hends := rdrecLoop_openRecord_ends s
    have hleft : (s.istream.drop s.rpos).length ≤ s.istream.length := by
      rw [List.length_drop]; exact Nat.sub_le _ _
    rw [exec_rdrec_of_open hf he]
    generalize rdrecLoop (rdrecBound s) s.openRecord = r at hends
    cases r with
    | ok | refuse | raised | cut => exact ⟨_, rfl⟩
    | stuck f =>
      rcases hends with ⟨-, hmem⟩ | ⟨-, hbound⟩
      · exact absurd hmem hnever
      · have hle : rdrecBound s ≤ (s.istream.drop s.rpos).length := hbound hfinite
        rw [rdrecBound] at hle
        omega
    | outside f =>
      have hlt : s.cfg.rbufCap < 0 + (s.istream.drop s.rpos).length := hends.2 hfinite
      omega

/-! ### A frame at fault where every call answers in full (R191 to R196, R200, R202) -/

/-- Whole reads, and at the end of a finite stream one that is answered with what is left. -/
theorem State.answering_full_last {es : List StreamEvent} {s : State} {b : List Byte} {n : Nat}
    (hfull : s.ReadsFull) (hfinite : s.supply = []) (hw : ∀ e ∈ es, e.Whole)
    (hahead : s.istream.drop s.rpos = es.flatMap (·.bytes) ++ b) (hb : b.length ≤ n) :
    State.answering (es ++ [.read n (some b)]) s =
      some (s.afterReads (es ++ [.read n (some b)])) := by
  have hlast := streamRead_last hfull.afterReads (s := s.afterReads es) hfinite hb
    (State.afterReads_ahead hahead)
  rw [State.afterReads_afterReads] at hlast
  exact State.answering_append.2
    ⟨_, State.answering_full hfull hw hahead, State.answering_read.2 ⟨_, hlast, rfl⟩⟩

theorem headReads_whole (o : ByteOrder) (flag : CFlag) (n : Nat) :
    ∀ e ∈ headReads o flag n, e.Whole := by
  have hread : ∀ v, (StreamEvent.read 4 (some (ser32 o v))).Whole :=
    fun v => ⟨ser32_length o v, by decide⟩
  exact List.forall_mem_cons.2 ⟨hread _, List.forall_mem_singleton.2 (hread _)⟩

theorem headReads_bytes (o : ByteOrder) (flag : CFlag) (n : Nat) :
    (headReads o flag n).flatMap (·.bytes) = ser32 o magic ++ ser32 o (headerWord flag n) := by
  simp [headReads]

/-- The reads of a frame up to its pad are those of the frame without one. -/
theorem reads_without_padding (o : ByteOrder) (flag : CFlag) (d : List Byte) :
    headReads o flag d.length ++ fieldReads d =
      ({ flag := flag, data := d, padding := [] } : WireFrame).reads o :=
  (List.append_nil _).symm

theorem FrameFault.kind {o : ByteOrder} {r : RState} {rest : List Byte} {k : Nat} {c : Cause}
    (h : FrameFault o r rest k c) : c.kind = .corruption := by
  cases c with
  | none | lenRange | flagRange | wrFail | rdFail => exact h.elim
  | _ => rfl

/-- The faults the stream need not end for: the reads up to them bring all they ask for. -/
theorem FrameFault.whole {o : ByteOrder} {r : RState} {rest : List Byte} {k : Nat} {c : Cause}
    (h : FrameFault o r rest k c)
    (hc : c = .badMagic ∨ c = .contWithoutStart ∨ c = .startBeforeEnd) :
    ∃ d es tail, BadFrame o r d es c ∧ (∀ e ∈ es, e.Whole) ∧
      rest = es.flatMap (·.bytes) ++ tail ∧ k = (es.flatMap (·.bytes)).length ∧
      d.length ≤ k - 8 := by
  have hframe : ∀ {f : WireFrame}, f.bytes o <+: rest → k = (f.bytes o).length →
      ∃ tail, (∀ e ∈ f.reads o, e.Whole) ∧ rest = (f.reads o).flatMap (·.bytes) ++ tail ∧
        k = ((f.reads o).flatMap (·.bytes)).length ∧ f.data.length ≤ k - 8 := by
    rintro f ⟨tail, htail⟩ hk
    rw [WireFrame.reads_bytes]
    refine ⟨tail, f.reads_whole o, htail.symm, hk, ?_⟩
    rw [hk, WireFrame.length_bytes]
    omega
  rcases hc with rfl | rfl | rfl
  · obtain ⟨hlen, hne, rfl⟩ := h
    have hfour : (rest.take 4).length = 4 := List.length_take_of_le hlen
    refine ⟨[], [.read 4 (some (rest.take 4))], rest.drop 4, ⟨rfl, _, hfour, hne, rfl⟩,
      List.forall_mem_singleton.2 ⟨hfour, by decide⟩, ?_, ?_, Nat.zero_le _⟩
    · simp
    · simpa using hlen
  all_goals
    obtain ⟨hr, f, hw, hflag, hstands, hk⟩ := h
    obtain ⟨tail, hreads⟩ := hframe hstands hk
    exact ⟨_, _, tail, ⟨hr, f, hw, hflag, rfl, rfl⟩, hreads⟩

/-- The faults of a stream that ends: after whole reads the last one brings what is left. -/
theorem FrameFault.last {o : ByteOrder} {r : RState} {rest : List Byte} {k : Nat} {c : Cause}
    (h : FrameFault o r rest k c)
    (hc : ¬ (c = .badMagic ∨ c = .contWithoutStart ∨ c = .startBeforeEnd)) :
    ∃ d es n b, BadFrame o r d (es ++ [.read n (some b)]) c ∧ (∀ e ∈ es, e.Whole) ∧
      rest = es.flatMap (·.bytes) ++ b ∧ b.length ≤ n ∧ k = rest.length ∧ d.length ≤ k - 8 := by
  have hnil : ∀ e ∈ ([] : List StreamEvent), e.Whole := List.forall_mem_nil _
  cases c with
  | none | lenRange | flagRange | wrFail | rdFail => exact h.elim
  | badMagic | contWithoutStart | startBeforeEnd => simp at hc
  | eosMidRecord =>
    obtain ⟨hr, rfl, rfl⟩ := h
    exact ⟨[], [], 4, [], ⟨rfl, hr, rfl⟩, hnil, rfl, Nat.zero_le _, rfl, Nat.zero_le _⟩
  | shortMagic =>
    obtain ⟨hpos, hlt, rfl⟩ := h
    exact ⟨[], [], 4, rest, ⟨rfl, rest, hpos, hlt, rfl⟩, hnil, rfl, hlt.le, rfl, Nat.zero_le _⟩
  | shortHeader =>
    obtain ⟨x, rfl, hlt, rfl⟩ := h
    exact ⟨[], [.read 4 (some (ser32 o magic))], 4, x, ⟨rfl, x, hlt, rfl⟩,
      List.forall_mem_singleton.2 ⟨ser32_length _ _, by decide⟩, by simp, hlt.le, rfl, Nat.zero_le _⟩
  | shortData =>
    obtain ⟨flag, n, x, hn, hlt, rfl, rfl⟩ := h
    exact ⟨[], headReads o flag n, n, x, ⟨rfl, flag, n, x, hn, hlt, rfl⟩, headReads_whole o flag n,
      by rw [headReads_bytes], hlt.le, rfl, Nat.zero_le _⟩
  | shortPad =>
    obtain ⟨flag, d, z, hd, hlt, rfl, rfl⟩ := h
    refine ⟨d, headReads o flag d.length ++ fieldReads d, pad d.length, z,
      ⟨flag, z, hd, hlt, rfl⟩, ?_, ?_, hlt.le, rfl, ?_⟩
    · rw [reads_without_padding]; exact WireFrame.reads_whole o _
    · rw [reads_without_padding, WireFrame.reads_bytes]; simp [WireFrame.bytes]
    · simp only [List.length_append, ser32_length]; omega

/-- With full answers, the reader gets of what stands at RPOS the answers at which it raises `c`. -/
theorem FrameFault.answering {t : State} {r : RState} {rest : List Byte} {k : Nat} {c : Cause}
    (h : FrameFault t.cfg.byteOrder r rest k c) (hfull : t.ReadsFull)
    (hsupply : t.supply ≠ [] → c = .badMagic ∨ c = .contWithoutStart ∨ c = .startBeforeEnd)
    (hahead : t.istream.drop t.rpos = rest) :
    ∃ d es, BadFrame t.cfg.byteOrder r d es c ∧ d.length ≤ k - 8 ∧
      es.flatMap (·.bytes) = rest.take k ∧ State.answering es t = some (t.afterReads es) := by
  by_cases hc : c = .badMagic ∨ c = .contWithoutStart ∨ c = .startBeforeEnd
  · obtain ⟨d, es, tail, hbad, hw, rfl, rfl, hd⟩ := h.whole hc
    exact ⟨d, es, hbad, hd, List.take_left.symm, State.answering_full hfull hw hahead⟩
  · obtain ⟨d, es, n, b, hbad, hw, rfl, hb, rfl, hd⟩ := h.last hc
    have hfinite : t.supply = [] := not_not.1 (mt hsupply hc)
    refine ⟨d, _, hbad, hd, ?_, State.answering_full_last hfull hfinite hw hahead hb⟩
    rw [List.take_length, List.flatMap_append, List.flatMap_singleton, StreamEvent.bytes_read]

/-- Settles O38: the answers to the frames, and then to the frame at fault, are full ones. -/
theorem rdrecRaisesCorruption : Obligations.RdrecRaisesCorruption := by
  intro s fs rest c k hf he hfull hw hopen hahead hsupply hcap hfault
  have hframes : s.istream.drop s.rpos =
      (wireReads s.cfg.byteOrder fs).flatMap (·.bytes) ++ rest := by rwa [wireReads_bytes]
  obtain ⟨d, es, hbad, hd, hbytes, hes⟩ := FrameFault.answering
    (t := s.afterReads (wireReads s.cfg.byteOrder fs)) hfault hfull.afterReads hsupply
    (State.afterReads_ahead hframes)
  have hans : State.answering (wireReads s.cfg.byteOrder fs ++ es) s =
      some (s.afterReads (wireReads s.cfg.byteOrder fs ++ es)) := by
    rw [← State.afterReads_afterReads]
    exact State.answering_append.2
      ⟨_, State.answering_full hfull (wireReads_whole _ fs) hframes, hes⟩
  obtain ⟨b, n, hlow, hhigh, hexec⟩ := exec_rdrec_raises hf he hw hopen hbad hans
    (by rw [List.length_append]; omega)
  have hreached : (s.afterReads (wireReads s.cfg.byteOrder fs ++ es)).rpos =
      s.rpos + (wireBytes s.cfg.byteOrder fs).length + (rest.take k).length := by
    rw [State.afterReads, List.flatMap_append, wireReads_bytes, hbytes, List.length_append,
      Nat.add_assoc]
  have htaken : (rest.take k).length ≤ k := List.length_take_le _ _
  rw [hfault.kind] at hexec
  exact ⟨b, d, n, es, hlow, by omega, hbad, hbytes, hexec⟩

/-! ### A stream of frames of cflag 2 that never ends (R206) -/

/-- At its end, a stream that never ends is handed its supply once more. -/
theorem State.refill_of_end {s : State} {n : Nat} (hend : s.rpos = s.istream.length) (hpos : 0 < n)
    (hle : n ≤ s.supply.length) : s.refill n = { s with istream := s.istream ++ s.supply } := by
  have hone : (s.rpos + n - s.istream.length + s.supply.length - 1) / s.supply.length = 1 :=
    Nat.div_eq_of_lt_le (by omega) (by omega)
  rw [State.refill, hone, handed, List.replicate_one, List.flatten_singleton]

/-- A frame's first read refills the stream; having done so before changes nothing. -/
theorem rdrecLoop_refill {s : State} (h : s.rpos + 4 ≤ (s.refill 4).istream.length) (n : Nat) :
    rdrecLoop (n + 1) (s.refill 4) = rdrecLoop (n + 1) s := by
  rw [rdrecLoop, rdrecLoop, readFrame, readFrame, readMagic, readMagic, streamRead, streamRead,
    State.refill_of_le h, State.refill_rpos]

/-- A sound frame whose data RBUF has no room for ends the loop there (R195, log 15). -/
theorem rdrecLoop_overflow {s t : State} {b : List Byte} {r : RState} {f : WireFrame} (hf : f.Wf)
    (h : State.answering (f.reads s.cfg.byteOrder) s = some t) (hb : b.length ≤ s.cfg.rbufCap)
    (hc : s.cfg.rbufCap < b.length + f.data.length) (n : Nat) :
    rdrecLoop (n + 1) (s.amid b r) = .outside .rbufCapacity := by
  have hdata : f.data ≠ [] := by intro hnil; rw [hnil, List.length_nil] at hc; omega
  rw [WireFrame.reads, List.append_assoc] at h
  obtain ⟨u, h, hu, hframe⟩ := headReads_answered (b := b) (r := r) rfl hf.1 h
  obtain ⟨v, hread, -⟩ := State.answering_append.1 h
  rw [fieldReads, if_neg hdata] at hread
  obtain ⟨w, hread, hw⟩ := State.answering_read.1 hread
  have hcfg : w.cfg = s.cfg := (State.answered_one.1 _ hread).same.1.trans hu
  have hfull : appendRbuf f.data (w.amid b r) = .outside .rbufCapacity := by
    refine if_neg ?_
    show ¬ b.length + f.data.length ≤ w.cfg.rbufCap
    rw [hcfg]
    omega
  rw [rdrecLoop, hframe, readData, if_neg (mt List.length_eq_zero_iff.1 hdata),
    streamRead_amid_ok hread, Res.bind_ok, if_neg (lt_irrefl _), hfull]
  rfl

/-- The frames `hs` stand at RPOS, and then the source hands over the frames `gs`, over and over, with
full answers (R58, log 8). -/
structure State.Repeating (s : State) (gs hs : List WireFrame) : Prop where
  full : s.ReadsFull
  supply : s.supply = wireBytes s.cfg.byteOrder gs
  inside : s.rpos ≤ s.istream.length
  ahead : s.istream.drop s.rpos = wireBytes s.cfg.byteOrder hs

/-- The reader has `b` in RBUF and is in state `r`, and its loop will not end by itself; with no data to
come in the repeated frames, it can only go on for ever. -/
def State.NeverEnds (s : State) (gs hs : List WireFrame) (b : List Byte) (r : RState) (n : Nat) : Prop :=
  NoEnd (rdrecLoop n (s.amid b r)) ∧
    ((b ++ wireData hs).length ≤ s.cfg.rbufCap → wireData gs = [] →
      rdrecLoop n (s.amid b r) = .stuck .readerNeverEnds)

theorem wireBytes_cons (o : ByteOrder) (f : WireFrame) (fs : List WireFrame) :
    wireBytes o (f :: fs) = f.bytes o ++ wireBytes o fs := List.flatMap_cons

theorem wireData_cons (f : WireFrame) (fs : List WireFrame) :
    wireData (f :: fs) = f.data ++ wireData fs := List.flatMap_cons

section Repeating

variable {s : State} {gs hs : List WireFrame} {f : WireFrame}

theorem State.Repeating.ahead_reads (h : s.Repeating gs (f :: hs)) :
    s.istream.drop s.rpos =
      (f.reads s.cfg.byteOrder).flatMap (·.bytes) ++ wireBytes s.cfg.byteOrder hs := by
  rw [h.ahead, wireBytes_cons, WireFrame.reads_bytes]

theorem State.Repeating.answering (h : s.Repeating gs (f :: hs)) :
    State.answering (f.reads s.cfg.byteOrder) s = some (s.afterReads (f.reads s.cfg.byteOrder)) :=
  State.answering_full h.full (f.reads_whole _) h.ahead_reads

/-- The next frame is read. -/
theorem State.Repeating.next (h : s.Repeating gs (f :: hs)) :
    (s.afterReads (f.reads s.cfg.byteOrder)).Repeating gs hs := by
  refine ⟨h.full.afterReads, h.supply, ?_, State.afterReads_ahead h.ahead_reads⟩
  show s.rpos + _ ≤ s.istream.length
  have hlen := congrArg List.length h.ahead_reads
  have hinside := h.inside
  rw [List.length_append, List.length_drop] at hlen
  omega

/-- Where no frame is left, the repeated ones come next. -/
theorem State.Repeating.refill (h : s.Repeating gs []) (hgs : gs ≠ []) :
    (s.refill 4).Repeating gs gs ∧ s.rpos + 4 ≤ (s.refill 4).istream.length := by
  have hlong : 4 ≤ s.supply.length := by
    obtain ⟨g, gs, rfl⟩ := List.exists_cons_of_ne_nil hgs
    rw [h.supply, wireBytes_cons, List.length_append, WireFrame.length_bytes]
    omega
  have hend : s.rpos = s.istream.length := h.inside.antisymm (List.drop_eq_nil_iff.1 h.ahead)
  rw [State.refill_of_end hend (by decide) hlong]
  refine ⟨⟨h.full, h.supply, ?_, ?_⟩, ?_⟩
  · exact hend.le.trans (List.length_append ▸ Nat.le_add_right _ _)
  · show (s.istream ++ s.supply).drop s.rpos = _
    rw [hend, List.drop_left]
    exact h.supply
  · show s.rpos + 4 ≤ (s.istream ++ s.supply).length
    rw [List.length_append]
    omega

/-- One more frame of a record that does not end with it. -/
theorem State.NeverEnds.cons {b : List Byte} {r : RState} {n : Nat} (h : s.Repeating gs (f :: hs))
    (hf : f.Wf) (hj : judge r f.flag = .more) (hb : b.length ≤ s.cfg.rbufCap)
    (hrest : (b ++ f.data).length ≤ s.cfg.rbufCap →
      (s.afterReads (f.reads s.cfg.byteOrder)).NeverEnds gs hs (b ++ f.data) .awaitingContinuation n) :
    s.NeverEnds gs (f :: hs) b r (n + 1) := by
  unfold State.NeverEnds at hrest ⊢
  rw [wireData_cons, ← List.append_assoc]
  rw [List.length_append (as := b)] at hrest
  rcases Nat.lt_or_ge s.cfg.rbufCap (b.length + f.data.length) with hfull | hroom
  · rw [rdrecLoop_overflow hf h.answering hb hfull]
    refine ⟨.inr rfl, fun hcap => ?_⟩
    rw [List.length_append, List.length_append] at hcap
    omega
  · rw [rdrecLoop_more hf rfl h.answering hroom hj]
    exact hrest hroom

/-- At the stream's end the loop goes on as it does with the repeated frames handed over. -/
theorem State.NeverEnds.of_refill {b : List Byte} {r : RState} {n : Nat}
    (hlen : s.rpos + 4 ≤ (s.refill 4).istream.length)
    (h : (s.refill 4).NeverEnds gs gs b r (n + 1)) : s.NeverEnds gs [] b r (n + 1) := by
  have hloop : rdrecLoop (n + 1) ((s.refill 4).amid b r) = rdrecLoop (n + 1) (s.amid b r) :=
    rdrecLoop_refill (s := s.amid b r) hlen n
  unfold State.NeverEnds at h ⊢
  rw [hloop] at h
  exact ⟨h.1, fun hcap hdata => h.2 (by rw [hdata]; exact hcap) hdata⟩

/-- Frames of cflag 2, and then such frames for ever. -/
theorem State.Repeating.neverEnds (hgs : gs ≠ []) (hg : ∀ g ∈ gs, g.Wf ∧ g.flag = 2) (n : Nat) :
    ∀ {s : State} {hs : List WireFrame} {b : List Byte}, s.Repeating gs hs →
      (∀ g ∈ hs, g.Wf ∧ g.flag = 2) → b.length ≤ s.cfg.rbufCap →
      s.NeverEnds gs hs b .awaitingContinuation n := by
  induction n with
  | zero => intro s hs b _ _ _; exact ⟨.inl rfl, fun _ _ => rfl⟩
  | succ n ih =>
    have hcons : ∀ {s : State} {f : WireFrame} {hs : List WireFrame} {b : List Byte},
        s.Repeating gs (f :: hs) → (∀ g ∈ f :: hs, g.Wf ∧ g.flag = 2) → b.length ≤ s.cfg.rbufCap →
        s.NeverEnds gs (f :: hs) b .awaitingContinuation (n + 1) := by
      intro s f hs b h hh hb
      obtain ⟨⟨hf, hflag⟩, hh⟩ := List.forall_mem_cons.1 hh
      exact .cons h hf (by rw [hflag]; rfl) hb fun hroom => ih h.next hh hroom
    intro s hs b h hh hb
    cases hs with
    | cons f hs => exact hcons h hh hb
    | nil =>
      obtain ⟨hrefill, hlen⟩ := h.refill hgs
      obtain ⟨g, gs, rfl⟩ := List.exists_cons_of_ne_nil hgs
      exact .of_refill hlen (hcons hrefill hg hb)

end Repeating

/-- Settles O43: the frame of cflag 1 opens the record, and no frame of cflag 2 ends it. -/
theorem rdrecRunsForEver : Obligations.RdrecRunsForEver := by
  intro s fs gs hf he hfull hfs hw hopen hgs hg hahead hsupply
  obtain ⟨f, fs, rfl⟩ := List.exists_cons_of_ne_nil hfs
  obtain ⟨hwf, hwfs⟩ := List.forall_mem_cons.1 hw
  rw [List.map_cons, openRecordFlags, Bool.and_eq_true, decide_eq_true_eq, List.all_map,
    List.all_eq_true] at hopen
  obtain ⟨hfirst, hlater⟩ := hopen
  have hinside : s.rpos ≤ s.istream.length := by
    have hlen := congrArg List.length hahead
    rw [wireBytes_cons, List.length_append, WireFrame.length_bytes, List.length_drop] at hlen
    omega
  have hrepeating : s.Repeating gs (f :: fs) := ⟨hfull, hsupply, hinside, hahead⟩
  have hframes : ∀ g ∈ fs, g.Wf ∧ g.flag = 2 :=
    fun g hg => ⟨hwfs g hg, of_decide_eq_true (hlater g hg)⟩
  have hnever : s.NeverEnds gs (f :: fs) [] .start (rdrecBound s) :=
    .cons hrepeating hwf (by rw [hfirst]; rfl) (Nat.zero_le _) fun hroom =>
      hrepeating.next.neverEnds hgs hg _ hframes hroom
  obtain ⟨hno, hstuck⟩ := hnever
  rw [exec_rdrec_of_open hf he]
  refine ⟨fun t => ?_, fun hcap hdata => congrArg (conclude s) (hstuck hcap hdata)⟩
  change NoEnd (rdrecLoop (rdrecBound s) s.openRecord) at hno
  rcases hno with hno | hno <;> rw [hno] <;> nofun

end Sys2Proof.Machine
end

section
/-! PROOFS. The family 46_system_ops: the two register reads, and STATUS as a number. -/

namespace Sys2Proof.Machine

/-! ### CNT.GET (R220) -/

/-- Settles O45: the body is concluded with no look at FAULT (R237). -/
theorem cntGetAnswers : Obligations.CntGetAnswers := fun s => conclude_ok s s (s.exceptCnt, 0)

/-! ### The fields of a word, by its number -/

theorem extractLsb'_eq_iff {n w : Nat} {x : BitVec n} {k : Nat} {y : BitVec w} :
    x.extractLsb' k w = y ↔ x.toNat / 2 ^ k % 2 ^ w = y.toNat := by
  rw [← BitVec.toNat_inj, BitVec.extractLsb'_toNat, Nat.shiftRight_eq_div_pow]

theorem getLsbD_eq_iff {n : Nat} {x : BitVec n} {k : Nat} {b : Bool} :
    x.getLsbD k = b ↔ x.toNat / 2 ^ k % 2 = b.toNat := by
  rw [← BitVec.testBit_toNat, Nat.testBit_eq_decide_div_mod_eq]
  cases b <;> simp

/-! ### STAT.GET (R221) -/

/-- R25: each field weighs the power of two its bits begin at. -/
theorem State.status_toNat (s : State) :
    s.status.toNat = s.wcnt.toNat * 2 ^ 13 + s.spFirst.toNat * 2 ^ 12 + s.spActive.toNat * 2 ^ 11
      + s.rstate.code.toNat * 2 ^ 9 + s.eos.toNat * 2 ^ 8 + s.cause.code.toNat * 2 ^ 4
      + s.fault.code.toNat := by
  rw [State.status, BitVec.toNat_setWidth_of_le (by decide)]
  simp only [toNat_append_eq, BitVec.toNat_ofBool, BitVec.toNat_ofNat]
  ring

/-- Settles O46: each field is what division by its weight leaves, the fields below it being less
than that weight. -/
theorem statGetAnswersStatus : Obligations.StatGetAnswersStatus := by
  intro s
  have hcause : s.cause.code.toNat < 2 ^ 4 := s.cause.code.isLt
  have hfault : s.fault.code.toNat < 2 ^ 2 := s.fault.code.isLt
  have hrstate : s.rstate.code.toNat < 2 ^ 2 := s.rstate.code.isLt
  have hwcnt : s.wcnt.toNat < 2 ^ 2 := s.wcnt.isLt
  have heos := s.eos.toNat_lt
  have hactive := s.spActive.toNat_lt
  have hfirst := s.spFirst.toNat_lt
  refine ⟨s.status, conclude_ok s s (s.status, 0), ?_⟩
  simp only [extractLsb'_eq_iff, getLsbD_eq_iff, s.status_toNat, BitVec.ofNat_eq_ofNat,
    BitVec.toNat_zero]
  omega

end Sys2Proof.Machine
end

section
/-! PROOFS. The family 60_exceptions: a faulted block refuses, and what an operation that newly faults
raises and answers. -/

namespace Sys2Proof.Machine

/-! ### While a fault is latched (R237) -/

/-- Settles O9: every operation but the two register reads runs in the frame that tests FAULT first
(R234). -/
theorem faultedBlockRefuses : Obligations.FaultedBlockRefuses := by
  intro i s hf hc hs
  cases i with
  | cntGet => exact absurd rfl hc
  | statGet => exact absurd rfl hs
  | _ => exact runOp_of_faulted hf _

/-! ### What an operation raises (R232, R236) -/

/-- `t` carries a fault that `i` may raise, latched with its kind and answered by that kind's code. -/
def RaisedBy (i : Instr) (t : State) : Prop :=
  t.cause ∈ mayRaise i ∧ t.fault = t.cause.kind ∧
    t.rsp = some { st := t.fault.status, r1 := 0, r0 := 0 }

/-- `raise` where no fault was latched before (R236). -/
theorem State.raise_raisedBy {i : Instr} {s : State} {c : Cause} (hf : s.fault = .none)
    (hc : c ∈ mayRaise i) : RaisedBy i (s.raise c) := by
  rw [State.raise_of_clean hf]
  exact ⟨hc, rfl, rfl⟩

theorem State.Took.fault {s t : State} (h : s.Took t) : t.fault = s.fault := by
  obtain ⟨_, _, _, _, _, rfl, -⟩ := h; rfl

/-- From a block with no fault an operation leaves none, or raises one of its own. -/
theorem exec_clean_or_raisedBy {i : Instr} {s t : State} (hf : s.fault = .none)
    (h : exec i s = .next t) : t.fault = .none ∨ RaisedBy i t := by
  cases exec_next h with
  | answered | cleared | pushed | pushedFree | opened | advanced | delivered => exact .inl hf
  | wrote _ _ _ _ _ _ hu => exact .inl (hu.fault_rbuf.1.trans hf)
  | readDone _ _ _ _ hu => exact .inl (hu.fault.trans hf)
  | wrCut | readCut => exact .inl rfl
  | argument c hc => exact .inr (State.raise_raisedBy hf hc)
  | wrFailed len _ _ hi _ hu =>
    subst hi
    exact .inr (State.raise_raisedBy (hu.fault_rbuf.1.trans hf) (List.mem_singleton_self _))
  | readFailed _ _ _ _ _ _ _ hi _ _ hc =>
    subst hi
    exact .inr (State.raise_raisedBy hf hc)

/-- Settles O49. -/
theorem onlyListedFaultsRaised : Obligations.OnlyListedFaultsRaised :=
  fun _ _ _ hf h hfault => (exec_clean_or_raisedBy hf h).resolve_left hfault

end Sys2Proof.Machine
end

section
/-! PROOFS. The family 70_reset_and_hazards: reset asserted while a stream call is in progress. -/

namespace Sys2Proof.Machine

/-! ### A stream call that reset cuts (R261, log 10) -/

/-- The state a write of `b` leaves when reset cuts it: a proper front of `b` is appended, as by a
failed write (R56, R261), and `as` are the answers still to come. -/
def State.cutWrite (s : State) (b : List Byte) (k : Nat) (as : List WriteAnswer) : State :=
  State.extendOut { s with oracle := { s.oracle with writes := as } } (properFront k b)
    (.write b false)

theorem streamWrite_reset {s : State} {b : List Byte} {k : Nat} {as : List WriteAnswer}
    (h : s.oracle.writes = .reset k :: as) (hroom : s.wpos + b.length ≤ s.cfg.lwMax) :
    streamWrite b s = .cut (s.cutWrite b k as) := by
  have hfront : s.wpos + (properFront k b).length ≤ s.cfg.lwMax :=
    le_trans (Nat.add_le_add_left (List.length_take_le' _ _) _) hroom
  rw [streamWrite, State.nextWrite, h]
  exact if_pos hfront

/-- The state a read of `n` bytes leaves when reset cuts it after at most `k` bytes (R57, R261). -/
def State.cutRead (s : State) (n k : Nat) (as : List ReadAnswer) : State :=
  State.consumeIn { s.refill n with oracle := { s.oracle with reads := as } }
    ((s.refill n).ahead (min n k)).length (.read n none)

theorem streamRead_reset {s : State} {k : Nat} {as : List ReadAnswer}
    (h : s.oracle.reads = .reset k :: as) (n : Nat) : streamRead n s = .cut (s.cutRead n k as) := by
  rw [streamRead, State.nextRead, show (s.refill n).oracle.reads = .reset k :: as from h]
  rfl

/-- A cut read moves RPOS on by no more than the bytes it was to read. -/
theorem State.cutRead_rpos (s : State) (n k : Nat) (as : List ReadAnswer) :
    s.rpos ≤ (s.cutRead n k as).rpos ∧ (s.cutRead n k as).rpos ≤ s.rpos + n :=
  ⟨Nat.le_add_right _ _,
    Nat.add_le_add_left ((List.length_take_le _ _).trans (min_le_left n k)) _⟩

/-! ### The operations -/

/-- WRREC whose first `n` writes are answered `ok` and whose next one, of the bytes `b`, is cut by
reset. -/
theorem exec_wrrec_reset {s : State} {len : Word} {p b : List Byte} {n k : Nat}
    {as : List WriteAnswer} (hf : s.fault = .none) (hlimit : s.cfg.ChunkLimitOk)
    (hcap : len.toNat ≤ s.cfg.pbufCap) (hlen : p.length = len.toNat) (hp : s.PayloadIs p)
    (hroom : s.wpos + (encodeRecord s.cfg p).length ≤ s.cfg.lwMax)
    (hanswers : s.oracle.writes = List.replicate n .ok ++ .reset k :: as)
    (hb : (recordWrites s.cfg p)[n]? = some b) :
    exec (.wrrec len) s = .next
      (((s.addExcept (occ s.cfg.byteOrder p).length).afterWrites
        ((recordWrites s.cfg p).take n)).cutWrite b k as).hwReset := by
  have hupto := length_take_flatten_add_le hb
  rw [recordWrites_flatten] at hupto
  have hbefore : s.wpos + ((recordWrites s.cfg p).take n).flatten.length ≤ s.cfg.lwMax := by omega
  have hthis :
      s.wpos + ((recordWrites s.cfg p).take n).flatten.length + b.length ≤ s.cfg.lwMax := by omega
  have hok : ∀ a ∈ s.oracle.writes.take n, a = .ok := by
    rw [hanswers]
    exact fun a => eq_ok_of_mem_take_replicate
  have hnext : s.oracle.writes.drop ((recordWrites s.cfg p).take n).length = .reset k :: as := by
    rw [List.length_take_of_le (List.getElem?_eq_some_iff.1 hb).1.le, hanswers,
      List.drop_left' List.length_replicate]
  rw [exec_of_clean hf, bodyOf, wrrecBody_eq hlimit hcap hlen hp,
    writeSeq_eq_of_getElem? (s := s.addExcept _) hb hok hbefore, streamWrite_reset hnext hthis,
    Res.bind_cut, Res.bind_cut, conclude_cut]

/-- RDREC whose first read is cut by reset: that read is the one of the magic field. -/
theorem exec_rdrec_reset {s : State} {k : Nat} {as : List ReadAnswer} (hf : s.fault = .none)
    (he : s.eos = false) (h : s.oracle.reads = .reset k :: as) :
    exec .rdrec s = .next (s.openRecord.cutRead 4 k as).hwReset := by
  rw [exec_rdrec_of_open hf he, rdrecBound, rdrecLoop, readFrame, readMagic,
    streamRead_reset (s := s.openRecord) h]
  rfl

/-- Settles O52: both operations end in a state the reset signal left, which is read off field by
field. -/
theorem resetInCallAbandonsOperation : Obligations.ResetInCallAbandonsOperation := by
  refine ⟨?write, ?read⟩
  case write =>
    intro s len p n k as b hf hlimit hcap hlen hp hroom hanswers hb
    exact ⟨_, exec_wrrec_reset hf hlimit hcap hlen hp hroom hanswers hb, rfl, rfl,
      State.hwReset_status _, rfl, rfl, rfl, rfl, rfl, rfl, rfl, rfl⟩
  case read =>
    intro s k as hf he hreads
    obtain ⟨hfrom, hupto⟩ := s.openRecord.cutRead_rpos 4 k as
    exact ⟨_, exec_rdrec_reset hf he hreads, rfl, rfl, State.hwReset_status _, rfl, rfl, rfl, rfl,
      rfl, rfl, ⟨_, rfl⟩, hfrom, hupto, rfl⟩

end Sys2Proof.Machine
end
